-- ==== Sys2Proof/Word.lean ====
section
/-! DEFINITION. The word types of the machine (00_scope.md R6, R7; 20_memory.md R60) and the two operation widths. -/

namespace Sys2Proof

/-- `Byte`, 8 bits unsigned (`BYTE_BITS`, R6). -/
abbrev Byte := BitVec 8

/-- A 16-bit register value or bank offset (`REG_BITS`, R6). -/
abbrev Word := BitVec 16

/-- `Address`: 24 bits, bank in the high byte and 16-bit offset below it (R7, R60). -/
abbrev Address := BitVec 24

/-- The width of an operation: `WM` and `WX` of R8 take these two values. -/
inductive Width
  | w8
  | w16
  deriving DecidableEq, Repr

/-- The width in bits. -/
def Width.bits : Width → Nat
  | .w8 => 8
  | .w16 => 16

/-- The width in bytes (`w/8` of R132). -/
def Width.bytes : Width → Nat
  | .w8 => 1
  | .w16 => 2

/-- `m8 ? 8 : 16` and `x8 ? 8 : 16` of R8. -/
def Width.ofNarrow : Bool → Width
  | true => .w8
  | false => .w16

end Sys2Proof
end

