-- ==== Sys2Proof/Machine/Bits.lean ====
section
/-! DEFINITION. Bit fields, extension and byte order (00_scope.md R7, R8; 20_memory.md R75): every place that takes a
value apart into bytes, or puts one together, does it with the functions of this file. -/

namespace Sys2Proof

/-- `v[7:0]`, written `A.l` of a register. -/
def loByte (v : Word) : Byte := v.extractLsb' 0 8

/-- `v[15:8]`, written `A.h` of a register. -/
def hiByte (v : Word) : Byte := v.extractLsb' 8 8

/-- `{hi, lo}`. -/
def mkWord (hi lo : Byte) : Word := hi ++ lo

/-- `zext_16` of a byte. -/
def zext16 (b : Byte) : Word := b.setWidth 16

/-- `sext_16` of a byte. -/
def sext16 (b : Byte) : Word := b.signExtend 16

/-- The 24-bit address `bank:off` (R7). -/
def mkAddr (bank : Byte) (off : Word) : Address := bank ++ off

/-- `a[23:16]`. -/
def bankOf (a : Address) : Byte := a.extractLsb' 16 8

/-- `a[15:0]`. -/
def offsetOf (a : Address) : Word := a.extractLsb' 0 16

/-- Three bytes of the instruction stream or of a long pointer, the low one first in memory (R75, R103). -/
def mkLong (b3 b2 b1 : Byte) : Address := mkAddr b3 (mkWord b2 b1)

/-- The low `w` bits of a value, zero-extended back to 16 bits. -/
def Width.trunc (w : Width) (v : Word) : Word :=
  match w with
  | .w8 => zext16 (loByte v)
  | .w16 => v

/-- `v[w-1]`. -/
def Width.msb (w : Width) (v : Word) : Bool := v.getLsbD (w.bits - 1)

end Sys2Proof
end

