-- ==== Sys2Proof/Config.lean ====
section
/-! DEFINITION. The configuration of the block (00_scope.md R6): the types its parameters have, the values the spec fixes, the
reference map, and the free values. The parameters the spec leaves open (`DEVICES`, `MAP`, `CHAR_OUT`) are fields of the machine's
state that no step changes, so that a statement about every state holds for every configuration (log entry 2). -/

namespace Sys2Proof

/-- The contents of a device: pairs of a device-local offset and a byte, in the canonical form of `Memory.wf`. An offset that is not
listed holds 0x00 (R62; log entry 3). -/
abbrev Memory := List Host.Cell

/-- A memory device (20_memory.md R61); the three kinds are all there are. -/
inductive Device
  /-- `Ram(size)`. -/
  | ram (size : Nat) (cells : Memory)
  /-- `Rom(image)`: `size` bytes, of which those not listed are 0x00. -/
  | rom (size : Nat) (image : Memory)
  /-- `Mmio(handle)`. -/
  | mmio (handle : Nat)
  deriving DecidableEq, Repr

/-- The address-to-offset function of a map row (R64). -/
inductive Xlate
  | rel (base : Nat)
  | mask (k : Nat)
  | loRom
  deriving DecidableEq, Repr

/-- A row of `MAP` (R63): `(start, end, device, xlate)`, both ends included; `dev` is the device's place in `DEVICES`. -/
structure MapRow where
  first : Nat
  last : Nat
  dev : Nat
  xlate : Xlate
  deriving DecidableEq, Repr

/-- What an address resolves to (R63). -/
inductive Target
  | mapped (dev : Nat) (offset : Nat)
  | unmapped
  deriving DecidableEq, Repr

/-- The parameter `CHAR_OUT` (45_status_system.md R311). -/
inductive CharOut
  | none
  | wdmOperand
  | wdmAccLow
  deriving DecidableEq, Repr

/-- What the outside can observe of the block besides its state, in order (00_scope.md R5; 20_memory.md R72). -/
inductive Event
  /-- `BusRead8` at a 24-bit address, with what it resolved to and the byte it returned. -/
  | read (addr : Address) (target : Target) (value : Byte)
  /-- `BusWrite8` at a 24-bit address, with what it resolved to and the byte written. -/
  | write (addr : Address) (target : Target) (value : Byte)
  /-- `char_out`. -/
  | charOut (c : Byte)
  /-- `reset()` of a device. -/
  | deviceReset (dev : Nat)
  deriving DecidableEq, Repr

namespace Config

/-- `FILL` (R65, D6). -/
def fill : Byte := 0x00

/-- `SP_EMU_HIGH` (10_state.md R35, D3). -/
def spEmuHigh : Byte := 0x01

/-- The vectors of 60_exceptions.md R331 that the block takes. -/
def vecReset : Word := 0xFFFC
def vecCopNative : Word := 0xFFE4
def vecBrkNative : Word := 0xFFE6
def vecCopEmulation : Word := 0xFFF4
def vecBrkEmulation : Word := 0xFFFE

/-- The seven vectors of R331 that nothing in the block reads: ABORT, NMI, reserved, IRQ of native mode, then reserved, ABORT, NMI of
emulation mode. Their bytes are plain memory. -/
def vectorsNotTaken : List Word := [0xFFE8, 0xFFEA, 0xFFEC, 0xFFEE, 0xFFF6, 0xFFF8, 0xFFFA]

/-- The register values of `RESET_STATE` (10_state.md R40). -/
def resetSP : Word := 0x01FF
def resetP : Byte := 0x34

/-- The free value a read of an `Mmio` device returns (20_memory.md R72, D26): a function of the history of accesses before it, of
the device's handle and of the offset, about which nothing is known. -/
opaque mmioAnswer (history : List Event) (handle offset : Nat) : Byte

/-- `BASE_CYCLES` (70_reset_and_hazards.md R372, D25): open, and read by no rule. -/
opaque baseCycles (opcode : Byte) : Nat

/-- The banks of rows 2 and 3 of R78. -/
def lowBanks : List Nat := List.range 0x40 ++ (List.range 0x40).map (· + 0x80)

/-- The banks of row 4 of R78. -/
def romBanks : List Nat := List.range 0x7E ++ (List.range 0x80).map (· + 0x80)

/-- The places of `WRAM`, `CART` and `IO` in the reference device list. -/
def wram : Nat := 0
def cart : Nat := 1
def io : Nat := 2

/-- `MAP_REF` (20_memory.md R78). -/
def mapRef : List MapRow :=
  { first := 0x7E0000, last := 0x7FFFFF, dev := wram, xlate := .rel 0 } ::
  (lowBanks.map (fun b => { first := b * 0x10000, last := b * 0x10000 + 0x1FFF, dev := wram, xlate := .mask 0x001FFF }) ++
   lowBanks.map (fun b => { first := b * 0x10000 + 0x2000, last := b * 0x10000 + 0x5FFF, dev := io, xlate := .mask 0x00FFFF }) ++
   romBanks.map (fun b => { first := b * 0x10000 + 0x8000, last := b * 0x10000 + 0xFFFF, dev := cart, xlate := .loRom }))

/-- The reference devices of R78 with a cartridge image of `size` bytes. -/
def devicesRef (size : Nat) (image : Memory) : List Device := [.ram 0x20000 [], .rom size image, .mmio 0]

end Config

end Sys2Proof
end

