-- ==== Sys2Proof/Machine/Memory.lean ====
section
/-! DEFINITION. The contents of a device as a canonical list (20_memory.md R62): offsets strictly rising, and no entry equal to what
an unlisted offset reads as. -/

namespace Sys2Proof.Memory

/-- What an unlisted offset holds: "zero-initialized on reset" (R61, R62). -/
def unlisted : Byte := 0x00

/-- The byte at an offset. -/
def read : Memory → Nat → Byte
  | [], _ => unlisted
  | (a, v) :: rest, o => if a = o then v else read rest o

/-- Take an offset out of the list. -/
def erase (m : Memory) (o : Nat) : Memory := m.filter (fun c => c.1 != o)

/-- Put an entry before the first entry with a larger or equal offset. -/
def insert : Memory → Nat → Byte → Memory
  | [], o, v => [(o, v)]
  | (a, w) :: rest, o, v => if a < o then (a, w) :: insert rest o v else (o, v) :: (a, w) :: rest

/-- Put a byte at an offset, keeping the canonical form: a byte equal to `unlisted` is not listed. -/
def write (m : Memory) (o : Nat) (v : Byte) : Memory :=
  if v = unlisted then m.erase o else (m.erase o).insert o v

/-- The entries after offset `bound` are canonical and lie below `size`. -/
def wfFrom (size : Nat) : Nat → Memory → Bool
  | _, [] => true
  | bound, (a, v) :: rest => decide (bound ≤ a) && decide (a < size) && decide (v ≠ unlisted) && wfFrom size (a + 1) rest

/-- The canonical form of the contents of a device of `size` bytes. -/
def wf (size : Nat) (m : Memory) : Bool := wfFrom size 0 m

end Sys2Proof.Memory
end

