-- ==== Sys2Proof/Machine/Bus.lean ====
section
/-! DEFINITION. The Address Bus and its device mapper (20_memory.md R60 to R72, R86). Every access of the machine is one of the
single-byte accesses `Bus.read8` and `Bus.write8` of this file, and each leaves its event in the history. -/

namespace Sys2Proof

/-- The Bus: the parameters `MAP` and `DEVICES` (with the contents of the devices), and the history of accesses and events, newest
first (R72). -/
structure Bus where
  map : List MapRow
  devices : List Device
  events : List Event
  deriving DecidableEq, Repr

/-- `size(device)` of R64. -/
def Device.size : Device → Nat
  | .ram size _ => size
  | .rom size _ => size
  | .mmio _ => 2 ^ 24

/-- `readByte(offset)` (R62, R72): an `Mmio` device answers with a free value. -/
def Device.readByte (history : List Event) (offset : Nat) : Device → Byte
  | .ram _ cells => cells.read offset
  | .rom _ image => image.read offset
  | .mmio handle => Config.mmioAnswer history handle offset

/-- `writeByte(offset, v)` (R62, R72): a ROM discards the write, and an `Mmio` device has no state in the block. -/
def Device.writeByte (offset : Nat) (v : Byte) : Device → Device
  | .ram size cells => .ram size (cells.write offset v)
  | .rom size image => .rom size image
  | .mmio handle => .mmio handle

/-- `reset()` of a device (R62, R86). -/
def Device.reset : Device → Device
  | .ram size _ => .ram size []
  | .rom size image => .rom size image
  | .mmio handle => .mmio handle

/-- The raw offset of R64. -/
def Xlate.raw (first a : Nat) : Xlate → Nat
  | .rel base => (a - first) + base
  | .mask k => a &&& k
  | .loRom => (a / 0x10000 % 0x80) * 0x8000 + a % 0x8000

/-- `Offset(row, a)` for a device of the given size, R64. -/
def MapRow.offset (row : MapRow) (size a : Nat) : Nat := row.xlate.raw row.first a % size

/-- The row covers the address. -/
def MapRow.covers (row : MapRow) (a : Nat) : Bool := Nat.ble row.first a && Nat.ble a row.last

/-- `Resolve(a)`, R63: the first row that covers the address decides. A row that names no device of the list (no well-formed
configuration has one) counts as unmapped. -/
def resolveIn (devices : List Device) (a : Nat) : List MapRow → Target
  | [] => .unmapped
  | row :: rows =>
    if row.covers a then
      match devices[row.dev]? with
      | some d => .mapped row.dev (row.offset d.size a)
      | none => .unmapped
    else resolveIn devices a rows

namespace Bus

/-- `Resolve(a)`, R63. -/
def resolve (b : Bus) (a : Address) : Target := resolveIn b.devices a.toNat b.map

/-- The byte a read of the target returns at this moment of the history (R66). -/
def valueAt (b : Bus) : Target → Byte
  | .unmapped => Config.fill
  | .mapped dev offset =>
    match b.devices[dev]? with
    | some d => d.readByte b.events offset
    | none => Config.fill

/-- Record an event. -/
def emit (ev : Event) (b : Bus) : Bus := { b with events := ev :: b.events }

/-- `BusRead8(a)`, R66. -/
def read8 (a : Address) (b : Bus) : Byte × Bus :=
  let t := b.resolve a
  let v := b.valueAt t
  (v, b.emit (.read a t v))

/-- The device list after a byte is written to a target. -/
def storeDevices (devices : List Device) (v : Byte) : Target → List Device
  | .unmapped => devices
  | .mapped dev offset =>
    match devices[dev]? with
    | some d => devices.set dev (d.writeByte offset v)
    | none => devices

/-- `BusWrite8(a, v)`, R67. -/
def write8 (a : Address) (v : Byte) (b : Bus) : Bus :=
  let t := b.resolve a
  { b with devices := storeDevices b.devices v t, events := .write a t v :: b.events }

end Bus

/-- A location (R71): `Lin(a)`, whose successive bytes are at `a + 1`, `a + 2` modulo 2^24, or bytes confined to one bank, at
`off + 1`, `off + 2` modulo 2^16 (R70). -/
inductive Loc
  | lin (a : Address)
  | inBank (bank : Byte) (off : Word)
  deriving DecidableEq, Repr

/-- `B0(off)`. -/
def Loc.b0 (off : Word) : Loc := .inBank 0 off

/-- The address of byte `k` of a location (R68, R70). -/
def Loc.byte (k : Nat) : Loc → Address
  | .lin a => a + BitVec.ofNat 24 k
  | .inBank bank off => mkAddr bank (off + BitVec.ofNat 16 k)

/-- The addresses of the first `n` bytes of a location, in ascending order. -/
def Loc.bytes (loc : Loc) (n : Nat) : List Address := (List.range n).map (fun k => loc.byte k)

namespace Bus

/-- One byte of a location. -/
def readByte (loc : Loc) (b : Bus) : Byte × Bus := b.read8 (loc.byte 0)

/-- `MemRead`, `MemRead0`, `MemReadP` with `n = 2` (R68, R70): low byte first. -/
def read16 (loc : Loc) (b : Bus) : Word × Bus :=
  let r0 := b.read8 (loc.byte 0)
  let r1 := r0.2.read8 (loc.byte 1)
  (mkWord r1.1 r0.1, r1.2)

/-- The same with `n = 3`. -/
def read24 (loc : Loc) (b : Bus) : Address × Bus :=
  let r0 := b.read8 (loc.byte 0)
  let r1 := r0.2.read8 (loc.byte 1)
  let r2 := r1.2.read8 (loc.byte 2)
  (mkLong r2.1 r1.1 r0.1, r2.2)

/-- `MemWrite` and `MemWrite0` with `n = 1` (R69, R70). -/
def writeByte (loc : Loc) (v : Byte) (b : Bus) : Bus := b.write8 (loc.byte 0) v

/-- The same with `n = 2`: low byte first. -/
def write16 (loc : Loc) (v : Word) (b : Bus) : Bus := (b.write8 (loc.byte 0) (loByte v)).write8 (loc.byte 1) (hiByte v)

/-- The same with `n = 3`; the Bus offers it and no instruction uses it. -/
def write24 (loc : Loc) (v : Address) (b : Bus) : Bus := (b.write16 loc (offsetOf v)).write8 (loc.byte 2) (bankOf v)

/-- The reset events of the devices from place `dev` on, in declaration order, put before the history. -/
def resetEvents : Nat → List Device → List Event → List Event
  | _, [], h => h
  | dev, _ :: rest, h => resetEvents (dev + 1) rest (.deviceReset dev :: h)

/-- The Bus's part of a reset (R86, R360): `reset()` of every device in declaration order; map and sizes stay. -/
def reset (b : Bus) : Bus :=
  { b with devices := b.devices.map Device.reset, events := resetEvents 0 b.devices b.events }

/-- What the block itself holds at an address, without an access: the byte of a RAM or ROM, `FILL` where nothing is mapped, and
nothing for an address of an `Mmio` device, whose state is outside the block (R39). -/
def byteAt (b : Bus) (a : Address) : Option Byte :=
  match b.resolve a with
  | .unmapped => some Config.fill
  | .mapped dev offset =>
    match b.devices[dev]? with
    | some (.ram _ cells) => some (cells.read offset)
    | some (.rom _ image) => some (image.read offset)
    | some (.mmio _) => none
    | none => some Config.fill

/-- The address is a byte of a RAM. -/
def isRam (b : Bus) (a : Address) : Bool :=
  match b.resolve a with
  | .unmapped => false
  | .mapped dev _ =>
    match b.devices[dev]? with
    | some (.ram _ _) => true
    | _ => false

/-- Two addresses reach the same byte of the same device (mirrors, R63). -/
def sameByte (b : Bus) (a c : Address) : Bool := decide (b.resolve a = b.resolve c) && decide (b.resolve a ≠ .unmapped)

/-! ## Well-formed configurations (93_implementation_defined.md U3) -/

/-- A device has at least one byte and, in a RAM or ROM, canonical contents. -/
def deviceWf : Device → Bool
  | .ram size cells => decide (1 ≤ size) && cells.wf size
  | .rom size image => decide (1 ≤ size) && image.wf size
  | .mmio _ => true

/-- A row is a range of 24-bit addresses and names a device. -/
def rowWf (devices : List Device) (row : MapRow) : Bool :=
  Nat.ble row.first row.last && decide (row.last < 2 ^ 24) && decide (row.dev < devices.length)

/-- Two rows of different devices do not overlap (C2 of 90_conflicts.md). -/
def disjointRows (r q : MapRow) : Bool := r.dev == q.dev || decide (r.last < q.first) || decide (q.last < r.first)

/-- Every two rows of different devices are disjoint. -/
def mapDisjoint : List MapRow → Bool
  | [] => true
  | r :: rest => rest.all (disjointRows r) && mapDisjoint rest

/-- The configuration is well formed. -/
def configWf (b : Bus) : Bool := b.devices.all deviceWf && b.map.all (rowWf b.devices) && mapDisjoint b.map

/-- The reference configuration with the given cartridge image (R78), before its first reset. -/
def reference (size : Nat) (image : Memory) : Bus :=
  { map := Config.mapRef, devices := Config.devicesRef size image, events := [] }

end Bus

end Sys2Proof
end

