-- ==== Sys2Proof/Machine/State.lean ====
section
/-! DEFINITION. The state of the machine (10_state.md R20), the reasons a step can stop, and the state after reset (R40, R360). -/

namespace Sys2Proof.Machine

/-- `run`, 10_state.md R37. -/
inductive RunState
  | running
  | waiting
  | stopped
  deriving DecidableEq, Repr

/-- The complete state of the block, R20, in the names of 00_scope.md R8. `bus` holds the contents of the devices with the
parameters `MAP` and `DEVICES`, and the history of accesses; `charOut` is the parameter `CHAR_OUT`. No step changes a parameter. -/
structure State where
  A : Word
  X : Word
  Y : Word
  PC : Word
  PBR : Byte
  DBR : Byte
  DR : Word
  SP : Word
  P : Byte
  e : Bool
  run : RunState
  bus : Bus
  charOut : CharOut
  deriving DecidableEq, Repr

/-- The block raises no fault of any kind (00_scope.md R10, 60_exceptions.md R330: "There is no other exception"): the type of its
faults has no member. -/
inductive Fault
  deriving DecidableEq, Repr

/-- Why the model declines. No instruction and no step raises one of these. -/
inductive Refusal
  /-- An instruction without a meaning, raised by its arm of `exec`: no arm does. Safe. -/
  | notModelled (mnemonic : String)
  /-- Raised by the ports `powerOn` and `loadRom` for a configuration that 93_implementation_defined.md U3 tells a model to refuse.
  Safe: nothing is claimed of a machine so configured. -/
  | illFormedConfiguration
  /-- Raised by the ports `powerOn` and `loadRom` for a ROM without bytes (93_implementation_defined.md U24). Safe. -/
  | emptyRomImage
  deriving DecidableEq, Repr

/-- The state the reset procedure R360 leaves: the devices are reset in declaration order, the registers take the values of R40, and
the program counter is read from the reset vector. Map, device sizes, ROM images and `CHAR_OUT` stay. -/
def State.afterReset (charOut : CharOut) (bus : Bus) : State :=
  let r := bus.reset.read16 (.b0 Config.vecReset)
  { A := 0, X := 0, Y := 0, PC := r.1, PBR := 0, DBR := 0, DR := 0, SP := Config.resetSP, P := Config.resetP,
    e := true, run := .running, bus := r.2, charOut := charOut }

/-- The machine right after reset in the reference configuration of 00_scope.md R6: `MAP_REF` with a blank cartridge of 32 KiB
(log entry 4), `CHAR_OUT = None`. -/
def State.reset : State := .afterReset .none (.reference 0x8000 [])

end Sys2Proof.Machine
end

