-- ==== Sys2Proof/Machine/Flags.lean ====
section
/-! DEFINITION. The status byte `P` (10_state.md R30, R31), the width predicates (00_scope.md R8), and every flag computation: the
negative and zero flags, and the shared adder of 42_alu.md R190. -/

namespace Sys2Proof.Machine

/-- The flags of `P`. -/
inductive Flag
  | n | v | m | x | d | i | z | c
  deriving DecidableEq, Repr

/-- The bit of a flag, R30. -/
def Flag.bit : Flag → Nat
  | .n => 7
  | .v => 6
  | .m => 5
  | .x => 4
  | .d => 3
  | .i => 2
  | .z => 1
  | .c => 0

/-- The mask of a flag, R30. -/
def Flag.mask (f : Flag) : Byte := BitVec.twoPow 8 f.bit

/-- A status byte with one flag set to a value. -/
def putFlag (f : Flag) (b : Bool) (p : Byte) : Byte := if b then p ||| f.mask else p &&& ~~~f.mask

namespace State

/-- `P.f`. -/
def flag (s : State) (f : Flag) : Bool := s.P.getLsbD f.bit

/-- `P.f <- b`. -/
def setFlag (f : Flag) (b : Bool) (s : State) : State := { s with P := putFlag f b s.P }

/-- `memoryAndAccumulatorAre8Bit()`: `e OR P.m`. -/
def m8 (s : State) : Bool := s.e || s.flag .m

/-- `indexRegistersAre8Bit()`: `e OR P.x`. -/
def x8 (s : State) : Bool := s.e || s.flag .x

/-- `WM`. -/
def wm (s : State) : Width := .ofNarrow s.m8

/-- `WX`. -/
def wx (s : State) : Width := .ofNarrow s.x8

/-- `SetNZ(v, w)`, R8. -/
def setNZ (v : Word) (w : Width) (s : State) : State := (s.setFlag .z (w.trunc v == 0)).setFlag .n (w.msb v)

end State

/-- The result of the shared adder. -/
structure Sum where
  r : Word
  carry : Bool
  overflow : Bool
  deriving DecidableEq, Repr

/-- The binary branch of `AddCore`, R190. -/
def addBinary (a b : Word) (cin : Bool) (w : Width) : Sum :=
  let s := (w.trunc a).toNat + (w.trunc b).toNat + cin.toNat
  let r := BitVec.ofNat 16 (s % 2 ^ w.bits)
  { r := r
    carry := decide (2 ^ w.bits ≤ s)
    overflow := w.msb (~~~(a ^^^ b) &&& (a ^^^ r)) }

/-- `x.dig[i]`. -/
def digit (x : Word) (i : Nat) : Nat := x.toNat / 16 ^ i % 16

/-- One digit of the decimal branch, R190: the digit and the carry out of a raw sum `t`. An SBC digit with no carry out is corrected
by -6, taken modulo 16. -/
def decimalDigit (sub : Bool) (t : Nat) : Nat × Bool :=
  if sub then (if 15 < t then (t % 16, true) else ((t + 10) % 16, false))
  else
    let u := if 9 < t then t + 6 else t
    (u % 16, decide (15 < u))

/-- The digit loop of the decimal branch, R190: `k` digits from digit `i` on, with carry `c`; the digits as a number whose lowest
digit is digit `i`, the carry out, and bit 3 of the last digit's raw sum. -/
def decimalDigits (sub : Bool) (a b : Word) : (k i : Nat) → (c : Bool) → Nat × Bool × Bool
  | 0, _, c => (0, c, false)
  | k + 1, i, c =>
    let t := digit a i + digit b i + c.toNat
    let d := decimalDigit sub t
    if k = 0 then (d.1, d.2, t.testBit 3)
    else
      let rest := decimalDigits sub a b k (i + 1) d.2
      (d.1 + 16 * rest.1, rest.2)

/-- The decimal branch of `AddCore`, R190. -/
def addDecimal (a b : Word) (cin : Bool) (w : Width) (sub : Bool) : Sum :=
  let t := decimalDigits sub a b (w.bits / 4) 0 cin
  { r := BitVec.ofNat 16 t.1
    carry := t.2.1
    overflow := !(w.msb a ^^ w.msb b) && (w.msb a ^^ t.2.2) }

/-- `AddCore(a, b, cin, w, dec, sub)`, R190. -/
def addCore (a b : Word) (cin : Bool) (w : Width) (dec sub : Bool) : Sum :=
  if dec then addDecimal a b cin w sub else addBinary a b cin w

end Sys2Proof.Machine
end

