-- ==== Sys2Proof/Syntax.lean ====
section
/-! DEFINITION. The instruction set as terms (30_encoding.md R100 to R105). `Format` is the list of R101; `Instr` has one
constructor for each instruction of R105, whose argument is the operand form, so that every row of the opcode table is one
constructor at one form. -/

namespace Sys2Proof

/-- The 28 instruction formats of R101. -/
inductive Format
  | imp | acc | imm8 | sig | immm | immx | imm16
  | dp | dpx | dpy | idp | idpx | idpy | idl | idly
  | abs | absx | absy | abl | ablx | ind | indx | indl
  | rel8 | rel16 | sr | isry | blk
  deriving DecidableEq, Repr

/-- The operand forms that name a location in memory (R142 to R154, R160, R161), with their operand bytes. -/
inductive Mem
  | dp (d : Byte)
  | dpx (d : Byte)
  | dpy (d : Byte)
  | idp (d : Byte)
  | idpx (d : Byte)
  | idpy (d : Byte)
  | idl (d : Byte)
  | idly (d : Byte)
  | abs (a : Word)
  | absx (a : Word)
  | absy (a : Word)
  | abl (al : Address)
  | ablx (al : Address)
  | sr (d : Byte)
  | isry (d : Byte)
  deriving DecidableEq, Repr

/-- The operand an instruction reads (`Operand(f, w)` of R132): an immediate at the width of the operation (`IMMM`, `IMMX`;
eight bits when the width is 8, then held zero-extended) or a location. -/
inductive Src
  | imm (v : Word)
  | mem (m : Mem)
  deriving DecidableEq, Repr

/-- The operand of a read-modify-write instruction (`RMW`, 42_alu.md section 7): the accumulator or a location. -/
inductive Rmw
  | acc
  | mem (m : Mem)
  deriving DecidableEq, Repr

/-- The operands of JMP (R291). -/
inductive JmpTarget
  | abs (a : Word)
  | ind (a : Word)
  | indx (a : Word)
  deriving DecidableEq, Repr

/-- The operands of JML (R292). -/
inductive JmlTarget
  | abl (al : Address)
  | indl (a : Word)
  deriving DecidableEq, Repr

/-- The operands of JSR (R293). -/
inductive JsrTarget
  | abs (a : Word)
  | indx (a : Word)
  deriving DecidableEq, Repr

/-- The instructions of R105, family by family. -/
inductive Instr
  -- 41_load_store.md
  | lda (o : Src) | ldx (o : Src) | ldy (o : Src)
  | sta (m : Mem) | stx (m : Mem) | sty (m : Mem) | stz (m : Mem)
  -- 42_alu.md
  | adc (o : Src) | sbc (o : Src) | and (o : Src) | ora (o : Src) | eor (o : Src)
  | cmp (o : Src) | cpx (o : Src) | cpy (o : Src)
  | bit (o : Src) | tsb (m : Mem) | trb (m : Mem)
  | inc (o : Rmw) | dec (o : Rmw) | inx | iny | dex | dey
  | asl (o : Rmw) | lsr (o : Rmw) | rol (o : Rmw) | ror (o : Rmw)
  -- 43_transfer_stack.md
  | tax | tay | txa | tya | txy | tyx | tsx | txs | tcd | tdc | tcs | tsc | xba
  | pha | phx | phy | php | phb | phd | phk
  | pla | plx | ply | plp | plb | pld
  | pea (v : Word) | pei (d : Byte) | per (r : Word)
  | mvn (dst src : Byte) | mvp (dst src : Byte)
  -- 44_control_flow.md
  | bcc (r : Byte) | bcs (r : Byte) | beq (r : Byte) | bne (r : Byte)
  | bmi (r : Byte) | bpl (r : Byte) | bvc (r : Byte) | bvs (r : Byte)
  | bra (r : Byte) | brl (r : Word)
  | jmp (t : JmpTarget) | jml (t : JmlTarget) | jsr (t : JsrTarget) | jsl (al : Address)
  | rts | rtl
  -- 45_status_system.md
  | clc | sec | cli | sei | cld | sed | clv
  | rep (v : Byte) | sep (v : Byte) | xce | nop
  | wdm (sig : Byte) | brk (sig : Byte) | cop (sig : Byte)
  | rti | wai | stp
  deriving DecidableEq, Repr

end Sys2Proof
end

