-- ==== Sys2Proof/Machine/Formats.lean ====
section
/-! DEFINITION. The format and the length of an instruction (30_encoding.md R101, R102). -/

namespace Sys2Proof

/-- `Len(f, m8, x8)`, R102. -/
def Format.len (f : Format) (m8 x8 : Bool) : Nat :=
  match f with
  | .imp | .acc => 1
  | .imm8 | .sig | .dp | .dpx | .dpy | .idp | .idpx | .idpy | .idl | .idly | .rel8 | .sr | .isry => 2
  | .imm16 | .abs | .absx | .absy | .ind | .indx | .indl | .rel16 | .blk => 3
  | .abl | .ablx => 4
  | .immm => if m8 then 2 else 3
  | .immx => if x8 then 2 else 3

/-- The format of a memory operand. -/
def Mem.format : Mem → Format
  | .dp _ => .dp
  | .dpx _ => .dpx
  | .dpy _ => .dpy
  | .idp _ => .idp
  | .idpx _ => .idpx
  | .idpy _ => .idpy
  | .idl _ => .idl
  | .idly _ => .idly
  | .abs _ => .abs
  | .absx _ => .absx
  | .absy _ => .absy
  | .abl _ => .abl
  | .ablx _ => .ablx
  | .sr _ => .sr
  | .isry _ => .isry

/-- The format of an operand read, `immediate` being `IMMM` or `IMMX`. -/
def Src.format (immediate : Format) : Src → Format
  | .imm _ => immediate
  | .mem m => m.format

/-- The format of a read-modify-write operand. -/
def Rmw.format : Rmw → Format
  | .acc => .acc
  | .mem m => m.format

/-- The format of an instruction (R105). -/
def Instr.format : Instr → Format
  | .lda o | .adc o | .sbc o | .and o | .ora o | .eor o | .cmp o | .bit o => o.format .immm
  | .ldx o | .ldy o | .cpx o | .cpy o => o.format .immx
  | .sta m | .stx m | .sty m | .stz m | .tsb m | .trb m => m.format
  | .inc o | .dec o | .asl o | .lsr o | .rol o | .ror o => o.format
  | .inx | .iny | .dex | .dey => .imp
  | .tax | .tay | .txa | .tya | .txy | .tyx | .tsx | .txs | .tcd | .tdc | .tcs | .tsc | .xba => .imp
  | .pha | .phx | .phy | .php | .phb | .phd | .phk | .pla | .plx | .ply | .plp | .plb | .pld => .imp
  | .pea _ => .imm16
  | .pei _ => .idp
  | .per _ | .brl _ => .rel16
  | .mvn _ _ | .mvp _ _ => .blk
  | .bcc _ | .bcs _ | .beq _ | .bne _ | .bmi _ | .bpl _ | .bvc _ | .bvs _ | .bra _ => .rel8
  | .jmp (.abs _) | .jsr (.abs _) => .abs
  | .jmp (.ind _) => .ind
  | .jmp (.indx _) | .jsr (.indx _) => .indx
  | .jml (.abl _) | .jsl _ => .abl
  | .jml (.indl _) => .indl
  | .rts | .rtl | .rti | .wai | .stp | .nop | .xce => .imp
  | .clc | .sec | .cli | .sei | .cld | .sed | .clv => .imp
  | .rep _ | .sep _ => .imm8
  | .wdm _ | .brk _ | .cop _ => .sig

/-- The total length of an instruction in bytes, its opcode included (R100, R102). -/
def Instr.len (i : Instr) (m8 x8 : Bool) : Nat := i.format.len m8 x8

end Sys2Proof
end

