-- ==== Sys2Proof/Machine/Ops.lean ====
section
/-! DEFINITION. The named operations over registers and memory that the meanings are made of: the width-switched accessors
(00_scope.md R8), `Normalize` (10_state.md R36), memory at a location (20_memory.md R71), the stack (R73, R74), the program counter
(40_addressing_modes.md R131), the software-interrupt entry (60_exceptions.md R333) and the return from it (R338). -/

namespace Sys2Proof.Machine

/-- What `exec` and every meaning answer. -/
abbrev Result := Host.Outcome State Fault Refusal

namespace State

/-! ## Registers -/

/-- `RdA()`. -/
def rdA (s : State) : Word := s.wm.trunc s.A

/-- `WrA(v)`: an 8-bit write leaves `A.h` alone. -/
def wrA (v : Word) (s : State) : State := { s with A := if s.m8 then mkWord (hiByte s.A) (loByte v) else v }

/-- `RdX()`, which is also `XV` of R132. -/
def rdX (s : State) : Word := s.wx.trunc s.X

/-- `RdY()`, which is also `YV` of R132. -/
def rdY (s : State) : Word := s.wx.trunc s.Y

/-- `WrX(v)`: an 8-bit write clears `X.h`. -/
def wrX (v : Word) (s : State) : State := { s with X := s.wx.trunc v }

/-- `WrY(v)`. -/
def wrY (v : Word) (s : State) : State := { s with Y := s.wx.trunc v }

/-- A write of all 16 bits of `A`, whatever `m8` is (TDC, TSC, XBA, MVN, MVP). -/
def setA (v : Word) (s : State) : State := { s with A := v }

/-- `DR <- v`. -/
def setDR (v : Word) (s : State) : State := { s with DR := v }

/-- `DBR <- v`. -/
def setDBR (v : Byte) (s : State) : State := { s with DBR := v }

/-- `PBR <- v`. -/
def setPBR (v : Byte) (s : State) : State := { s with PBR := v }

/-- `PC <- v`. -/
def setPC (v : Word) (s : State) : State := { s with PC := v }

/-- `run <- v`. -/
def setRun (v : RunState) (s : State) : State := { s with run := v }

/-- `SP <- v ; if e then SP.h <- SP_EMU_HIGH` (R35). -/
def setSP (v : Word) (s : State) : State := { s with SP := if s.e then mkWord Config.spEmuHigh (loByte v) else v }

/-- `Normalize()`, R36. -/
def normalize (s : State) : State :=
  { s with
    X := if s.x8 then zext16 (loByte s.X) else s.X
    Y := if s.x8 then zext16 (loByte s.Y) else s.Y
    SP := if s.e then mkWord Config.spEmuHigh (loByte s.SP) else s.SP }

/-- `P <- v ; Normalize()`. -/
def writeP (v : Byte) (s : State) : State := { s with P := v }.normalize

/-! ## Memory -/

/-- Put a bus in place of the machine's. -/
def withBus (b : Bus) (s : State) : State := { s with bus := b }

/-- A read of one byte of a location. -/
def readByte (loc : Loc) (s : State) : Byte × State :=
  let r := s.bus.readByte loc
  (r.1, s.withBus r.2)

/-- A read of two bytes. -/
def read16 (loc : Loc) (s : State) : Word × State :=
  let r := s.bus.read16 loc
  (r.1, s.withBus r.2)

/-- A read of three bytes. -/
def read24 (loc : Loc) (s : State) : Address × State :=
  let r := s.bus.read24 loc
  (r.1, s.withBus r.2)

/-- `RdLoc(loc, w/8)`, R71, zero-extended to 16 bits. -/
def readLoc (loc : Loc) (w : Width) (s : State) : Word × State :=
  match w with
  | .w8 =>
    let r := s.readByte loc
    (zext16 r.1, r.2)
  | .w16 => s.read16 loc

/-- `WrLoc(loc, w/8, v)`, R71. -/
def writeLoc (loc : Loc) (w : Width) (v : Word) (s : State) : State :=
  match w with
  | .w8 => s.withBus (s.bus.writeByte loc (loByte v))
  | .w16 => s.withBus (s.bus.write16 loc v)

/-- Emit `char_out(c)`. -/
def charOutEvent (c : Byte) (s : State) : State := s.withBus (s.bus.emit (.charOut c))

/-! ## The stack, R73 and R74 -/

/-- `Push8(v)`. -/
def push8 (v : Byte) (s : State) : State := (s.withBus (s.bus.writeByte (.b0 s.SP) v)).setSP (s.SP - 1)

/-- `Push16(v)`: high byte first. -/
def push16 (v : Word) (s : State) : State := (s.push8 (hiByte v)).push8 (loByte v)

/-- `Pull8()`. -/
def pull8 (s : State) : Byte × State :=
  let s1 := s.setSP (s.SP + 1)
  s1.readByte (.b0 s1.SP)

/-- `Pull16()`. -/
def pull16 (s : State) : Word × State :=
  let lo := s.pull8
  let hi := lo.2.pull8
  (mkWord hi.1 lo.1, hi.2)

/-- A push at a width: `if narrow then Push8(v.l) else Push16(v)`. -/
def push (w : Width) (v : Word) (s : State) : State :=
  match w with
  | .w8 => s.push8 (loByte v)
  | .w16 => s.push16 v

/-- A pull at a width, zero-extended to 16 bits. -/
def pull (w : Width) (s : State) : Word × State :=
  match w with
  | .w8 =>
    let r := s.pull8
    (zext16 r.1, r.2)
  | .w16 => s.pull16

/-! ## The program counter -/

/-- `(PC + n) mod 2^16`. -/
def pcPlus (n : Nat) (s : State) : Word := s.PC + BitVec.ofNat 16 n

/-- The length of an instruction under the widths in force. -/
def lenOf (i : Instr) (s : State) : Nat := i.len s.m8 s.x8

/-- `PC <- (PC + n) mod 2^16`, R131. -/
def advance (n : Nat) (s : State) : State := s.setPC (s.pcPlus n)

/-- The target of a `REL8` operand, R158. -/
def rel8Target (r : Byte) (s : State) : Word := s.PC + 2 + sext16 r

/-- The target of a `REL16` operand, R159. -/
def rel16Target (r : Word) (s : State) : Word := s.PC + 3 + r

end State

/-- The end of an instruction that does not assign `PC` (R131): `s` is the state at its start, whose widths give the length, and `t`
the state with the instruction's effect. -/
def finish (i : Instr) (s t : State) : Result := .next (t.advance (s.lenOf i))

/-! ## Software interrupts, R333 and R338 -/

/-- The two software interrupts. -/
inductive SoftInt
  | brk
  | cop
  deriving DecidableEq, Repr

/-- The vector of a software interrupt in emulation (`true`) or native mode, R331. -/
def SoftInt.vector : SoftInt → Bool → Word
  | .brk, false => Config.vecBrkNative
  | .cop, false => Config.vecCopNative
  | .brk, true => Config.vecBrkEmulation
  | .cop, true => Config.vecCopEmulation

/-- The number R335 gives the event, reset being number 0; the machine stores it nowhere. -/
def SoftInt.number : SoftInt → Nat
  | .brk => 1
  | .cop => 2

/-- The copy of `P` a software interrupt pushes: in emulation mode BRK marks it in bit 4. -/
def SoftInt.pushedP (k : SoftInt) (s : State) : Byte :=
  match k with
  | .brk => if s.e then s.P ||| 0x10 else s.P
  | .cop => s.P

namespace State

/-- The frame a software interrupt pushes (R333, R334): `PBR` in native mode only, the return address, `P`. -/
def pushFrame (k : SoftInt) (s : State) : State :=
  let ra := s.pcPlus 2
  let p := k.pushedP s
  let s1 := if s.e then s else s.push8 s.PBR
  (s1.push16 ra).push8 p

/-- `raise SoftInt(k)`, R333. -/
def softInt (k : SoftInt) (s : State) : State :=
  let s1 := ((s.pushFrame k).setFlag .i true).setFlag .d false
  let r := (s1.setPBR 0).read16 (.b0 (k.vector s.e))
  r.2.setPC r.1

/-- The return from a software interrupt, R315 and R338: `e` at the start decides whether `PBR` is pulled. -/
def returnFromInt (s : State) : State :=
  let p := s.pull8
  let r := (p.2.writeP p.1).pull16
  let s1 := r.2.setPC r.1
  if s.e then s1
  else
    let b := s1.pull8
    b.2.setPBR b.1

end State

end Sys2Proof.Machine
end

