-- ==== Sys2Proof/Machine/Operands.lean ====
section
/-! DEFINITION. The addressing-mode multiplexer (40_addressing_modes.md R140 to R162): the location every memory form names, the value
an instruction reads, and read-modify-write. Pointer reads are accesses of the bus, so each function answers with the state after
them. -/

namespace Sys2Proof.Machine

namespace State

/-- `(DR + zext_16(d)) mod 2^16`. -/
def direct (d : Byte) (s : State) : Word := s.DR + zext16 d

/-- `(SP + zext_16(d)) mod 2^16`. -/
def stackRel (d : Byte) (s : State) : Word := s.SP + zext16 d

/-- A 24-bit address with an index added over all 24 bits. -/
def indexed (a : Address) (index : Word) : Address := a + index.setWidth 24

/-- `EA(f)`, R142 to R154, R160, R161, and the state after the pointer reads. -/
def ea (m : Mem) (s : State) : Loc × State :=
  match m with
  | .dp d => (.b0 (s.direct d), s)
  | .dpx d => (.b0 (s.direct d + s.rdX), s)
  | .dpy d => (.b0 (s.direct d + s.rdY), s)
  | .idp d =>
    let r := s.read16 (.b0 (s.direct d))
    (.lin (mkAddr s.DBR r.1), r.2)
  | .idpx d =>
    let r := s.read16 (.b0 (s.direct d + s.rdX))
    (.lin (mkAddr s.DBR r.1), r.2)
  | .idpy d =>
    let r := s.read16 (.b0 (s.direct d))
    (.lin (indexed (mkAddr s.DBR r.1) s.rdY), r.2)
  | .idl d =>
    let r := s.read24 (.b0 (s.direct d))
    (.lin r.1, r.2)
  | .idly d =>
    let r := s.read24 (.b0 (s.direct d))
    (.lin (indexed r.1 s.rdY), r.2)
  | .abs a => (.lin (mkAddr s.DBR a), s)
  | .absx a => (.lin (indexed (mkAddr s.DBR a) s.rdX), s)
  | .absy a => (.lin (indexed (mkAddr s.DBR a) s.rdY), s)
  | .abl al => (.lin al, s)
  | .ablx al => (.lin (indexed al s.rdX), s)
  | .sr d => (.b0 (s.stackRel d), s)
  | .isry d =>
    let r := s.read16 (.b0 (s.stackRel d))
    (.lin (indexed (mkAddr s.DBR r.1) s.rdY), r.2)

/-- `RdLoc(EA(f), w/8)`. -/
def readMem (m : Mem) (w : Width) (s : State) : Word × State :=
  let l := s.ea m
  l.2.readLoc l.1 w

/-- `WrLoc(EA(f), w/8, v)`. -/
def writeMem (m : Mem) (w : Width) (v : Word) (s : State) : State :=
  let l := s.ea m
  l.2.writeLoc l.1 w v

/-- `Operand(f, w)`, R132: an immediate is used at exactly the width of the operation (R103). -/
def operand (o : Src) (w : Width) (s : State) : Word × State :=
  match o with
  | .imm v => (w.trunc v, s)
  | .mem m => s.readMem m w

/-- Read, change and write one location: the value read, and the state after all its reads and then all its writes (R190). -/
def modifyMem (m : Mem) (w : Width) (g : Word → Word) (s : State) : Word × State :=
  let l := s.ea m
  let r := l.2.readLoc l.1 w
  (r.1, r.2.writeLoc l.1 w (g r.1))

/-- `RMW(f, g)` of 42_alu.md section 7 at accumulator width. -/
def rmw (o : Rmw) (g : Word → Word) (s : State) : Word × State :=
  match o with
  | .acc => (s.rdA, s.wrA (g s.rdA))
  | .mem m => s.modifyMem m s.wm g

/-- The pointer of `(abs)`, R155. -/
def pointerInd (a : Word) (s : State) : Word × State := s.read16 (.b0 a)

/-- The pointer of `(abs,X)`, R156. -/
def pointerIndX (a : Word) (s : State) : Word × State := s.read16 (.inBank s.PBR (a + s.rdX))

/-- The pointer of `[abs]`, R157. -/
def pointerIndL (a : Word) (s : State) : Address × State := s.read24 (.b0 a)

end State

end Sys2Proof.Machine
end

