-- ==== Sys2Proof/Machine/Alu.lean ====
section
/-! DEFINITION. Arithmetic, logic, compare, bit test, increment and shift (42_alu.md R190 to R211). -/

namespace Sys2Proof.Machine

/-! ## Shared operations -/

namespace State

/-- ADC and SBC, R191 and R192: SBC adds the one's complement of the operand. -/
def addA (sub : Bool) (o : Src) (s : State) : State :=
  let r := s.operand o s.wm
  let b := if sub then s.wm.trunc (~~~r.1) else r.1
  let sum := addCore s.rdA b (s.flag .c) s.wm (s.flag .d) sub
  (((r.2.wrA sum.r).setFlag .c sum.carry).setFlag .v sum.overflow).setNZ sum.r s.wm

/-- AND, ORA and EOR, R193 to R195. -/
def logicA (f : Word → Word → Word) (o : Src) (s : State) : State :=
  let r := s.operand o s.wm
  let v := f s.rdA r.1
  (r.2.wrA v).setNZ v s.wm

/-- The compares, R196 to R198: `a` is the register's value at width `w`. -/
def compare (a : Word) (w : Width) (o : Src) (s : State) : State :=
  let r := s.operand o w
  (r.2.setFlag .c (decide (r.1.toNat ≤ a.toNat))).setNZ (a - r.1) w

/-- TSB and TRB, R200 and R201: `z` from the value before the write. -/
def testAndModify (g : Word → Word → Word) (m : Mem) (s : State) : State :=
  let a := s.rdA
  let r := s.modifyMem m s.wm (g a)
  r.2.setFlag .z (a &&& r.1 == 0)

/-- A read-modify-write that sets `n`, `z` from its result: INC and DEC, R202 and R203. -/
def modifyNZ (o : Rmw) (g : Word → Word) (s : State) : State :=
  let r := s.rmw o (fun v => s.wm.trunc (g v))
  r.2.setNZ (g r.1) s.wm

/-- A shift or rotate, R208 to R211: `g` gives the result, `out` the bit shifted into the carry. -/
def shift (o : Rmw) (g : Word → Word) (out : Word → Bool) (s : State) : State :=
  let r := s.rmw o (fun v => s.wm.trunc (g v))
  (r.2.setFlag .c (out r.1)).setNZ (g r.1) s.wm

end State

/-- `cin` as a value whose bit 0 is the carry. -/
def carryBit (c : Bool) : Word := if c then 1 else 0

/-! ## The instructions -/

/-- R191. -/
def execAdc (o : Src) (s : State) : Result := finish (.adc o) s (s.addA false o)

/-- R192. -/
def execSbc (o : Src) (s : State) : Result := finish (.sbc o) s (s.addA true o)

/-- R193. -/
def execAnd (o : Src) (s : State) : Result := finish (.and o) s (s.logicA (· &&& ·) o)

/-- R194. -/
def execOra (o : Src) (s : State) : Result := finish (.ora o) s (s.logicA (· ||| ·) o)

/-- R195. -/
def execEor (o : Src) (s : State) : Result := finish (.eor o) s (s.logicA (· ^^^ ·) o)

/-- R196. -/
def execCmp (o : Src) (s : State) : Result := finish (.cmp o) s (s.compare s.rdA s.wm o)

/-- R197. -/
def execCpx (o : Src) (s : State) : Result := finish (.cpx o) s (s.compare s.rdX s.wx o)

/-- R198. -/
def execCpy (o : Src) (s : State) : Result := finish (.cpy o) s (s.compare s.rdY s.wx o)

/-- R199: `n` and `v` are bits of the memory operand, and the immediate form leaves them. -/
def execBit (o : Src) (s : State) : Result :=
  let r := s.operand o s.wm
  let t := r.2.setFlag .z (s.rdA &&& r.1 == 0)
  finish (.bit o) s
    (match o with
    | .imm _ => t
    | .mem _ => (t.setFlag .n (s.wm.msb r.1)).setFlag .v (r.1.getLsbD (s.wm.bits - 2)))

/-- R200. -/
def execTsb (m : Mem) (s : State) : Result := finish (.tsb m) s (s.testAndModify (fun a b => b ||| a) m)

/-- R201. -/
def execTrb (m : Mem) (s : State) : Result := finish (.trb m) s (s.testAndModify (fun a b => b &&& ~~~a) m)

/-- R202. -/
def execInc (o : Rmw) (s : State) : Result := finish (.inc o) s (s.modifyNZ o (· + 1))

/-- R203. -/
def execDec (o : Rmw) (s : State) : Result := finish (.dec o) s (s.modifyNZ o (· - 1))

/-- R204. -/
def execInx (s : State) : Result := finish .inx s ((s.wrX (s.rdX + 1)).setNZ (s.rdX + 1) s.wx)

/-- R205. -/
def execIny (s : State) : Result := finish .iny s ((s.wrY (s.rdY + 1)).setNZ (s.rdY + 1) s.wx)

/-- R206. -/
def execDex (s : State) : Result := finish .dex s ((s.wrX (s.rdX - 1)).setNZ (s.rdX - 1) s.wx)

/-- R207. -/
def execDey (s : State) : Result := finish .dey s ((s.wrY (s.rdY - 1)).setNZ (s.rdY - 1) s.wx)

/-- R208. -/
def execAsl (o : Rmw) (s : State) : Result := finish (.asl o) s (s.shift o (· <<< 1) s.wm.msb)

/-- R209. -/
def execLsr (o : Rmw) (s : State) : Result := finish (.lsr o) s (s.shift o (· >>> 1) (·.getLsbD 0))

/-- R210. -/
def execRol (o : Rmw) (s : State) : Result :=
  finish (.rol o) s (s.shift o (fun v => v <<< 1 ||| carryBit (s.flag .c)) s.wm.msb)

/-- R211. -/
def execRor (o : Rmw) (s : State) : Result :=
  finish (.ror o) s (s.shift o (fun v => v >>> 1 ||| carryBit (s.flag .c) <<< (s.wm.bits - 1)) (·.getLsbD 0))

end Sys2Proof.Machine
end

