-- ==== Sys2Proof/Machine/ControlFlow.lean ====
section
/-! DEFINITION. Branches, jumps, subroutine calls and returns (44_control_flow.md R280 to R296). -/

namespace Sys2Proof.Machine

/-- A conditional branch, R281 to R288. -/
def branchIf (taken : Bool) (r : Byte) (s : State) : Result :=
  .next (s.setPC (if taken then s.rel8Target r else s.pcPlus 2))

/-- R281. -/
def execBcc (r : Byte) (s : State) : Result := branchIf (!s.flag .c) r s

/-- R282. -/
def execBcs (r : Byte) (s : State) : Result := branchIf (s.flag .c) r s

/-- R283. -/
def execBeq (r : Byte) (s : State) : Result := branchIf (s.flag .z) r s

/-- R284. -/
def execBne (r : Byte) (s : State) : Result := branchIf (!s.flag .z) r s

/-- R285. -/
def execBmi (r : Byte) (s : State) : Result := branchIf (s.flag .n) r s

/-- R286. -/
def execBpl (r : Byte) (s : State) : Result := branchIf (!s.flag .n) r s

/-- R287. -/
def execBvc (r : Byte) (s : State) : Result := branchIf (!s.flag .v) r s

/-- R288. -/
def execBvs (r : Byte) (s : State) : Result := branchIf (s.flag .v) r s

/-- R289. -/
def execBra (r : Byte) (s : State) : Result := .next (s.setPC (s.rel8Target r))

/-- R290. -/
def execBrl (r : Word) (s : State) : Result := .next (s.setPC (s.rel16Target r))

/-- R291. -/
def execJmp (t : JmpTarget) (s : State) : Result :=
  match t with
  | .abs a => .next (s.setPC a)
  | .ind a =>
    let p := s.pointerInd a
    .next (p.2.setPC p.1)
  | .indx a =>
    let p := s.pointerIndX a
    .next (p.2.setPC p.1)

/-- The jump to a 24-bit target. -/
def State.jumpLong (a : Address) (s : State) : State := (s.setPBR (bankOf a)).setPC (offsetOf a)

/-- R292. -/
def execJml (t : JmlTarget) (s : State) : Result :=
  match t with
  | .abl al => .next (s.jumpLong al)
  | .indl a =>
    let p := s.pointerIndL a
    .next (p.2.jumpLong p.1)

/-- R293: the return address is pushed before the pointer is read. -/
def execJsr (t : JsrTarget) (s : State) : Result :=
  let s1 := s.push16 (s.pcPlus 2)
  match t with
  | .abs a => .next (s1.setPC a)
  | .indx a =>
    let p := s1.pointerIndX a
    .next (p.2.setPC p.1)

/-- R294. -/
def execJsl (al : Address) (s : State) : Result := .next (((s.push8 s.PBR).push16 (s.pcPlus 3)).jumpLong al)

/-- R295. -/
def execRts (s : State) : Result :=
  let r := s.pull16
  .next (r.2.setPC (r.1 + 1))

/-- R296. -/
def execRtl (s : State) : Result :=
  let r := s.pull16
  let b := (r.2.setPC (r.1 + 1)).pull8
  .next (b.2.setPBR b.1)

end Sys2Proof.Machine
end

