-- ==== Sys2Proof/Machine/LoadStore.lean ====
section
/-! DEFINITION. LDA, LDX, LDY, STA, STX, STY, STZ (41_load_store.md R170 to R177). -/

namespace Sys2Proof.Machine

/-- R171. -/
def execLda (o : Src) (s : State) : Result :=
  let r := s.operand o s.wm
  finish (.lda o) s ((r.2.wrA r.1).setNZ r.1 s.wm)

/-- R172. -/
def execLdx (o : Src) (s : State) : Result :=
  let r := s.operand o s.wx
  finish (.ldx o) s ((r.2.wrX r.1).setNZ r.1 s.wx)

/-- R173. -/
def execLdy (o : Src) (s : State) : Result :=
  let r := s.operand o s.wx
  finish (.ldy o) s ((r.2.wrY r.1).setNZ r.1 s.wx)

/-- R174. -/
def execSta (m : Mem) (s : State) : Result := finish (.sta m) s (s.writeMem m s.wm s.rdA)

/-- R175. -/
def execStx (m : Mem) (s : State) : Result := finish (.stx m) s (s.writeMem m s.wx s.rdX)

/-- R176. -/
def execSty (m : Mem) (s : State) : Result := finish (.sty m) s (s.writeMem m s.wx s.rdY)

/-- R177: the width is the accumulator's. -/
def execStz (m : Mem) (s : State) : Result := finish (.stz m) s (s.writeMem m s.wm 0)

end Sys2Proof.Machine
end

