-- ==== Sys2Proof/Machine/StatusSystem.lean ====
section
/-! DEFINITION. Status-flag, mode-switch and system instructions (45_status_system.md R300 to R318). -/

namespace Sys2Proof.Machine

/-- R300. -/
def execClc (s : State) : Result := finish .clc s (s.setFlag .c false)

/-- R301. -/
def execSec (s : State) : Result := finish .sec s (s.setFlag .c true)

/-- R302. -/
def execCli (s : State) : Result := finish .cli s (s.setFlag .i false)

/-- R303. -/
def execSei (s : State) : Result := finish .sei s (s.setFlag .i true)

/-- R304. -/
def execCld (s : State) : Result := finish .cld s (s.setFlag .d false)

/-- R305. -/
def execSed (s : State) : Result := finish .sed s (s.setFlag .d true)

/-- R306. -/
def execClv (s : State) : Result := finish .clv s (s.setFlag .v false)

/-- R307. -/
def execRep (v : Byte) (s : State) : Result := finish (.rep v) s (s.writeP (s.P &&& ~~~v))

/-- R308. -/
def execSep (v : Byte) (s : State) : Result := finish (.sep v) s (s.writeP (s.P ||| v))

/-- `e <- b`, with the bits that entering emulation mode sets (R34, R309), and `Normalize()`. -/
def State.setE (b : Bool) (s : State) : State :=
  let s1 := { s with e := b }
  (if b then (s1.setFlag .m true).setFlag .x true else s1).normalize

/-- R309. -/
def execXce (s : State) : Result := finish .xce s ((s.setFlag .c s.e).setE (s.flag .c))

/-- R310. -/
def execNop (s : State) : Result := finish .nop s s

/-- R311: a no-op of its size, with the event the parameter `CHAR_OUT` may attach to it. -/
def execWdm (sig : Byte) (s : State) : Result :=
  finish (.wdm sig) s
    (match s.charOut with
    | .none => s
    | .wdmOperand => s.charOutEvent sig
    | .wdmAccLow => s.charOutEvent (loByte s.A))

/-- R313: the signature byte is used by nothing. -/
def execBrk (_sig : Byte) (s : State) : Result := .next (s.softInt .brk)

/-- R314. -/
def execCop (_sig : Byte) (s : State) : Result := .next (s.softInt .cop)

/-- R315. -/
def execRti (s : State) : Result := .next s.returnFromInt

/-- R317. -/
def execWai (s : State) : Result := finish .wai s (s.setRun .waiting)

/-- R318. -/
def execStp (s : State) : Result := finish .stp s (s.setRun .stopped)

end Sys2Proof.Machine
end

