-- ==== Sys2Proof/Machine/Transfer.lean ====
section
/-! DEFINITION. Register transfers, pushes and pulls, block moves (43_transfer_stack.md R230 to R263). -/

namespace Sys2Proof.Machine

/-! ## Transfers -/

/-- R231: all 16 bits of `A` when the index width is 16. -/
def execTax (s : State) : Result := finish .tax s ((s.wrX s.A).setNZ s.A s.wx)

/-- R232. -/
def execTay (s : State) : Result := finish .tay s ((s.wrY s.A).setNZ s.A s.wx)

/-- R233. -/
def execTxa (s : State) : Result := finish .txa s ((s.wrA s.X).setNZ s.X s.wm)

/-- R234. -/
def execTya (s : State) : Result := finish .tya s ((s.wrA s.Y).setNZ s.Y s.wm)

/-- R235. -/
def execTxy (s : State) : Result := finish .txy s ((s.wrY s.rdX).setNZ s.rdX s.wx)

/-- R236. -/
def execTyx (s : State) : Result := finish .tyx s ((s.wrX s.rdY).setNZ s.rdY s.wx)

/-- R237. -/
def execTsx (s : State) : Result := finish .tsx s ((s.wrX s.SP).setNZ s.SP s.wx)

/-- R238: no flag. -/
def execTxs (s : State) : Result := finish .txs s (s.setSP s.X)

/-- R239. -/
def execTcd (s : State) : Result := finish .tcd s ((s.setDR s.A).setNZ s.A .w16)

/-- R240. -/
def execTdc (s : State) : Result := finish .tdc s ((s.setA s.DR).setNZ s.DR .w16)

/-- R241: no flag. -/
def execTcs (s : State) : Result := finish .tcs s (s.setSP s.A)

/-- R242. -/
def execTsc (s : State) : Result := finish .tsc s ((s.setA s.SP).setNZ s.SP .w16)

/-- R243: flags from the new low byte, always 8 bits. -/
def execXba (s : State) : Result :=
  let v := mkWord (loByte s.A) (hiByte s.A)
  finish .xba s ((s.setA v).setNZ v .w8)

/-! ## Pushes -/

/-- R245. -/
def execPha (s : State) : Result := finish .pha s (s.push s.wm s.A)

/-- R246. -/
def execPhx (s : State) : Result := finish .phx s (s.push s.wx s.X)

/-- R247. -/
def execPhy (s : State) : Result := finish .phy s (s.push s.wx s.Y)

/-- R248. -/
def execPhp (s : State) : Result := finish .php s (s.push8 s.P)

/-- R249. -/
def execPhb (s : State) : Result := finish .phb s (s.push8 s.DBR)

/-- R250. -/
def execPhd (s : State) : Result := finish .phd s (s.push16 s.DR)

/-- R251. -/
def execPhk (s : State) : Result := finish .phk s (s.push8 s.PBR)

/-- R258. -/
def execPea (v : Word) (s : State) : Result := finish (.pea v) s (s.push16 v)

/-- R259: the pointer is pushed and not dereferenced. -/
def execPei (d : Byte) (s : State) : Result :=
  let r := s.read16 (.b0 (s.direct d))
  finish (.pei d) s (r.2.push16 r.1)

/-- R260. -/
def execPer (r : Word) (s : State) : Result := finish (.per r) s (s.push16 (s.rel16Target r))

/-! ## Pulls -/

/-- R252. -/
def execPla (s : State) : Result :=
  let r := s.pull s.wm
  finish .pla s ((r.2.wrA r.1).setNZ r.1 s.wm)

/-- R253. -/
def execPlx (s : State) : Result :=
  let r := s.pull s.wx
  finish .plx s ((r.2.wrX r.1).setNZ r.1 s.wx)

/-- R254. -/
def execPly (s : State) : Result :=
  let r := s.pull s.wx
  finish .ply s ((r.2.wrY r.1).setNZ r.1 s.wx)

/-- R255. -/
def execPlp (s : State) : Result :=
  let r := s.pull8
  finish .plp s (r.2.writeP r.1)

/-- R256. -/
def execPlb (s : State) : Result :=
  let r := s.pull8
  finish .plb s ((r.2.setDBR r.1).setNZ (zext16 r.1) .w8)

/-- R257. -/
def execPld (s : State) : Result :=
  let r := s.pull16
  finish .pld s ((r.2.setDR r.1).setNZ r.1 .w16)

/-! ## Block moves -/

namespace State

/-- One pass of a block move, R261 to R263: `step` is added to both indices at index width. -/
def blockMove (dst src : Byte) (step : Word) (s : State) : State :=
  let s0 := s.setDBR dst
  let r := s0.readByte (.lin (mkAddr src s.X))
  let s1 := r.2.writeLoc (.lin (mkAddr dst s.Y)) .w8 (zext16 r.1)
  ((s1.wrX (s.rdX + step)).wrY (s.rdY + step)).setA (s.A - 1)

end State

/-- The end of a pass: `PC` stays at the instruction until `A` has gone to 0xFFFF. -/
def finishPass (i : Instr) (s t : State) : Result := if t.A = 0xFFFF then finish i s t else .next t

/-- R262. -/
def execMvn (dst src : Byte) (s : State) : Result := finishPass (.mvn dst src) s (s.blockMove dst src 1)

/-- R263. -/
def execMvp (dst src : Byte) (s : State) : Result := finishPass (.mvp dst src) s (s.blockMove dst src (-1))

end Sys2Proof.Machine
end

