-- ==== Sys2Proof/WellFormed.lean ====
section
/-! DEFINITION. Which terms of `Instr` are instructions: those in a form the instruction's rule admits ("Operands" of files 41
to 45), with an immediate that fits the width in force (30_encoding.md R103). -/

namespace Sys2Proof

/-- The forms of R171, R191 to R196. -/
def Format.accumulatorRead : List Format :=
  [.immm, .dp, .dpx, .abs, .absx, .absy, .abl, .ablx, .idp, .idpx, .idpy, .idl, .idly, .sr, .isry]

/-- The formats each instruction has ("Operands" of R171 to R318). -/
def Instr.forms : Instr → List Format
  | .lda _ | .adc _ | .sbc _ | .and _ | .ora _ | .eor _ | .cmp _ => Format.accumulatorRead
  | .ldx _ => [.immx, .dp, .dpy, .abs, .absy]
  | .ldy _ => [.immx, .dp, .dpx, .abs, .absx]
  | .sta _ => [.dp, .dpx, .abs, .absx, .absy, .abl, .ablx, .idp, .idpx, .idpy, .idl, .idly, .sr, .isry]
  | .stx _ => [.dp, .dpy, .abs]
  | .sty _ => [.dp, .dpx, .abs]
  | .stz _ => [.dp, .dpx, .abs, .absx]
  | .cpx _ | .cpy _ => [.immx, .dp, .abs]
  | .bit _ => [.immm, .dp, .dpx, .abs, .absx]
  | .tsb _ | .trb _ => [.dp, .abs]
  | .inc _ | .dec _ | .asl _ | .lsr _ | .rol _ | .ror _ => [.acc, .dp, .dpx, .abs, .absx]
  | .jmp _ => [.abs, .ind, .indx]
  | .jml _ => [.abl, .indl]
  | .jsr _ => [.abs, .indx]
  | .jsl _ => [.abl]
  | .pea _ => [.imm16]
  | .pei _ => [.idp]
  | .per _ | .brl _ => [.rel16]
  | .mvn _ _ | .mvp _ _ => [.blk]
  | .bcc _ | .bcs _ | .beq _ | .bne _ | .bmi _ | .bpl _ | .bvc _ | .bvs _ | .bra _ => [.rel8]
  | .rep _ | .sep _ => [.imm8]
  | .wdm _ | .brk _ | .cop _ => [.sig]
  | .inx | .iny | .dex | .dey => [.imp]
  | .tax | .tay | .txa | .tya | .txy | .tyx | .tsx | .txs | .tcd | .tdc | .tcs | .tsc | .xba => [.imp]
  | .pha | .phx | .phy | .php | .phb | .phd | .phk | .pla | .plx | .ply | .plp | .plb | .pld => [.imp]
  | .rts | .rtl | .rti | .wai | .stp | .nop | .xce => [.imp]
  | .clc | .sec | .cli | .sei | .cld | .sed | .clv => [.imp]

/-- The immediate of a read operand. -/
def Src.immediate : Src → Option Word
  | .imm v => some v
  | .mem _ => none

/-- The immediate of a width-dependent format, if the instruction has one: only a format whose length depends on the widths has. -/
def Instr.immediate : Instr → Option Word
  | .lda o | .adc o | .sbc o | .and o | .ora o | .eor o | .cmp o | .bit o => o.immediate
  | .ldx o | .ldy o | .cpx o | .cpy o => o.immediate
  | .sta _ | .stx _ | .sty _ | .stz _ | .tsb _ | .trb _ => none
  | .inc _ | .dec _ | .asl _ | .lsr _ | .rol _ | .ror _ => none
  | .inx | .iny | .dex | .dey => none
  | .tax | .tay | .txa | .tya | .txy | .tyx | .tsx | .txs | .tcd | .tdc | .tcs | .tsc | .xba => none
  | .pha | .phx | .phy | .php | .phb | .phd | .phk | .pla | .plx | .ply | .plp | .plb | .pld => none
  | .pea _ | .pei _ | .per _ | .mvn _ _ | .mvp _ _ => none
  | .bcc _ | .bcs _ | .beq _ | .bne _ | .bmi _ | .bpl _ | .bvc _ | .bvs _ | .bra _ | .brl _ => none
  | .jmp _ | .jml _ | .jsr _ | .jsl _ | .rts | .rtl | .rti | .wai | .stp | .nop | .xce => none
  | .clc | .sec | .cli | .sei | .cld | .sed | .clv => none
  | .rep _ | .sep _ | .wdm _ | .brk _ | .cop _ => none

/-- The form is one the instruction has. -/
def Instr.formOk (i : Instr) : Bool := i.forms.contains i.format

/-- The immediate is `WM` or `WX` bits wide (R103): its length is what the width in force gives it. -/
def Instr.immediateOk (m8 x8 : Bool) (i : Instr) : Bool :=
  match i.immediate with
  | none => true
  | some v => i.len m8 x8 == 3 || hiByte v == 0

/-- A well-formed instruction under the widths `m8`, `x8`. -/
def Instr.wf (m8 x8 : Bool) (i : Instr) : Bool := i.formOk && i.immediateOk m8 x8

end Sys2Proof
end

