-- ==== Sys2Proof/Decode.lean ====
section
/-! DEFINITION. The decoder (30_encoding.md R100 to R108), written from the opcode map R104, and after it the encoder, written
from the map by mnemonic R105: that the two agree is a statement about both tables. -/

namespace Sys2Proof

/-- What a row of the opcode map is applied to: the width predicates at the start of the step and the operand bytes
`b[1]`, `b[2]`, `b[3]` (R101, R130). -/
structure Operands where
  m8 : Bool
  x8 : Bool
  b1 : Byte
  b2 : Byte
  b3 : Byte
  deriving DecidableEq, Repr

/-- `{b2, b1}`. -/
def Operands.word (o : Operands) : Word := mkWord o.b2 o.b1

/-- `{b3, b2, b1}`. -/
def Operands.long (o : Operands) : Address := mkLong o.b3 o.b2 o.b1

/-- The immediate of format `IMMM` (R141). -/
def Operands.immM (o : Operands) : Word := if o.m8 then zext16 o.b1 else o.word

/-- The immediate of format `IMMX` (R141). -/
def Operands.immX (o : Operands) : Word := if o.x8 then zext16 o.b1 else o.word

/-- The operands of an instruction none of whose operand bytes is known yet. -/
def Operands.none (m8 x8 : Bool) : Operands := { m8, x8, b1 := 0, b2 := 0, b3 := 0 }

/-- Row 0x of R104. -/
def optabRow0 : List (Operands → Instr) :=
  [fun o => .brk o.b1,
   fun o => .ora (.mem (.idpx o.b1)),
   fun o => .cop o.b1,
   fun o => .ora (.mem (.sr o.b1)),
   fun o => .tsb (.dp o.b1),
   fun o => .ora (.mem (.dp o.b1)),
   fun o => .asl (.mem (.dp o.b1)),
   fun o => .ora (.mem (.idl o.b1)),
   fun _ => .php,
   fun o => .ora (.imm o.immM),
   fun _ => .asl .acc,
   fun _ => .phd,
   fun o => .tsb (.abs o.word),
   fun o => .ora (.mem (.abs o.word)),
   fun o => .asl (.mem (.abs o.word)),
   fun o => .ora (.mem (.abl o.long))]

/-- Row 1x of R104. -/
def optabRow1 : List (Operands → Instr) :=
  [fun o => .bpl o.b1,
   fun o => .ora (.mem (.idpy o.b1)),
   fun o => .ora (.mem (.idp o.b1)),
   fun o => .ora (.mem (.isry o.b1)),
   fun o => .trb (.dp o.b1),
   fun o => .ora (.mem (.dpx o.b1)),
   fun o => .asl (.mem (.dpx o.b1)),
   fun o => .ora (.mem (.idly o.b1)),
   fun _ => .clc,
   fun o => .ora (.mem (.absy o.word)),
   fun _ => .inc .acc,
   fun _ => .tcs,
   fun o => .trb (.abs o.word),
   fun o => .ora (.mem (.absx o.word)),
   fun o => .asl (.mem (.absx o.word)),
   fun o => .ora (.mem (.ablx o.long))]

/-- Row 2x of R104. -/
def optabRow2 : List (Operands → Instr) :=
  [fun o => .jsr (.abs o.word),
   fun o => .and (.mem (.idpx o.b1)),
   fun o => .jsl o.long,
   fun o => .and (.mem (.sr o.b1)),
   fun o => .bit (.mem (.dp o.b1)),
   fun o => .and (.mem (.dp o.b1)),
   fun o => .rol (.mem (.dp o.b1)),
   fun o => .and (.mem (.idl o.b1)),
   fun _ => .plp,
   fun o => .and (.imm o.immM),
   fun _ => .rol .acc,
   fun _ => .pld,
   fun o => .bit (.mem (.abs o.word)),
   fun o => .and (.mem (.abs o.word)),
   fun o => .rol (.mem (.abs o.word)),
   fun o => .and (.mem (.abl o.long))]

/-- Row 3x of R104. -/
def optabRow3 : List (Operands → Instr) :=
  [fun o => .bmi o.b1,
   fun o => .and (.mem (.idpy o.b1)),
   fun o => .and (.mem (.idp o.b1)),
   fun o => .and (.mem (.isry o.b1)),
   fun o => .bit (.mem (.dpx o.b1)),
   fun o => .and (.mem (.dpx o.b1)),
   fun o => .rol (.mem (.dpx o.b1)),
   fun o => .and (.mem (.idly o.b1)),
   fun _ => .sec,
   fun o => .and (.mem (.absy o.word)),
   fun _ => .dec .acc,
   fun _ => .tsc,
   fun o => .bit (.mem (.absx o.word)),
   fun o => .and (.mem (.absx o.word)),
   fun o => .rol (.mem (.absx o.word)),
   fun o => .and (.mem (.ablx o.long))]

/-- Row 4x of R104. -/
def optabRow4 : List (Operands → Instr) :=
  [fun _ => .rti,
   fun o => .eor (.mem (.idpx o.b1)),
   fun o => .wdm o.b1,
   fun o => .eor (.mem (.sr o.b1)),
   fun o => .mvp o.b1 o.b2,
   fun o => .eor (.mem (.dp o.b1)),
   fun o => .lsr (.mem (.dp o.b1)),
   fun o => .eor (.mem (.idl o.b1)),
   fun _ => .pha,
   fun o => .eor (.imm o.immM),
   fun _ => .lsr .acc,
   fun _ => .phk,
   fun o => .jmp (.abs o.word),
   fun o => .eor (.mem (.abs o.word)),
   fun o => .lsr (.mem (.abs o.word)),
   fun o => .eor (.mem (.abl o.long))]

/-- Row 5x of R104. -/
def optabRow5 : List (Operands → Instr) :=
  [fun o => .bvc o.b1,
   fun o => .eor (.mem (.idpy o.b1)),
   fun o => .eor (.mem (.idp o.b1)),
   fun o => .eor (.mem (.isry o.b1)),
   fun o => .mvn o.b1 o.b2,
   fun o => .eor (.mem (.dpx o.b1)),
   fun o => .lsr (.mem (.dpx o.b1)),
   fun o => .eor (.mem (.idly o.b1)),
   fun _ => .cli,
   fun o => .eor (.mem (.absy o.word)),
   fun _ => .phy,
   fun _ => .tcd,
   fun o => .jml (.abl o.long),
   fun o => .eor (.mem (.absx o.word)),
   fun o => .lsr (.mem (.absx o.word)),
   fun o => .eor (.mem (.ablx o.long))]

/-- Row 6x of R104. -/
def optabRow6 : List (Operands → Instr) :=
  [fun _ => .rts,
   fun o => .adc (.mem (.idpx o.b1)),
   fun o => .per o.word,
   fun o => .adc (.mem (.sr o.b1)),
   fun o => .stz (.dp o.b1),
   fun o => .adc (.mem (.dp o.b1)),
   fun o => .ror (.mem (.dp o.b1)),
   fun o => .adc (.mem (.idl o.b1)),
   fun _ => .pla,
   fun o => .adc (.imm o.immM),
   fun _ => .ror .acc,
   fun _ => .rtl,
   fun o => .jmp (.ind o.word),
   fun o => .adc (.mem (.abs o.word)),
   fun o => .ror (.mem (.abs o.word)),
   fun o => .adc (.mem (.abl o.long))]

/-- Row 7x of R104. -/
def optabRow7 : List (Operands → Instr) :=
  [fun o => .bvs o.b1,
   fun o => .adc (.mem (.idpy o.b1)),
   fun o => .adc (.mem (.idp o.b1)),
   fun o => .adc (.mem (.isry o.b1)),
   fun o => .stz (.dpx o.b1),
   fun o => .adc (.mem (.dpx o.b1)),
   fun o => .ror (.mem (.dpx o.b1)),
   fun o => .adc (.mem (.idly o.b1)),
   fun _ => .sei,
   fun o => .adc (.mem (.absy o.word)),
   fun _ => .ply,
   fun _ => .tdc,
   fun o => .jmp (.indx o.word),
   fun o => .adc (.mem (.absx o.word)),
   fun o => .ror (.mem (.absx o.word)),
   fun o => .adc (.mem (.ablx o.long))]

/-- Row 8x of R104. -/
def optabRow8 : List (Operands → Instr) :=
  [fun o => .bra o.b1,
   fun o => .sta (.idpx o.b1),
   fun o => .brl o.word,
   fun o => .sta (.sr o.b1),
   fun o => .sty (.dp o.b1),
   fun o => .sta (.dp o.b1),
   fun o => .stx (.dp o.b1),
   fun o => .sta (.idl o.b1),
   fun _ => .dey,
   fun o => .bit (.imm o.immM),
   fun _ => .txa,
   fun _ => .phb,
   fun o => .sty (.abs o.word),
   fun o => .sta (.abs o.word),
   fun o => .stx (.abs o.word),
   fun o => .sta (.abl o.long)]

/-- Row 9x of R104. -/
def optabRow9 : List (Operands → Instr) :=
  [fun o => .bcc o.b1,
   fun o => .sta (.idpy o.b1),
   fun o => .sta (.idp o.b1),
   fun o => .sta (.isry o.b1),
   fun o => .sty (.dpx o.b1),
   fun o => .sta (.dpx o.b1),
   fun o => .stx (.dpy o.b1),
   fun o => .sta (.idly o.b1),
   fun _ => .tya,
   fun o => .sta (.absy o.word),
   fun _ => .txs,
   fun _ => .txy,
   fun o => .stz (.abs o.word),
   fun o => .sta (.absx o.word),
   fun o => .stz (.absx o.word),
   fun o => .sta (.ablx o.long)]

/-- Row Ax of R104. -/
def optabRowA : List (Operands → Instr) :=
  [fun o => .ldy (.imm o.immX),
   fun o => .lda (.mem (.idpx o.b1)),
   fun o => .ldx (.imm o.immX),
   fun o => .lda (.mem (.sr o.b1)),
   fun o => .ldy (.mem (.dp o.b1)),
   fun o => .lda (.mem (.dp o.b1)),
   fun o => .ldx (.mem (.dp o.b1)),
   fun o => .lda (.mem (.idl o.b1)),
   fun _ => .tay,
   fun o => .lda (.imm o.immM),
   fun _ => .tax,
   fun _ => .plb,
   fun o => .ldy (.mem (.abs o.word)),
   fun o => .lda (.mem (.abs o.word)),
   fun o => .ldx (.mem (.abs o.word)),
   fun o => .lda (.mem (.abl o.long))]

/-- Row Bx of R104. -/
def optabRowB : List (Operands → Instr) :=
  [fun o => .bcs o.b1,
   fun o => .lda (.mem (.idpy o.b1)),
   fun o => .lda (.mem (.idp o.b1)),
   fun o => .lda (.mem (.isry o.b1)),
   fun o => .ldy (.mem (.dpx o.b1)),
   fun o => .lda (.mem (.dpx o.b1)),
   fun o => .ldx (.mem (.dpy o.b1)),
   fun o => .lda (.mem (.idly o.b1)),
   fun _ => .clv,
   fun o => .lda (.mem (.absy o.word)),
   fun _ => .tsx,
   fun _ => .tyx,
   fun o => .ldy (.mem (.absx o.word)),
   fun o => .lda (.mem (.absx o.word)),
   fun o => .ldx (.mem (.absy o.word)),
   fun o => .lda (.mem (.ablx o.long))]

/-- Row Cx of R104. -/
def optabRowC : List (Operands → Instr) :=
  [fun o => .cpy (.imm o.immX),
   fun o => .cmp (.mem (.idpx o.b1)),
   fun o => .rep o.b1,
   fun o => .cmp (.mem (.sr o.b1)),
   fun o => .cpy (.mem (.dp o.b1)),
   fun o => .cmp (.mem (.dp o.b1)),
   fun o => .dec (.mem (.dp o.b1)),
   fun o => .cmp (.mem (.idl o.b1)),
   fun _ => .iny,
   fun o => .cmp (.imm o.immM),
   fun _ => .dex,
   fun _ => .wai,
   fun o => .cpy (.mem (.abs o.word)),
   fun o => .cmp (.mem (.abs o.word)),
   fun o => .dec (.mem (.abs o.word)),
   fun o => .cmp (.mem (.abl o.long))]

/-- Row Dx of R104. -/
def optabRowD : List (Operands → Instr) :=
  [fun o => .bne o.b1,
   fun o => .cmp (.mem (.idpy o.b1)),
   fun o => .cmp (.mem (.idp o.b1)),
   fun o => .cmp (.mem (.isry o.b1)),
   fun o => .pei o.b1,
   fun o => .cmp (.mem (.dpx o.b1)),
   fun o => .dec (.mem (.dpx o.b1)),
   fun o => .cmp (.mem (.idly o.b1)),
   fun _ => .cld,
   fun o => .cmp (.mem (.absy o.word)),
   fun _ => .phx,
   fun _ => .stp,
   fun o => .jml (.indl o.word),
   fun o => .cmp (.mem (.absx o.word)),
   fun o => .dec (.mem (.absx o.word)),
   fun o => .cmp (.mem (.ablx o.long))]

/-- Row Ex of R104. -/
def optabRowE : List (Operands → Instr) :=
  [fun o => .cpx (.imm o.immX),
   fun o => .sbc (.mem (.idpx o.b1)),
   fun o => .sep o.b1,
   fun o => .sbc (.mem (.sr o.b1)),
   fun o => .cpx (.mem (.dp o.b1)),
   fun o => .sbc (.mem (.dp o.b1)),
   fun o => .inc (.mem (.dp o.b1)),
   fun o => .sbc (.mem (.idl o.b1)),
   fun _ => .inx,
   fun o => .sbc (.imm o.immM),
   fun _ => .nop,
   fun _ => .xba,
   fun o => .cpx (.mem (.abs o.word)),
   fun o => .sbc (.mem (.abs o.word)),
   fun o => .inc (.mem (.abs o.word)),
   fun o => .sbc (.mem (.abl o.long))]

/-- Row Fx of R104. -/
def optabRowF : List (Operands → Instr) :=
  [fun o => .beq o.b1,
   fun o => .sbc (.mem (.idpy o.b1)),
   fun o => .sbc (.mem (.idp o.b1)),
   fun o => .sbc (.mem (.isry o.b1)),
   fun o => .pea o.word,
   fun o => .sbc (.mem (.dpx o.b1)),
   fun o => .inc (.mem (.dpx o.b1)),
   fun o => .sbc (.mem (.idly o.b1)),
   fun _ => .sed,
   fun o => .sbc (.mem (.absy o.word)),
   fun _ => .plx,
   fun _ => .xce,
   fun o => .jsr (.indx o.word),
   fun o => .sbc (.mem (.absx o.word)),
   fun o => .inc (.mem (.absx o.word)),
   fun o => .sbc (.mem (.ablx o.long))]

/-- The opcode map R104, `OPTAB` of R130: opcode `op` is entry `op`. -/
def optab : List (Operands → Instr) :=
  optabRow0 ++ optabRow1 ++ optabRow2 ++ optabRow3 ++ optabRow4 ++ optabRow5 ++ optabRow6 ++ optabRow7 ++
  optabRow8 ++ optabRow9 ++ optabRowA ++ optabRowB ++ optabRowC ++ optabRowD ++ optabRowE ++ optabRowF

/-- The instruction of an opcode byte with its operands. `optab` has 256 entries (`optab_length`), so the default is never taken. -/
def decodeOp (op : Byte) (o : Operands) : Instr := (optab.getD op.toNat (fun _ => .nop)) o

/-- The length the opcode byte alone gives under the widths (R107). -/
def opLen (op : Byte) (m8 x8 : Bool) : Nat := (decodeOp op (.none m8 x8)).len m8 x8

/-- The instruction of an opcode byte and the operand bytes that follow it; a byte past the list is not used by the instruction. -/
def decodeBytes (m8 x8 : Bool) (op : Byte) (bs : List Byte) : Instr :=
  decodeOp op { m8, x8, b1 := bs.getD 0 0, b2 := bs.getD 1 0, b3 := bs.getD 2 0 }

/-- Why a byte list is no instruction: every opcode byte is one (R106), so it can only be too short. -/
inductive DecodeError
  /-- There is no opcode byte. -/
  | noOpcode
  /-- Fewer operand bytes follow than the opcode's length asks for. -/
  | truncated (opcode : Byte)
  deriving DecidableEq, Repr

/-- The first instruction of a byte list under the widths, and the rest of the list. -/
def decode (m8 x8 : Bool) : List Byte → Except DecodeError (Instr × List Byte)
  | [] => .error .noOpcode
  | op :: rest =>
    let n := opLen op m8 x8 - 1
    if rest.length < n then .error (.truncated op)
    else .ok (decodeBytes m8 x8 op (rest.take n), rest.drop n)

/-- The descriptor of R100, `size` by R102; `baseCycles` is carried along and read by no rule (R108, R372). -/
structure Descriptor where
  opcode : Byte
  addressingMode : Format
  size : Nat
  baseCycles : Nat
  deriving DecidableEq, Repr

/-- `decodeInstruction`, R100 and R108, with both width predicates as C1 of 90_conflicts.md decides. -/
def decodeInstruction (op : Byte) (m8 x8 : Bool) : Descriptor :=
  { opcode := op
    addressingMode := (decodeOp op (.none m8 x8)).format
    size := opLen op m8 x8
    baseCycles := Config.baseCycles op }

/-! ## The encoder -/

/-- The opcodes of each instruction, R105. -/
def Instr.opcodes : Instr → List (Format × Byte)
  | .adc _ =>
    [(.idpx, 0x61), (.sr, 0x63), (.dp, 0x65), (.idl, 0x67), (.immm, 0x69), (.abs, 0x6D), (.abl, 0x6F), (.idpy, 0x71),
     (.idp, 0x72), (.isry, 0x73), (.dpx, 0x75), (.idly, 0x77), (.absy, 0x79), (.absx, 0x7D), (.ablx, 0x7F)]
  | .sbc _ =>
    [(.idpx, 0xE1), (.sr, 0xE3), (.dp, 0xE5), (.idl, 0xE7), (.immm, 0xE9), (.abs, 0xED), (.abl, 0xEF), (.idpy, 0xF1),
     (.idp, 0xF2), (.isry, 0xF3), (.dpx, 0xF5), (.idly, 0xF7), (.absy, 0xF9), (.absx, 0xFD), (.ablx, 0xFF)]
  | .and _ =>
    [(.idpx, 0x21), (.sr, 0x23), (.dp, 0x25), (.idl, 0x27), (.immm, 0x29), (.abs, 0x2D), (.abl, 0x2F), (.idpy, 0x31),
     (.idp, 0x32), (.isry, 0x33), (.dpx, 0x35), (.idly, 0x37), (.absy, 0x39), (.absx, 0x3D), (.ablx, 0x3F)]
  | .ora _ =>
    [(.idpx, 0x01), (.sr, 0x03), (.dp, 0x05), (.idl, 0x07), (.immm, 0x09), (.abs, 0x0D), (.abl, 0x0F), (.idpy, 0x11),
     (.idp, 0x12), (.isry, 0x13), (.dpx, 0x15), (.idly, 0x17), (.absy, 0x19), (.absx, 0x1D), (.ablx, 0x1F)]
  | .eor _ =>
    [(.idpx, 0x41), (.sr, 0x43), (.dp, 0x45), (.idl, 0x47), (.immm, 0x49), (.abs, 0x4D), (.abl, 0x4F), (.idpy, 0x51),
     (.idp, 0x52), (.isry, 0x53), (.dpx, 0x55), (.idly, 0x57), (.absy, 0x59), (.absx, 0x5D), (.ablx, 0x5F)]
  | .cmp _ =>
    [(.idpx, 0xC1), (.sr, 0xC3), (.dp, 0xC5), (.idl, 0xC7), (.immm, 0xC9), (.abs, 0xCD), (.abl, 0xCF), (.idpy, 0xD1),
     (.idp, 0xD2), (.isry, 0xD3), (.dpx, 0xD5), (.idly, 0xD7), (.absy, 0xD9), (.absx, 0xDD), (.ablx, 0xDF)]
  | .cpx _ => [(.immx, 0xE0), (.dp, 0xE4), (.abs, 0xEC)]
  | .cpy _ => [(.immx, 0xC0), (.dp, 0xC4), (.abs, 0xCC)]
  | .bit _ => [(.dp, 0x24), (.abs, 0x2C), (.dpx, 0x34), (.absx, 0x3C), (.immm, 0x89)]
  | .tsb _ => [(.dp, 0x04), (.abs, 0x0C)]
  | .trb _ => [(.dp, 0x14), (.abs, 0x1C)]
  | .inc _ => [(.acc, 0x1A), (.dp, 0xE6), (.abs, 0xEE), (.dpx, 0xF6), (.absx, 0xFE)]
  | .dec _ => [(.acc, 0x3A), (.dp, 0xC6), (.abs, 0xCE), (.dpx, 0xD6), (.absx, 0xDE)]
  | .inx => [(.imp, 0xE8)]
  | .iny => [(.imp, 0xC8)]
  | .dex => [(.imp, 0xCA)]
  | .dey => [(.imp, 0x88)]
  | .asl _ => [(.dp, 0x06), (.acc, 0x0A), (.abs, 0x0E), (.dpx, 0x16), (.absx, 0x1E)]
  | .lsr _ => [(.dp, 0x46), (.acc, 0x4A), (.abs, 0x4E), (.dpx, 0x56), (.absx, 0x5E)]
  | .rol _ => [(.dp, 0x26), (.acc, 0x2A), (.abs, 0x2E), (.dpx, 0x36), (.absx, 0x3E)]
  | .ror _ => [(.dp, 0x66), (.acc, 0x6A), (.abs, 0x6E), (.dpx, 0x76), (.absx, 0x7E)]
  | .lda _ =>
    [(.idpx, 0xA1), (.sr, 0xA3), (.dp, 0xA5), (.idl, 0xA7), (.immm, 0xA9), (.abs, 0xAD), (.abl, 0xAF), (.idpy, 0xB1),
     (.idp, 0xB2), (.isry, 0xB3), (.dpx, 0xB5), (.idly, 0xB7), (.absy, 0xB9), (.absx, 0xBD), (.ablx, 0xBF)]
  | .ldx _ => [(.immx, 0xA2), (.dp, 0xA6), (.abs, 0xAE), (.dpy, 0xB6), (.absy, 0xBE)]
  | .ldy _ => [(.immx, 0xA0), (.dp, 0xA4), (.abs, 0xAC), (.dpx, 0xB4), (.absx, 0xBC)]
  | .sta _ =>
    [(.idpx, 0x81), (.sr, 0x83), (.dp, 0x85), (.idl, 0x87), (.abs, 0x8D), (.abl, 0x8F), (.idpy, 0x91), (.idp, 0x92),
     (.isry, 0x93), (.dpx, 0x95), (.idly, 0x97), (.absy, 0x99), (.absx, 0x9D), (.ablx, 0x9F)]
  | .stx _ => [(.dp, 0x86), (.abs, 0x8E), (.dpy, 0x96)]
  | .sty _ => [(.dp, 0x84), (.abs, 0x8C), (.dpx, 0x94)]
  | .stz _ => [(.dp, 0x64), (.dpx, 0x74), (.abs, 0x9C), (.absx, 0x9E)]
  | .tax => [(.imp, 0xAA)]
  | .tay => [(.imp, 0xA8)]
  | .txa => [(.imp, 0x8A)]
  | .tya => [(.imp, 0x98)]
  | .txy => [(.imp, 0x9B)]
  | .tyx => [(.imp, 0xBB)]
  | .tsx => [(.imp, 0xBA)]
  | .txs => [(.imp, 0x9A)]
  | .tcd => [(.imp, 0x5B)]
  | .tdc => [(.imp, 0x7B)]
  | .tcs => [(.imp, 0x1B)]
  | .tsc => [(.imp, 0x3B)]
  | .xba => [(.imp, 0xEB)]
  | .pha => [(.imp, 0x48)]
  | .phx => [(.imp, 0xDA)]
  | .phy => [(.imp, 0x5A)]
  | .php => [(.imp, 0x08)]
  | .phb => [(.imp, 0x8B)]
  | .phd => [(.imp, 0x0B)]
  | .phk => [(.imp, 0x4B)]
  | .pla => [(.imp, 0x68)]
  | .plx => [(.imp, 0xFA)]
  | .ply => [(.imp, 0x7A)]
  | .plp => [(.imp, 0x28)]
  | .plb => [(.imp, 0xAB)]
  | .pld => [(.imp, 0x2B)]
  | .pea _ => [(.imm16, 0xF4)]
  | .pei _ => [(.idp, 0xD4)]
  | .per _ => [(.rel16, 0x62)]
  | .mvn _ _ => [(.blk, 0x54)]
  | .mvp _ _ => [(.blk, 0x44)]
  | .bcc _ => [(.rel8, 0x90)]
  | .bcs _ => [(.rel8, 0xB0)]
  | .beq _ => [(.rel8, 0xF0)]
  | .bne _ => [(.rel8, 0xD0)]
  | .bmi _ => [(.rel8, 0x30)]
  | .bpl _ => [(.rel8, 0x10)]
  | .bvc _ => [(.rel8, 0x50)]
  | .bvs _ => [(.rel8, 0x70)]
  | .bra _ => [(.rel8, 0x80)]
  | .brl _ => [(.rel16, 0x82)]
  | .jmp _ => [(.abs, 0x4C), (.ind, 0x6C), (.indx, 0x7C)]
  | .jml _ => [(.abl, 0x5C), (.indl, 0xDC)]
  | .jsr _ => [(.abs, 0x20), (.indx, 0xFC)]
  | .jsl _ => [(.abl, 0x22)]
  | .rts => [(.imp, 0x60)]
  | .rtl => [(.imp, 0x6B)]
  | .clc => [(.imp, 0x18)]
  | .sec => [(.imp, 0x38)]
  | .cli => [(.imp, 0x58)]
  | .sei => [(.imp, 0x78)]
  | .cld => [(.imp, 0xD8)]
  | .sed => [(.imp, 0xF8)]
  | .clv => [(.imp, 0xB8)]
  | .rep _ => [(.imm8, 0xC2)]
  | .sep _ => [(.imm8, 0xE2)]
  | .xce => [(.imp, 0xFB)]
  | .nop => [(.imp, 0xEA)]
  | .wdm _ => [(.sig, 0x42)]
  | .brk _ => [(.sig, 0x00)]
  | .cop _ => [(.sig, 0x02)]
  | .rti => [(.imp, 0x40)]
  | .wai => [(.imp, 0xCB)]
  | .stp => [(.imp, 0xDB)]

/-- The opcode byte of an instruction at its form, if it has that form. -/
def Instr.opcode (i : Instr) : Option Byte := i.opcodes.lookup i.format

/-- The bytes of a 16-bit operand field, low byte first (R103). -/
def wordBytes (v : Word) : List Byte := [loByte v, hiByte v]

/-- The bytes of a 24-bit operand field (R101 `ABL`, `ABLX`). -/
def longBytes (a : Address) : List Byte := wordBytes (offsetOf a) ++ [bankOf a]

/-- The bytes of a width-dependent immediate (R101 `IMMM`, `IMMX`). -/
def immBytes (narrow : Bool) (v : Word) : List Byte := if narrow then [loByte v] else wordBytes v

/-- The operand bytes of a memory form. -/
def Mem.operandBytes : Mem → List Byte
  | .dp d | .dpx d | .dpy d | .idp d | .idpx d | .idpy d | .idl d | .idly d | .sr d | .isry d => [d]
  | .abs a | .absx a | .absy a => wordBytes a
  | .abl al | .ablx al => longBytes al

/-- The operand bytes of a read operand. -/
def Src.operandBytes (narrow : Bool) : Src → List Byte
  | .imm v => immBytes narrow v
  | .mem m => m.operandBytes

/-- The operand bytes of a read-modify-write operand. -/
def Rmw.operandBytes : Rmw → List Byte
  | .acc => []
  | .mem m => m.operandBytes

/-- The bytes after the opcode (R101, R103; `BLK` holds the destination bank first). -/
def Instr.operandBytes (m8 x8 : Bool) : Instr → List Byte
  | .lda o | .adc o | .sbc o | .and o | .ora o | .eor o | .cmp o | .bit o => o.operandBytes m8
  | .ldx o | .ldy o | .cpx o | .cpy o => o.operandBytes x8
  | .sta m | .stx m | .sty m | .stz m | .tsb m | .trb m => m.operandBytes
  | .inc o | .dec o | .asl o | .lsr o | .rol o | .ror o => o.operandBytes
  | .inx | .iny | .dex | .dey => []
  | .tax | .tay | .txa | .tya | .txy | .tyx | .tsx | .txs | .tcd | .tdc | .tcs | .tsc | .xba => []
  | .pha | .phx | .phy | .php | .phb | .phd | .phk | .pla | .plx | .ply | .plp | .plb | .pld => []
  | .pea v | .per v | .brl v => wordBytes v
  | .pei d => [d]
  | .mvn dst src | .mvp dst src => [dst, src]
  | .bcc r | .bcs r | .beq r | .bne r | .bmi r | .bpl r | .bvc r | .bvs r | .bra r => [r]
  | .jmp (.abs a) | .jmp (.ind a) | .jmp (.indx a) | .jsr (.abs a) | .jsr (.indx a) | .jml (.indl a) => wordBytes a
  | .jml (.abl al) | .jsl al => longBytes al
  | .rts | .rtl | .rti | .wai | .stp | .nop | .xce => []
  | .clc | .sec | .cli | .sei | .cld | .sed | .clv => []
  | .rep v | .sep v | .wdm v | .brk v | .cop v => [v]

/-- The bytes of an instruction under the widths; no bytes for a term in a form the instruction does not have. -/
def encode (m8 x8 : Bool) (i : Instr) : List Byte :=
  match i.opcode with
  | some op => op :: i.operandBytes m8 x8
  | none => []

/-! ## The host's reading of one table word -/

/-- Byte `k` of a word whose bit 0 is bit 0 of the first byte. -/
def tableByte (w k : Nat) : Byte := BitVec.ofNat 8 (w / 2 ^ (8 * k))

/-- The four bytes, the longest instruction, of a table word of `nbits` bits: every bit above is 0. -/
def tableBytes (nbits w : Nat) : List Byte :=
  let v := w % 2 ^ nbits
  [tableByte v 0, tableByte v 1, tableByte v 2, tableByte v 3]

/-- The instruction the decoder reads from a table word. The widths are those after reset, both 8 bits (R362), since an opcode's
length depends on them (log entry 10). -/
def decodeTableWord (nbits w : Nat) : Option Instr :=
  match decode true true (tableBytes nbits w) with
  | .ok (i, _) => some i
  | .error _ => none

end Sys2Proof
end

