-- ==== Sys2Proof/Machine/Fetch.lean ====
section
/-! DEFINITION. Fetching and decoding one instruction (40_addressing_modes.md R130, steps 1 to 3), and placing an instruction where
the next fetch finds it. -/

namespace Sys2Proof

/-- Put a byte into a device from outside the machine, as loading an image does: into a ROM as well, and not as an access. -/
def Device.place (offset : Nat) (v : Byte) : Device → Device
  | .ram size cells => .ram size (cells.write offset v)
  | .rom size image => .rom size (image.write offset v)
  | .mmio handle => .mmio handle

/-- Let an address be a RAM byte of its own. -/
def Bus.placeApart (a : Address) (v : Byte) (b : Bus) : Bus :=
  { b with
    map := { first := a.toNat, last := a.toNat, dev := b.devices.length, xlate := .rel 0 } :: b.map
    devices := b.devices ++ [.ram 1 (Memory.write [] 0 v)] }

/-- Let a byte stand at an address: in the RAM or ROM that holds the address, and where no such device does, in a RAM byte of its own. -/
def Bus.place (a : Address) (v : Byte) (b : Bus) : Bus :=
  match b.resolve a with
  | .unmapped => b.placeApart a v
  | .mapped dev offset =>
    match b.devices[dev]? with
    | some (.ram size cells) => { b with devices := b.devices.set dev (Device.place offset v (.ram size cells)) }
    | some (.rom size image) => { b with devices := b.devices.set dev (Device.place offset v (.rom size image)) }
    | some (.mmio _) => b.placeApart a v
    | none => b.placeApart a v

namespace Machine.State

/-- The location of the instruction stream at the program counter: it wraps inside the program bank (R26, R100). -/
def codeLoc (s : State) : Loc := .inBank s.PBR s.PC

/-- `b[k]`: byte `k` of the instruction at `PBR:PC`. -/
def fetchByte (k : Nat) (s : State) : Byte × State :=
  let r := s.bus.read8 (s.codeLoc.byte k)
  (r.1, s.withBus r.2)

/-- `n` bytes of the instruction from byte `k` on, in ascending order. -/
def fetchBytes : (n k : Nat) → State → List Byte × State
  | 0, _, s => ([], s)
  | n + 1, k, s =>
    let b := s.fetchByte k
    let bs := b.2.fetchBytes n (k + 1)
    (b.1 :: bs.1, bs.2)

/-- The opcode byte, then as many operand bytes as the length under the widths at the start asks for (R130, R102). -/
def fetch (s : State) : Instr × State :=
  let op := s.fetchByte 0
  let bs := op.2.fetchBytes (opLen op.1 s.m8 s.x8 - 1) 1
  (decodeBytes s.m8 s.x8 op.1 bs.1, bs.2)

/-- Let the bytes stand at the program counter, byte `k` of the list at byte `k` of the instruction. -/
def placeCode (bytes : List Byte) (s : State) : State :=
  s.withBus (bytes.foldl (fun (p : Nat × Bus) v => (p.1 + 1, p.2.place (s.codeLoc.byte p.1) v)) (0, s.bus)).2

end Machine.State

end Sys2Proof
end

