-- ==== Sys2Proof/Machine/Step.lean ====
section
/-! DEFINITION. One step of the machine (40_addressing_modes.md R130). -/

namespace Sys2Proof.Machine

/-- `Step()`, R130: while `run` is not `Running` nothing happens (10_state.md R37). -/
def step (s : State) : Host.Outcome State Fault Refusal :=
  match s.run with
  | .running =>
    let f := s.fetch
    exec f.1 f.2
  | .waiting => .next s
  | .stopped => .next s

/-- `s` with the instruction of a table word at the program counter, running, so that the next step fetches and runs it (log entry 5).
After reset in the reference configuration the program counter is 0x0000, which lies in the work RAM. -/
def State.withFetchWord (s : State) (nbits w : Nat) : State :=
  (s.placeCode (tableBytes nbits w)).setRun .running

end Sys2Proof.Machine
end

