-- ==== Sys2Proof/Machine/Disasm.lean ====
section
/-! DEFINITION. The disassembler (30_encoding.md R122 to R124): an observation of memory and of the mode inputs it is given. It reads
through the bus and touches no register. -/

namespace Sys2Proof

/-- A hexadecimal digit in upper case. -/
def hexDigit (n : Nat) : Char :=
  ['0', '1', '2', '3', '4', '5', '6', '7', '8', '9', 'A', 'B', 'C', 'D', 'E', 'F'].getD n '0'

/-- The lowest `k` hexadecimal digits of a number, the highest first. -/
def hexDigits : (k : Nat) → Nat → List Char
  | 0, _ => []
  | k + 1, n => hexDigits k (n / 16) ++ [hexDigit (n % 16)]

/-- `$` and `k` digits. -/
def dollar (k n : Nat) : String := "$" ++ String.ofList (hexDigits k n)

/-- The mnemonics of R105. -/
def Instr.mnemonic : Instr → String
  | .lda _ => "LDA"
  | .ldx _ => "LDX"
  | .ldy _ => "LDY"
  | .sta _ => "STA"
  | .stx _ => "STX"
  | .sty _ => "STY"
  | .stz _ => "STZ"
  | .adc _ => "ADC"
  | .sbc _ => "SBC"
  | .and _ => "AND"
  | .ora _ => "ORA"
  | .eor _ => "EOR"
  | .cmp _ => "CMP"
  | .cpx _ => "CPX"
  | .cpy _ => "CPY"
  | .bit _ => "BIT"
  | .tsb _ => "TSB"
  | .trb _ => "TRB"
  | .inc _ => "INC"
  | .dec _ => "DEC"
  | .inx => "INX"
  | .iny => "INY"
  | .dex => "DEX"
  | .dey => "DEY"
  | .asl _ => "ASL"
  | .lsr _ => "LSR"
  | .rol _ => "ROL"
  | .ror _ => "ROR"
  | .tax => "TAX"
  | .tay => "TAY"
  | .txa => "TXA"
  | .tya => "TYA"
  | .txy => "TXY"
  | .tyx => "TYX"
  | .tsx => "TSX"
  | .txs => "TXS"
  | .tcd => "TCD"
  | .tdc => "TDC"
  | .tcs => "TCS"
  | .tsc => "TSC"
  | .xba => "XBA"
  | .pha => "PHA"
  | .phx => "PHX"
  | .phy => "PHY"
  | .php => "PHP"
  | .phb => "PHB"
  | .phd => "PHD"
  | .phk => "PHK"
  | .pla => "PLA"
  | .plx => "PLX"
  | .ply => "PLY"
  | .plp => "PLP"
  | .plb => "PLB"
  | .pld => "PLD"
  | .pea _ => "PEA"
  | .pei _ => "PEI"
  | .per _ => "PER"
  | .mvn _ _ => "MVN"
  | .mvp _ _ => "MVP"
  | .bcc _ => "BCC"
  | .bcs _ => "BCS"
  | .beq _ => "BEQ"
  | .bne _ => "BNE"
  | .bmi _ => "BMI"
  | .bpl _ => "BPL"
  | .bvc _ => "BVC"
  | .bvs _ => "BVS"
  | .bra _ => "BRA"
  | .brl _ => "BRL"
  | .jmp _ => "JMP"
  | .jml _ => "JML"
  | .jsr _ => "JSR"
  | .jsl _ => "JSL"
  | .rts => "RTS"
  | .rtl => "RTL"
  | .clc => "CLC"
  | .sec => "SEC"
  | .cli => "CLI"
  | .sei => "SEI"
  | .cld => "CLD"
  | .sed => "SED"
  | .clv => "CLV"
  | .rep _ => "REP"
  | .sep _ => "SEP"
  | .xce => "XCE"
  | .nop => "NOP"
  | .wdm _ => "WDM"
  | .brk _ => "BRK"
  | .cop _ => "COP"
  | .rti => "RTI"
  | .wai => "WAI"
  | .stp => "STP"

/-- The operand text of a memory form (R101). -/
def Mem.text : Mem → String
  | .dp d => dollar 2 d.toNat
  | .dpx d => dollar 2 d.toNat ++ ",X"
  | .dpy d => dollar 2 d.toNat ++ ",Y"
  | .idp d => "(" ++ dollar 2 d.toNat ++ ")"
  | .idpx d => "(" ++ dollar 2 d.toNat ++ ",X)"
  | .idpy d => "(" ++ dollar 2 d.toNat ++ "),Y"
  | .idl d => "[" ++ dollar 2 d.toNat ++ "]"
  | .idly d => "[" ++ dollar 2 d.toNat ++ "],Y"
  | .abs a => dollar 4 a.toNat
  | .absx a => dollar 4 a.toNat ++ ",X"
  | .absy a => dollar 4 a.toNat ++ ",Y"
  | .abl al => dollar 6 al.toNat
  | .ablx al => dollar 6 al.toNat ++ ",X"
  | .sr d => dollar 2 d.toNat ++ ",S"
  | .isry d => "(" ++ dollar 2 d.toNat ++ ",S),Y"

/-- An immediate with as many digits as bytes were consumed (R124). -/
def immText (narrow : Bool) (v : Word) : String := "#" ++ dollar (if narrow then 2 else 4) v.toNat

/-- The operand text of a read operand. -/
def Src.text (narrow : Bool) : Src → String
  | .imm v => immText narrow v
  | .mem m => m.text

/-- The operand text of a read-modify-write operand: `A` for the accumulator. -/
def Rmw.text : Rmw → String
  | .acc => "A"
  | .mem m => m.text

/-- The operand text of an instruction that stands at bank offset `off`, or none (R124): branches show their target. -/
def Instr.operandText (m8 x8 : Bool) (off : Word) : Instr → Option String
  | .lda o | .adc o | .sbc o | .and o | .ora o | .eor o | .cmp o | .bit o => some (o.text m8)
  | .ldx o | .ldy o | .cpx o | .cpy o => some (o.text x8)
  | .sta m | .stx m | .sty m | .stz m | .tsb m | .trb m => some m.text
  | .inc o | .dec o | .asl o | .lsr o | .rol o | .ror o => some o.text
  | .inx | .iny | .dex | .dey => none
  | .tax | .tay | .txa | .tya | .txy | .tyx | .tsx | .txs | .tcd | .tdc | .tcs | .tsc | .xba => none
  | .pha | .phx | .phy | .php | .phb | .phd | .phk | .pla | .plx | .ply | .plp | .plb | .pld => none
  | .pea v => some (immText false v)
  | .pei d => some (Mem.text (.idp d))
  | .per r | .brl r => some (dollar 4 (off + 3 + r).toNat)
  | .mvn dst src | .mvp dst src => some (dollar 2 src.toNat ++ "," ++ dollar 2 dst.toNat)
  | .bcc r | .bcs r | .beq r | .bne r | .bmi r | .bpl r | .bvc r | .bvs r | .bra r => some (dollar 4 (off + 2 + sext16 r).toNat)
  | .jmp (.abs a) | .jsr (.abs a) => some (dollar 4 a.toNat)
  | .jmp (.ind a) => some ("(" ++ dollar 4 a.toNat ++ ")")
  | .jmp (.indx a) | .jsr (.indx a) => some ("(" ++ dollar 4 a.toNat ++ ",X)")
  | .jml (.abl al) | .jsl al => some (dollar 6 al.toNat)
  | .jml (.indl a) => some ("[" ++ dollar 4 a.toNat ++ "]")
  | .rts | .rtl | .rti | .wai | .stp | .nop | .xce => none
  | .clc | .sec | .cli | .sei | .cld | .sed | .clv => none
  | .rep v | .sep v | .wdm v | .brk v | .cop v => some (immText true (zext16 v))

/-- The text of an instruction: the mnemonic and, after one space, the operand. -/
def Instr.text (m8 x8 : Bool) (off : Word) (i : Instr) : String :=
  match i.operandText m8 x8 off with
  | some t => i.mnemonic ++ " " ++ t
  | none => i.mnemonic

/-- A record of the disassembler. -/
structure Line where
  address : String
  code : String
  deriving DecidableEq, Repr

/-- `n` operand bytes from byte `k` of the instruction at `loc` on. -/
def Bus.readBytes (loc : Loc) : (n k : Nat) → Bus → List Byte × Bus
  | 0, _, b => ([], b)
  | n + 1, k, b =>
    let r := b.read8 (loc.byte k)
    let rs := r.2.readBytes loc n (k + 1)
    (r.1 :: rs.1, rs.2)

/-- One record, the length to advance by, and the bus after the reads. -/
def disassembleOne (m8 x8 : Bool) (bank : Byte) (off : Word) (b : Bus) : Line × Nat × Bus :=
  let loc := Loc.inBank bank off
  let op := b.read8 (loc.byte 0)
  let len := opLen op.1 m8 x8
  let bs := op.2.readBytes loc (len - 1) 1
  ({ address := String.ofList (hexDigits 6 (mkAddr bank off).toNat)
     code := (decodeBytes m8 x8 op.1 bs.1).text m8 x8 off }, len, bs.2)

/-- `maxN` records from an offset of a bank on; the walk stays in the bank. -/
def disassembleFrom (m8 x8 : Bool) (bank : Byte) : (maxN : Nat) → Word → Bus → List Line × Bus
  | 0, _, b => ([], b)
  | n + 1, off, b =>
    let r := disassembleOne m8 x8 bank off b
    let rs := disassembleFrom m8 x8 bank n (off + BitVec.ofNat 16 r.2.1) r.2.2
    (r.1 :: rs.1, rs.2)

/-- `Disassemble(start, maxN, m8in, x8in, ein, cin)`, R122: the modes are fixed inputs (R123), and `carryFlag` is ignored. -/
def Bus.disassemble (start : Address) (maxN : Nat) (m8in x8in ein _carryFlag : Bool) (b : Bus) : List Line × Bus :=
  disassembleFrom (m8in || ein) (x8in || ein) (bankOf start) maxN (offsetOf start) b

namespace Machine

/-- The disassembler as a port of the machine: the records, and the state, in which only the history of accesses is longer. -/
def State.disassemble (start : Address) (maxN : Nat) (m8in x8in ein carryFlag : Bool) (s : State) : List Line × State :=
  let r := s.bus.disassemble start maxN m8in x8in ein carryFlag
  (r.1, s.withBus r.2)

end Machine

end Sys2Proof
end

