-- ==== Sys2Proof/Machine/Ports.lean ====
section
/-! DEFINITION. The ports of the block other than `step` (00_scope.md R5): reset and its triggers (70_reset_and_hazards.md R361) and
the observation ports, which change no state. -/

namespace Sys2Proof.Machine

/-- The configuration is refused (93_implementation_defined.md U3, U24), or the reset procedure runs in it. -/
def resetInto (charOut : CharOut) (b : Bus) : Result :=
  if b.devices.any (fun d => match d with | .rom size _ => size == 0 | _ => false) then .refused .emptyRomImage
  else if b.configWf then .next (State.afterReset charOut b)
  else .refused .illFormedConfiguration

/-- Construction at startup, which ends with the reset procedure (R361, D27). -/
def powerOn (devices : List Device) (map : List MapRow) (charOut : CharOut) : Result :=
  resetInto charOut { map := map, devices := devices, events := [] }

namespace State

/-- The `reset` port, R360: nothing survives it but the configuration, with the ROM images, and the history. -/
def resetPort (s : State) : State := .afterReset s.charOut s.bus

/-- Loading a new ROM image, R361: it replaces the contents of the ROM at place `dev` and the map, and resets everything. -/
def loadRom (dev size : Nat) (image : Memory) (map : List MapRow) (s : State) : Result :=
  match s.bus.devices[dev]? with
  | some (.rom _ _) => resetInto s.charOut { s.bus with devices := s.bus.devices.set dev (.rom size image), map := map }
  | _ => .refused .illFormedConfiguration

/-- "Force load full" of `A`, `X`, `Y` (10_state.md R25): the backing value whatever the mode. -/
def forceLoadFullA (s : State) : Word := s.A
def forceLoadFullX (s : State) : Word := s.X
def forceLoadFullY (s : State) : Word := s.Y

/-- `memoryAndAccumulatorAre8Bit()`, `indexRegistersAre8Bit()` and `usingEmulationMode()` (00_scope.md R8, 10_state.md R34). -/
def memoryAndAccumulatorAre8Bit (s : State) : Bool := s.m8
def indexRegistersAre8Bit (s : State) : Bool := s.x8
def usingEmulationMode (s : State) : Bool := s.e

/-- The characters emitted so far, oldest first (`char_out`, R5). -/
def characters (s : State) : List Byte :=
  s.bus.events.reverse.filterMap (fun ev => match ev with | .charOut c => some c | _ => none)

end State

end Sys2Proof.Machine
end

