-- ==== Sys2Proof/Safety.lean ====
section
/-! DEFINITION. The terms the statements are made of: the invariants of the state, when a run has ended, and what it means that an
instruction leaves the rest of the machine alone. -/

namespace Sys2Proof

/-- A device without the contents of its RAM: its kind, its size, and the image of a ROM. No step changes it. -/
def Device.shape : Device → Device
  | .ram size _ => .ram size []
  | .rom size image => .rom size image
  | .mmio handle => .mmio handle

/-! ## What a stretch of history shows (20_memory.md R72, R77) -/

/-- The bytes read, oldest first. -/
def readsOf (evs : List Event) : List (Address × Byte) :=
  evs.reverse.filterMap (fun ev => match ev with | .read a _ v => some (a, v) | _ => none)

/-- The bytes written, oldest first. -/
def writesOf (evs : List Event) : List (Address × Byte) :=
  evs.reverse.filterMap (fun ev => match ev with | .write a _ v => some (a, v) | _ => none)

/-- The characters emitted, oldest first. -/
def charsOf (evs : List Event) : List Byte :=
  evs.reverse.filterMap (fun ev => match ev with | .charOut c => some c | _ => none)

/-- After the writes `stores`, in that order: each byte written to a RAM address stands there, unless a later write of the list reached
the same byte. A write to any other address leaves nothing behind in the block. -/
def Bus.Stored (b b' : Bus) : List (Address × Byte) → Prop
  | [] => True
  | (a, v) :: rest =>
    (b.isRam a = true → (∀ c ∈ rest, b.sameByte a c.1 = false) → b'.byteAt a = some v) ∧ b.Stored b' rest

/-- From the bus `b` to the bus `b'` exactly the bytes `stores` are written, in that order: they stand where they were written, every
address that reaches none of them reads as before, the configuration is the same, the history has grown by those writes and by reads,
and no character has been emitted. The byte at an address is that of log entry 15, the history that of log entry 7. -/
structure Bus.Frame (stores : List (Address × Byte)) (b b' : Bus) : Prop where
  stored : b.Stored b' stores
  bytes : ∀ a, (∀ c ∈ stores, b.sameByte a c.1 = false) → b'.byteAt a = b.byteAt a
  map : b'.map = b.map
  shapes : b'.devices.map Device.shape = b.devices.map Device.shape
  history : ∃ evs, b'.events = evs ++ b.events ∧ writesOf evs = stores ∧ charsOf evs = []

namespace Machine

/-! ## Invariants -/

/-- 10_state.md R23: narrow index registers have a zero high byte. -/
def State.IndexHighZero (s : State) : Prop := s.x8 = true → hiByte s.X = 0 ∧ hiByte s.Y = 0

/-- 10_state.md R35: in emulation mode the stack pointer is in page `SP_EMU_HIGH`. -/
def State.StackPinned (s : State) : Prop := s.e = true → hiByte s.SP = Config.spEmuHigh

/-- Every device has at least one byte and canonical contents. -/
def State.DevicesWf (s : State) : Prop := s.bus.devices.all Bus.deviceWf = true

/-- The invariant every step keeps. -/
structure State.Inv (s : State) : Prop where
  index : s.IndexHighZero
  stack : s.StackPinned
  devices : s.DevicesWf

/-! ## The end of a run (70_reset_and_hazards.md R375, 10_state.md R37) -/

/-- The run has ended. -/
def State.Final (s : State) : Prop := s.run = .stopped

/-- A wait that nothing lifts: neither final nor progressing. -/
def State.Stuck (s : State) : Prop := s.run = .waiting

/-! ## Frames -/

/-- The registers other than `P`, whose bits are the flags. -/
inductive Reg
  | A | X | Y | PC | PBR | DBR | DR | SP | e | run
  deriving DecidableEq, Repr

/-- The run state as a number, to compare it as a register. -/
def RunState.code : RunState → Nat
  | .running => 0
  | .waiting => 1
  | .stopped => 2

/-- The value of a register, as a number. -/
def State.reg (s : State) : Reg → Nat
  | .A => s.A.toNat
  | .X => s.X.toNat
  | .Y => s.Y.toNat
  | .PC => s.PC.toNat
  | .PBR => s.PBR.toNat
  | .DBR => s.DBR.toNat
  | .DR => s.DR.toNat
  | .SP => s.SP.toNat
  | .e => s.e.toNat
  | .run => s.run.code

/-- From `s` to `t` nothing changes but the registers and the flags named and the bytes at the addresses stored to: every other register
and flag keeps its value, the bus changes by exactly the stores (`Bus.Frame`), and `CHAR_OUT` is the same. -/
structure Frame (regs : List Reg) (flags : List Flag) (stores : List (Address × Byte)) (s t : State) : Prop where
  regs : ∀ r, r ∉ regs → t.reg r = s.reg r
  flags : ∀ f, f ∉ flags → t.flag f = s.flag f
  bus : s.bus.Frame stores t.bus
  charOut : t.charOut = s.charOut

/-- All eight flags. -/
def Flag.all : List Flag := [.n, .v, .m, .x, .d, .i, .z, .c]

/-- `PC` is at the instruction that follows (R131). -/
def FallsThrough (i : Instr) (s t : State) : Prop := t.PC = s.PC + BitVec.ofNat 16 (i.len s.m8 s.x8)

/-- `n` and `z` are those of the value `v` at width `w` (`SetNZ`, 00_scope.md R8). -/
def HasNZ (v : Word) (w : Width) (t : State) : Prop :=
  (t.flag .z = true ↔ w.trunc v = 0) ∧ t.flag .n = v.getLsbD (w.bits - 1)

/-- The register write of width `w` that clears the rest: `WrX`, `WrY` of 00_scope.md R8. -/
def WrittenLow (narrow : Bool) (v new : Word) : Prop := new = if narrow then zext16 (loByte v) else v

/-- The register write that keeps the high byte when it is narrow: `WrA` of 00_scope.md R8. -/
def WrittenKeep (narrow : Bool) (v old new : Word) : Prop := new = if narrow then mkWord (hiByte old) (loByte v) else v

/-- The addresses and bytes of a value at a location, low byte first. -/
def valueBytes (loc : Loc) (w : Width) (v : Word) : List (Address × Byte) :=
  match w with
  | .w8 => [(loc.byte 0, loByte v)]
  | .w16 => [(loc.byte 0, loByte v), (loc.byte 1, hiByte v)]

/-- The bank-0 offset of the `k`th byte pushed from `s` on, in emulation mode pinned after each decrement (20_memory.md R73). -/
def State.pushSlot (s : State) : Nat → Word
  | 0 => s.SP
  | k + 1 => if s.e then mkWord Config.spEmuHigh (loByte (s.pushSlot k - 1)) else s.pushSlot k - 1

/-- The bank-0 offset of the `k`th byte pulled from `s` on, the first being byte 1 (20_memory.md R74). -/
def State.pullSlot (s : State) : Nat → Word
  | 0 => s.SP
  | k + 1 => if s.e then mkWord Config.spEmuHigh (loByte (s.pullSlot k + 1)) else s.pullSlot k + 1

/-- Bytes pushed in order from the `k`th on, with their addresses. -/
def State.pushed (s : State) : Nat → List Byte → List (Address × Byte)
  | _, [] => []
  | k, v :: vs => (mkAddr 0 (s.pushSlot k), v) :: s.pushed (k + 1) vs

/-- The bytes a push at a width pushes, in order: the high byte first (20_memory.md R73). -/
def pushBytes (w : Width) (v : Word) : List Byte :=
  match w with
  | .w8 => [loByte v]
  | .w16 => [hiByte v, loByte v]

/-! ## Read-modify-write operands -/

/-- The value a read-modify-write instruction works on: the accumulator at its width, or the memory operand. -/
def State.rmwValue (o : Rmw) (s : State) : Word :=
  match o with
  | .acc => s.wm.trunc s.A
  | .mem m => (s.operand (.mem m) s.wm).1

/-- The bytes it stores when its result is `r`: none when the operand is the accumulator. -/
def State.rmwStores (o : Rmw) (r : Word) (s : State) : List (Address × Byte) :=
  match o with
  | .acc => []
  | .mem m => valueBytes (s.ea m).1 s.wm r

/-- The register it writes. -/
def rmwRegs : Rmw → List Reg
  | .acc => [.A, .PC]
  | .mem _ => [.PC]

/-! ## Arithmetic readings of a value -/

/-- The two's-complement reading of the low `w` bits (`signed_N`, 00_scope.md R7). -/
def signedValue (w : Width) (v : Word) : Int :=
  match w with
  | .w8 => (loByte v).toInt
  | .w16 => v.toInt

/-- The number a sequence of `k` decimal digits stands for, one digit in each four bits. -/
def bcdValue (v : Word) : (k : Nat) → Nat
  | 0 => 0
  | k + 1 => bcdValue v k + digit v k * 10 ^ k

/-- The lowest `k` digits are decimal digits. -/
def ValidBcd (v : Word) (k : Nat) : Prop := ∀ i, i < k → digit v i ≤ 9

/-! ## Instruction fetch -/

/-- The state after the instruction bytes have been read: nothing but the history differs, which has the reads of the bytes at `PBR:PC`,
`PBR:(PC + 1)` and so on, in that order (20_memory.md R77). -/
def Fetched (n : Nat) (bytes : List Byte) (s t : State) : Prop :=
  bytes.length = n ∧
  ∃ evs, t = { s with bus := { s.bus with events := evs ++ s.bus.events } } ∧ writesOf evs = [] ∧ charsOf evs = [] ∧
    readsOf evs = (List.range n).zipWith (fun k v => (mkAddr s.PBR (s.PC + BitVec.ofNat 16 k), v)) bytes

/-- `v` is the word that the last two accesses before `t` have read at a location, low byte first, whichever devices answered (history of log
entry 7). -/
def LastWordRead (loc : Loc) (v : Word) (t : State) : Prop :=
  ∃ d0 d1 lo hi older, t.bus.events = .read (loc.byte 1) d1 hi :: .read (loc.byte 0) d0 lo :: older ∧ v = mkWord hi lo

end Machine

end Sys2Proof
end

