-- ==== Sys2Proof/Certificates/Slice0/Obligations.lean ====
section
/-! DEFINITION. The statements for the provers. Each docstring names the rule of the spec it formalises. -/

open Sys2Proof Sys2Proof.Machine

/-! ## The bus -/

/-- 20_memory.md R80: a read after a write of the same size returns the value written, when the bytes of the access lie at distinct offsets
of one RAM. -/
def Obligations.BusReadAfterWrite : Prop :=
  ∀ (b : Bus) (loc : Loc) (dev size : Nat) (cells : Memory), b.devices[dev]? = some (.ram size cells) →
    (∀ o0, b.resolve (loc.byte 0) = .mapped dev o0 →
      (∀ v, ((b.writeByte loc v).readByte loc).1 = v) ∧
      (∀ o1, b.resolve (loc.byte 1) = .mapped dev o1 → o0 ≠ o1 →
        (∀ v, ((b.write16 loc v).read16 loc).1 = v) ∧
        (∀ o2, b.resolve (loc.byte 2) = .mapped dev o2 → o0 ≠ o2 → o1 ≠ o2 →
          ∀ v, ((b.write24 loc v).read24 loc).1 = v)))

/-- 20_memory.md R81: a 24-bit read across the boundary of two devices takes each byte from the device that owns it. -/
def Obligations.BusBoundaryRead : Prop :=
  ∀ (cells image : Memory) (events : List Event),
    let b : Bus :=
      { map := [{ first := 0x7E0000, last := 0x7FFFFF, dev := 0, xlate := .rel 0 },
                { first := 0x800000, last := 0xFFFFFF, dev := 1, xlate := .rel 0 }]
        devices := [.ram 0x20000 cells, .rom 0x800000 image]
        events := events }
    (b.read24 (.lin 0x7FFFFF)).1 = mkLong (image.read 1) (image.read 0) (cells.read 0x1FFFF)

/-- 20_memory.md R65: a read of an unmapped address returns `FILL` = 0x00 (decision D6), and a write to one changes no device. -/
def Obligations.UnmappedAccess : Prop :=
  ∀ (b : Bus) (a : Address), b.resolve a = .unmapped →
    (b.read8 a).1 = 0x00 ∧ (b.read8 a).2.devices = b.devices ∧ ∀ v, (b.write8 a v).devices = b.devices

/-- 20_memory.md R62: a RAM returns the byte last written at an offset, 0x00 after a reset, and a write reaches no other offset; a ROM
returns its image and neither a write nor a reset changes it. -/
def Obligations.DeviceContents : Prop :=
  (∀ size cells o v h, ((Device.ram size cells).writeByte o v).readByte h o = v) ∧
  (∀ size cells o p v h, p ≠ o →
    ((Device.ram size cells).writeByte o v).readByte h p = (Device.ram size cells).readByte h p) ∧
  (∀ size cells o h, (Device.ram size cells).reset.readByte h o = 0x00) ∧
  (∀ size image o h, (Device.rom size image).readByte h o = image.read o) ∧
  (∀ size image o v, (Device.rom size image).writeByte o v = .rom size image) ∧
  (∀ size image, (Device.rom size image).reset = .rom size image)

/-- 20_memory.md R63 and R64: the first row that covers the address decides, the offset is the row's function of the address reduced by the
size of the device, and an address that no row covers is unmapped. -/
def Obligations.FirstMatchingRow : Prop :=
  ∀ (b : Bus) (a : Address),
    (∀ (before after : List MapRow) (row : MapRow) (d : Device), b.map = before ++ row :: after →
      (∀ r ∈ before, ¬ (r.first ≤ a.toNat ∧ a.toNat ≤ r.last)) → row.first ≤ a.toNat → a.toNat ≤ row.last →
      b.devices[row.dev]? = some d →
      b.resolve a = .mapped row.dev
        ((match row.xlate with
          | .rel base => (a.toNat - row.first) + base
          | .mask k => a.toNat &&& k
          | .loRom => ((a.extractLsb' 16 7 ++ a.extractLsb' 0 15 : BitVec 22)).toNat) % d.size)) ∧
    ((∀ r ∈ b.map, ¬ (r.first ≤ a.toNat ∧ a.toNat ≤ r.last)) → b.resolve a = .unmapped)

/-- 20_memory.md R78 (decision D7): what every address of the reference map resolves to, and that the rows of different devices are
disjoint. -/
def Obligations.ReferenceMapResolves : Prop :=
  ∀ (size : Nat) (image : Memory) (a : Address),
    let b := Bus.reference size image
    let bank := (bankOf a).toNat
    let off := (offsetOf a).toNat
    Bus.mapDisjoint b.map = true ∧
    (bank = 0x7E ∨ bank = 0x7F → b.resolve a = .mapped 0 (a.toNat - 0x7E0000)) ∧
    (bank % 0x80 < 0x40 → off < 0x2000 → b.resolve a = .mapped 0 off) ∧
    (bank % 0x80 < 0x40 → 0x2000 ≤ off → off < 0x6000 → b.resolve a = .mapped 2 off) ∧
    (bank ≠ 0x7E → bank ≠ 0x7F → 0x8000 ≤ off → b.resolve a = .mapped 1 ((bank % 0x80 * 0x8000 + (off - 0x8000)) % size)) ∧
    (bank % 0x80 < 0x40 → 0x6000 ≤ off → off < 0x8000 → b.resolve a = .unmapped) ∧
    (0x40 ≤ bank % 0x80 → bank ≠ 0x7E → bank ≠ 0x7F → off < 0x8000 → b.resolve a = .unmapped)

/-- 20_memory.md R66 and R67: a single-byte read returns the byte its address resolves to and changes nothing but the history; a single-byte
write changes only the byte its address resolves to. That each leaves one event, at an unmapped address too, is the model's choice (log
entry 7), and the byte at an address is that of log entry 15. -/
def Obligations.SingleByteAccess : Prop :=
  ∀ (b : Bus) (a : Address),
    (∀ x, b.byteAt a = some x → (b.read8 a).1 = x) ∧
    (b.read8 a).2 = { b with events := .read a (b.resolve a) (b.read8 a).1 :: b.events } ∧
    ∀ v, (b.write8 a v).events = .write a (b.resolve a) v :: b.events ∧
      (b.write8 a v).map = b.map ∧
      (b.isRam a = true → ∀ c, b.resolve c = b.resolve a → (b.write8 a v).byteAt c = some v) ∧
      (b.isRam a = false → (b.write8 a v).devices = b.devices) ∧
      (∀ c, b.resolve c ≠ b.resolve a → (b.write8 a v).byteAt c = b.byteAt c)

/-- 20_memory.md R68, R69, R70 (decision D9): the bytes of a wider access, where each lies and in what order it is accessed. -/
def Obligations.MultiByteAccess : Prop :=
  (∀ (a : Address) k, (Loc.lin a).byte k = a + BitVec.ofNat 24 k) ∧
  (∀ bank (off : Word) k, (Loc.inBank bank off).byte k = mkAddr bank (off + BitVec.ofNat 16 k)) ∧
  ∀ (b : Bus) (loc : Loc),
    (∀ v0 v1, b.byteAt (loc.byte 0) = some v0 → b.byteAt (loc.byte 1) = some v1 →
      (b.read16 loc).1 = mkWord v1 v0 ∧
      ∀ v2, b.byteAt (loc.byte 2) = some v2 → (b.read24 loc).1 = mkLong v2 v1 v0) ∧
    (∃ evs, (b.read16 loc).2 = { b with events := evs ++ b.events } ∧ writesOf evs = [] ∧
      (readsOf evs).map Prod.fst = [loc.byte 0, loc.byte 1]) ∧
    (∃ evs, (b.read24 loc).2 = { b with events := evs ++ b.events } ∧ writesOf evs = [] ∧
      (readsOf evs).map Prod.fst = [loc.byte 0, loc.byte 1, loc.byte 2]) ∧
    (∀ v : Word, b.Frame [(loc.byte 0, v.extractLsb' 0 8), (loc.byte 1, v.extractLsb' 8 8)] (b.write16 loc v)) ∧
    (∀ v : Address, b.Frame [(loc.byte 0, v.extractLsb' 0 8), (loc.byte 1, v.extractLsb' 8 8), (loc.byte 2, v.extractLsb' 16 8)]
      (b.write24 loc v))

/-- 20_memory.md R73 and R74 (decision D11): pushes store downward from `00:SP`, the high byte first; pulls read upward; in emulation mode
every slot is in page 0x01. -/
def Obligations.StackPrimitives : Prop :=
  ∀ s : State,
    (∀ v : Byte, Frame [.SP] [] [(mkAddr 0 s.SP, v)] s (s.push8 v) ∧ (s.push8 v).SP = s.pushSlot 1) ∧
    (∀ v : Word, Frame [.SP] [] [(mkAddr 0 s.SP, hiByte v), (mkAddr 0 (s.pushSlot 1), loByte v)] s (s.push16 v) ∧
      (s.push16 v).SP = s.pushSlot 2) ∧
    (Frame [.SP] [] [] s s.pull8.2 ∧ s.pull8.2.SP = s.pullSlot 1 ∧
      ∀ v, s.bus.byteAt (mkAddr 0 (s.pullSlot 1)) = some v → s.pull8.1 = v) ∧
    (Frame [.SP] [] [] s s.pull16.2 ∧ s.pull16.2.SP = s.pullSlot 2 ∧
      ∀ lo hi, s.bus.byteAt (mkAddr 0 (s.pullSlot 1)) = some lo → s.bus.byteAt (mkAddr 0 (s.pullSlot 2)) = some hi →
        s.pull16.1 = mkWord hi lo) ∧
    (s.e = true → ∀ k, hiByte (s.pushSlot (k + 1)) = 0x01 ∧ hiByte (s.pullSlot (k + 1)) = 0x01) ∧
    (s.e = false → ∀ k, s.pushSlot k = s.SP - BitVec.ofNat 16 k ∧ s.pullSlot k = s.SP + BitVec.ofNat 16 k)

/-! ## Reset -/

/-- 70_reset_and_hazards.md R360 (decisions D13, D14): the registers after reset in any configuration, the devices reset before the vector
is read, and the vector read as the only access. -/
def Obligations.ResetState : Prop :=
  ∀ (charOut : CharOut) (bus : Bus),
    let t := State.afterReset charOut bus
    t.e = true ∧ t.P = 0x34 ∧ t.A = 0 ∧ t.X = 0 ∧ t.Y = 0 ∧ t.DR = 0 ∧ t.DBR = 0 ∧ t.PBR = 0 ∧ t.SP = 0x01FF ∧
    t.run = .running ∧ t.charOut = charOut ∧ t.bus.map = bus.map ∧ t.bus.devices = bus.devices.map Device.reset ∧
    (∀ lo hi, t.bus.byteAt 0x00FFFC = some lo → t.bus.byteAt 0x00FFFD = some hi → t.PC = mkWord hi lo) ∧
    (∀ a, t.bus.isRam a = true → t.bus.byteAt a = some 0x00) ∧
    ∃ evs, t.bus.events = evs ++ bus.events ∧ (readsOf evs).map Prod.fst = [0x00FFFC, 0x00FFFD] ∧ writesOf evs = [] ∧
      charsOf evs = []

/-- The invariant that every step keeps holds after reset in the reference configuration with a blank cartridge (log entry 4). -/
def Obligations.ResetSatisfiesInvariant : Prop := State.reset.Inv

/-! ## The step -/

/-- The invariants of 10_state.md R23 (its native half by decision D5) and R35, for every state: narrow index registers keep a zero high
byte, and in emulation mode the stack pointer stays in page 0x01; the contents of every device keep their canonical form. -/
def Obligations.StepKeepsInvariant : Prop := ∀ s t : State, s.Inv → step s = .next t → t.Inv

/-- A step always completes (40_addressing_modes.md R130, 60_exceptions.md R330), and while `run` is not `Running` it does nothing
(10_state.md R37). -/
def Obligations.StepCompletes : Prop :=
  ∀ s : State, (∃ t, step s = .next t) ∧ (s.run ≠ .running → step s = .next s)

/-- 10_state.md R20: no step changes the address map, the kind, size or ROM image of a device, or the parameter `CHAR_OUT`; and the history
of accesses only grows. -/
def Obligations.StepKeepsConfiguration : Prop :=
  ∀ s t : State, step s = .next t →
    t.bus.map = s.bus.map ∧ t.bus.devices.map Device.shape = s.bus.devices.map Device.shape ∧ t.charOut = s.charOut ∧
    ∃ evs, t.bus.events = evs ++ s.bus.events

/-- Which instructions can change which register: `PBR` by 10_state.md R26, `DBR` by R28, `DR` by R29, `e` by R34, `run` by R37, and `A`,
`X`, `Y` by the access summary for R21 to R23. -/
def Obligations.RegisterWriters : Prop :=
  ∀ (i : Instr) (s t : State), exec i s = .next t →
    (t.PBR ≠ s.PBR → (∃ j, i = .jml j) ∨ (∃ a, i = .jsl a) ∨ i = .rtl ∨ (i = .rti ∧ s.e = false) ∨ (∃ g, i = .brk g) ∨ (∃ g, i = .cop g)) ∧
    (t.DBR ≠ s.DBR → i = .plb ∨ (∃ d c, i = .mvn d c) ∨ (∃ d c, i = .mvp d c)) ∧
    (t.DR ≠ s.DR → i = .tcd ∨ i = .pld) ∧
    (t.e ≠ s.e → i = .xce) ∧
    (t.run ≠ s.run → i = .wai ∨ i = .stp) ∧
    (t.A ≠ s.A → (∃ o, i = .lda o ∨ i = .adc o ∨ i = .sbc o ∨ i = .and o ∨ i = .ora o ∨ i = .eor o) ∨
      i = .asl .acc ∨ i = .lsr .acc ∨ i = .rol .acc ∨ i = .ror .acc ∨ i = .inc .acc ∨ i = .dec .acc ∨
      i = .pla ∨ i = .txa ∨ i = .tya ∨ i = .tdc ∨ i = .tsc ∨ i = .xba ∨ (∃ d c, i = .mvn d c) ∨ (∃ d c, i = .mvp d c)) ∧
    (s.IndexHighZero → t.X ≠ s.X → (∃ o, i = .ldx o) ∨ i = .inx ∨ i = .dex ∨ i = .plx ∨ i = .tax ∨ i = .tyx ∨ i = .tsx ∨
      (∃ d c, i = .mvn d c) ∨ (∃ d c, i = .mvp d c) ∨ (∃ v, i = .sep v) ∨ i = .plp ∨ i = .rti ∨ i = .xce) ∧
    (s.IndexHighZero → t.Y ≠ s.Y → (∃ o, i = .ldy o) ∨ i = .iny ∨ i = .dey ∨ i = .ply ∨ i = .tay ∨ i = .txy ∨
      (∃ d c, i = .mvn d c) ∨ (∃ d c, i = .mvp d c) ∨ (∃ v, i = .sep v) ∨ i = .plp ∨ i = .rti ∨ i = .xce)

/-- 10_state.md R32 and R33: which instructions can change the flags `v`, `c`, `d`, `i`, `m` and `x`. -/
def Obligations.FlagWriters : Prop :=
  ∀ (i : Instr) (s t : State), exec i s = .next t →
    let whole := (∃ v, i = .rep v) ∨ (∃ v, i = .sep v) ∨ i = .plp ∨ i = .rti
    (t.flag .v ≠ s.flag .v → whole ∨ (∃ o, i = .adc o ∨ i = .sbc o) ∨ (∃ m, i = .bit (.mem m)) ∨ i = .clv) ∧
    (t.flag .c ≠ s.flag .c → whole ∨ (∃ o, i = .adc o ∨ i = .sbc o ∨ i = .cmp o ∨ i = .cpx o ∨ i = .cpy o) ∨
      (∃ o, i = .asl o ∨ i = .lsr o ∨ i = .rol o ∨ i = .ror o) ∨ i = .clc ∨ i = .sec ∨ i = .xce) ∧
    (t.flag .d ≠ s.flag .d → whole ∨ i = .sed ∨ i = .cld ∨ (∃ g, i = .brk g) ∨ (∃ g, i = .cop g)) ∧
    (t.flag .i ≠ s.flag .i → whole ∨ i = .sei ∨ i = .cli ∨ (∃ g, i = .brk g) ∨ (∃ g, i = .cop g)) ∧
    (t.flag .m ≠ s.flag .m → whole ∨ i = .xce) ∧
    (t.flag .x ≠ s.flag .x → whole ∨ i = .xce)

/-- 40_addressing_modes.md R163 (decision D10): emulation mode changes no effective-address computation: `e` reaches an address only through
the index widths. -/
def Obligations.EmulationChangesNoAddress : Prop :=
  ∀ (m : Mem) (s : State) (b : Bool), ({ s with e := b } : State).rdX = s.rdX → ({ s with e := b } : State).rdY = s.rdY →
    (({ s with e := b } : State).ea m).1 = (s.ea m).1

/-! ## Decoding -/

/-- Decoding the bytes of a well-formed instruction gives it back, whatever follows, at every operand the encoding admits (30_encoding.md
R101, R103, R104, R105). -/
def Obligations.DecodeInvertsEncode : Prop :=
  ∀ (m8 x8 : Bool) (i : Instr) (rest : List Byte), i.wf m8 x8 = true → decode m8 x8 (encode m8 x8 i ++ rest) = .ok (i, rest)

/-- What the decoder reads is a well-formed instruction whose bytes are those it has read (30_encoding.md R103 to R106). -/
def Obligations.EncodeInvertsDecode : Prop :=
  ∀ (m8 x8 : Bool) (bytes rest : List Byte) (i : Instr), decode m8 x8 bytes = .ok (i, rest) →
    i.wf m8 x8 = true ∧ encode m8 x8 i ++ rest = bytes

/-- 30_encoding.md R102: the length of exactly twelve opcodes depends on a width predicate, on `m8` for eight of them and on `x8` for four;
and every opcode decodes, with a length of one to four bytes. -/
def Obligations.OpcodeLengths : Prop :=
  (∀ (op : Byte) (x : Bool), opLen op true x ≠ opLen op false x ↔
    op ∈ ([0x09, 0x29, 0x49, 0x69, 0x89, 0xA9, 0xC9, 0xE9] : List Byte)) ∧
  (∀ (op : Byte) (m : Bool), opLen op m true ≠ opLen op m false ↔ op ∈ ([0xA0, 0xA2, 0xC0, 0xE0] : List Byte)) ∧
  (∀ (op : Byte) (m8 x8 : Bool), 1 ≤ opLen op m8 x8 ∧ opLen op m8 x8 ≤ 4) ∧
  (∀ (op b1 b2 b3 : Byte) (m8 x8 : Bool), ∃ i rest, decode m8 x8 [op, b1, b2, b3] = .ok (i, rest) ∧ i.len m8 x8 = opLen op m8 x8)

/-- Words written out from the opcode map 30_encoding.md R104 and the formats R101. -/
def Obligations.SampleWordsDecode : Prop :=
  decode true true [0xA9, 0x00, 0x8D] = .ok (.lda (.imm 0x0000), [0x8D]) ∧
  decode false false [0xA9, 0x00, 0x8D] = .ok (.lda (.imm 0x8D00), []) ∧
  decode true false [0xA2, 0x00, 0x80] = .ok (.ldx (.imm 0x8000), []) ∧
  decode true true [0x97, 0x20] = .ok (.sta (.idly 0x20), []) ∧
  decode true true [0x54, 0x7F, 0x7E] = .ok (.mvn 0x7F 0x7E, []) ∧
  decode true true [0x5C, 0x00, 0x80, 0xC0] = .ok (.jml (.abl 0xC08000), []) ∧
  decode true true [0xFC, 0x00, 0x90] = .ok (.jsr (.indx 0x9000), []) ∧
  decode true true [0x00, 0x20] = .ok (.brk 0x20, []) ∧
  decode true true [0xC2, 0x30] = .ok (.rep 0x30, [])

/-- 40_addressing_modes.md R130 with 30_encoding.md R100, R103: the bytes of the instruction are read at `PBR:PC` upward, the offset
wrapping in the bank, and the step is the meaning of the instruction they decode to, in the state after those reads. -/
def Obligations.StepRunsDecodedInstruction : Prop :=
  ∀ (s : State) (n : Nat) (i : Instr), s.run = .running →
    (Fetched n (s.fetchBytes n 0).1 s (s.fetchBytes n 0).2 ∧
      ∀ k < n, ∀ v, s.bus.byteAt (mkAddr s.PBR (s.PC + BitVec.ofNat 16 k)) = some v → (s.fetchBytes n 0).1[k]? = some v) ∧
    (decode s.m8 s.x8 (s.fetchBytes n 0).1 = .ok (i, []) → step s = exec i (s.fetchBytes n 0).2)

/-! ## Operands -/

/-- 40_addressing_modes.md R142 to R144, R150 to R154, R160: the location of every form that reads no pointer; computing it makes no access.
-/
def Obligations.AddressesWithoutPointer : Prop :=
  ∀ (s : State) (d : Byte) (a : Word) (al : Address),
    let x : Word := if s.x8 then zext16 (loByte s.X) else s.X
    let y : Word := if s.x8 then zext16 (loByte s.Y) else s.Y
    s.ea (.dp d) = (.inBank 0 (s.DR + d.setWidth 16), s) ∧
    s.ea (.dpx d) = (.inBank 0 (s.DR + d.setWidth 16 + x), s) ∧
    s.ea (.dpy d) = (.inBank 0 (s.DR + d.setWidth 16 + y), s) ∧
    s.ea (.sr d) = (.inBank 0 (s.SP + d.setWidth 16), s) ∧
    s.ea (.abs a) = (.lin (s.DBR ++ a), s) ∧
    s.ea (.absx a) = (.lin ((s.DBR ++ a) + x.setWidth 24), s) ∧
    s.ea (.absy a) = (.lin ((s.DBR ++ a) + y.setWidth 24), s) ∧
    s.ea (.abl al) = (.lin al, s) ∧
    s.ea (.ablx al) = (.lin (al + x.setWidth 24), s)

/-- 40_addressing_modes.md R145 to R149, R161: the location of every form that reads a pointer, where the pointer's bytes lie in bank 0, and
that reading it changes nothing but the history. -/
def Obligations.AddressesThroughPointer : Prop :=
  ∀ (s : State) (d : Byte),
    let x : Word := if s.x8 then zext16 (loByte s.X) else s.X
    let y : Word := if s.x8 then zext16 (loByte s.Y) else s.Y
    let at0 (off : Word) (k : Nat) : Option Byte := s.bus.byteAt (mkAddr 0 (off + BitVec.ofNat 16 k))
    (∀ lo hi, at0 (s.DR + d.setWidth 16) 0 = some lo → at0 (s.DR + d.setWidth 16) 1 = some hi →
      (s.ea (.idp d)).1 = .lin (s.DBR ++ (hi ++ lo)) ∧
      (s.ea (.idpy d)).1 = .lin ((s.DBR ++ (hi ++ lo)) + y.setWidth 24) ∧
      ∀ bank, at0 (s.DR + d.setWidth 16) 2 = some bank →
        (s.ea (.idl d)).1 = .lin (bank ++ (hi ++ lo)) ∧
        (s.ea (.idly d)).1 = .lin ((bank ++ (hi ++ lo)) + y.setWidth 24)) ∧
    (∀ lo hi, at0 (s.DR + d.setWidth 16 + x) 0 = some lo → at0 (s.DR + d.setWidth 16 + x) 1 = some hi →
      (s.ea (.idpx d)).1 = .lin (s.DBR ++ (hi ++ lo))) ∧
    (∀ lo hi, at0 (s.SP + d.setWidth 16) 0 = some lo → at0 (s.SP + d.setWidth 16) 1 = some hi →
      (s.ea (.isry d)).1 = .lin ((s.DBR ++ (hi ++ lo)) + y.setWidth 24)) ∧
    ∀ m, Frame [] [] [] s (s.ea m).2

/-- 40_addressing_modes.md R132 with 20_memory.md R75: the value an instruction reads is its immediate at exactly the width, or the
little-endian value of `w/8` bytes at the location; reading it changes nothing but the history. -/
def Obligations.OperandValue : Prop :=
  ∀ (s : State) (w : Width),
    (∀ v, s.operand (.imm v) w = (w.trunc v, s)) ∧
    (∀ m lo, s.bus.byteAt ((s.ea m).1.byte 0) = some lo →
      (s.operand (.mem m) .w8).1 = lo.setWidth 16 ∧
      ∀ hi, s.bus.byteAt ((s.ea m).1.byte 1) = some hi → (s.operand (.mem m) .w16).1 = hi ++ lo) ∧
    ∀ o, Frame [] [] [] s (s.operand o w).2

/-- 42_alu.md R190 with 20_memory.md R77 (decision D12): a read-modify-write instruction on memory makes all its data reads, then all its
writes, the low byte first each time, at the bytes of one location. -/
def Obligations.ReadModifyWriteOrder : Prop :=
  ∀ (m : Mem) (i : Instr) (s t : State),
    i ∈ [.inc (.mem m), .dec (.mem m), .asl (.mem m), .lsr (.mem m), .rol (.mem m), .ror (.mem m), .tsb m, .trb m] →
    exec i s = .next t →
    ∃ reads writes, t.bus.events = writes ++ reads ++ (s.ea m).2.bus.events ∧
      writesOf reads = [] ∧ readsOf writes = [] ∧
      (readsOf reads).map Prod.fst = (s.ea m).1.bytes s.wm.bytes ∧ (writesOf writes).map Prod.fst = (s.ea m).1.bytes s.wm.bytes

/-! ## Load and store -/

/-- 41_load_store.md R171. -/
def Obligations.LdaLoadsAccumulator : Prop :=
  ∀ (o : Src) (s : State), let v := (s.operand o s.wm).1
    ∃ t, exec (.lda o) s = .next t ∧ WrittenKeep s.m8 v s.A t.A ∧ HasNZ v s.wm t ∧ FallsThrough (.lda o) s t ∧
      Frame [.A, .PC] [.n, .z] [] s t

/-- 41_load_store.md R172, R173. -/
def Obligations.LdxLdyLoadIndex : Prop :=
  ∀ (o : Src) (s : State), let v := (s.operand o s.wx).1
    (∃ t, exec (.ldx o) s = .next t ∧ WrittenLow s.x8 v t.X ∧ HasNZ v s.wx t ∧ FallsThrough (.ldx o) s t ∧
      Frame [.X, .PC] [.n, .z] [] s t) ∧
    (∃ t, exec (.ldy o) s = .next t ∧ WrittenLow s.x8 v t.Y ∧ HasNZ v s.wx t ∧ FallsThrough (.ldy o) s t ∧
      Frame [.Y, .PC] [.n, .z] [] s t)

/-- 41_load_store.md R174 to R177. -/
def Obligations.StoresWriteMemory : Prop :=
  ∀ (m : Mem) (s : State),
    (∃ t, exec (.sta m) s = .next t ∧ FallsThrough (.sta m) s t ∧ Frame [.PC] [] (valueBytes (s.ea m).1 s.wm s.A) s t) ∧
    (∃ t, exec (.stx m) s = .next t ∧ FallsThrough (.stx m) s t ∧ Frame [.PC] [] (valueBytes (s.ea m).1 s.wx s.X) s t) ∧
    (∃ t, exec (.sty m) s = .next t ∧ FallsThrough (.sty m) s t ∧ Frame [.PC] [] (valueBytes (s.ea m).1 s.wx s.Y) s t) ∧
    (∃ t, exec (.stz m) s = .next t ∧ FallsThrough (.stz m) s t ∧ Frame [.PC] [] (valueBytes (s.ea m).1 s.wm 0) s t)

/-! ## Arithmetic and logic -/

/-- 42_alu.md R191, R192: the result, carry and overflow of the shared adder, on the operand for ADC and on its one's complement for SBC. -/
def Obligations.AdcSbcUseAdder : Prop :=
  ∀ (o : Src) (s : State),
    let a := s.wm.trunc s.A
    let b := (s.operand o s.wm).1
    (let sum := addCore a b (s.flag .c) s.wm (s.flag .d) false
     ∃ t, exec (.adc o) s = .next t ∧ WrittenKeep s.m8 sum.r s.A t.A ∧ t.flag .c = sum.carry ∧ t.flag .v = sum.overflow ∧
      HasNZ sum.r s.wm t ∧ FallsThrough (.adc o) s t ∧ Frame [.A, .PC] [.n, .v, .z, .c] [] s t) ∧
    (let sum := addCore a (s.wm.trunc (~~~b)) (s.flag .c) s.wm (s.flag .d) true
     ∃ t, exec (.sbc o) s = .next t ∧ WrittenKeep s.m8 sum.r s.A t.A ∧ t.flag .c = sum.carry ∧ t.flag .v = sum.overflow ∧
      HasNZ sum.r s.wm t ∧ FallsThrough (.sbc o) s t ∧ Frame [.A, .PC] [.n, .v, .z, .c] [] s t)

/-- 42_alu.md R190 (binary branch) and R192 (what it makes of SBC): the sum modulo 2^w, the carry out of `w` bits, signed overflow; and for
the one's complement of `b` the difference, not-borrow, signed overflow. -/
def Obligations.BinaryAddition : Prop :=
  ∀ (w : Width) (a b : Word) (cin sub : Bool),
    let m := (2 ^ w.bits : Nat)
    let half := (2 ^ (w.bits - 1) : Int)
    let ua := (w.trunc a).toNat
    let ub := (w.trunc b).toNat
    (let sum := addCore (w.trunc a) (w.trunc b) cin w false sub
     let exact := signedValue w a + signedValue w b + cin.toNat
     sum.r.toNat = (ua + ub + cin.toNat) % m ∧
     (sum.carry = true ↔ m ≤ ua + ub + cin.toNat) ∧
     (sum.overflow = true ↔ exact < -half ∨ half ≤ exact)) ∧
    (let sum := addCore (w.trunc a) (w.trunc (~~~(w.trunc b))) cin w false sub
     let exact := signedValue w a - signedValue w b - (!cin).toNat
     (sum.r.toNat : Int) = ((ua : Int) - ub - (!cin).toNat) % m ∧
     (sum.carry = true ↔ ub + (!cin).toNat ≤ ua) ∧
     (sum.overflow = true ↔ exact < -half ∨ half ≤ exact))

/-- 42_alu.md R190 (decimal branch), for every operand, valid decimal digits or not: the chain of digit carries, each digit of the result,
the carry out, and the overflow from the top digit's raw sum. -/
def Obligations.DecimalDigitChain : Prop :=
  ∀ (w : Width) (a b : Word) (cin sub : Bool),
    let k := w.bits / 4
    let sum := addCore a b cin w true sub
    ∃ c : Nat → Bool, c 0 = cin ∧ c k = sum.carry ∧ sum.r.toNat < 2 ^ w.bits ∧
      (∀ i < k, let t := digit a i + digit b i + (c i).toNat
        if sub then c (i + 1) = decide (15 < t) ∧ digit sum.r i = (if t ≤ 15 then (t + 16 - 6) % 16 else t % 16)
        else c (i + 1) = decide (15 < if 9 < t then t + 6 else t) ∧ digit sum.r i = (if 9 < t then t + 6 else t) % 16) ∧
      sum.overflow = (!(w.msb a ^^ w.msb b) &&
        (w.msb a ^^ (digit a (k - 1) + digit b (k - 1) + (c (k - 1)).toNat).testBit 3))

/-- 42_alu.md R190: on valid decimal operands the decimal branch returns the decimal sum and carry, or the decimal difference and
not-borrow, and the result is valid decimal. -/
def Obligations.DecimalArithmetic : Prop :=
  ∀ (w : Width) (a b : Word) (cin : Bool),
    let k := w.bits / 4
    ValidBcd a k → ValidBcd b k →
    (let sum := addCore (w.trunc a) (w.trunc b) cin w true false
     ValidBcd sum.r k ∧ bcdValue sum.r k + 10 ^ k * sum.carry.toNat = bcdValue a k + bcdValue b k + cin.toNat) ∧
    (let sum := addCore (w.trunc a) (w.trunc (~~~b)) cin w true true
     ValidBcd sum.r k ∧
     bcdValue sum.r k + bcdValue b k + (!cin).toNat = bcdValue a k + 10 ^ k * (!sum.carry).toNat)

/-- 42_alu.md R193 to R195. -/
def Obligations.LogicWritesAccumulator : Prop :=
  ∀ (o : Src) (s : State), let v := (s.operand o s.wm).1
    (∃ t, exec (.and o) s = .next t ∧ WrittenKeep s.m8 (s.A &&& v) s.A t.A ∧ HasNZ (s.A &&& v) s.wm t ∧
      FallsThrough (.and o) s t ∧ Frame [.A, .PC] [.n, .z] [] s t) ∧
    (∃ t, exec (.ora o) s = .next t ∧ WrittenKeep s.m8 (s.A ||| v) s.A t.A ∧ HasNZ (s.A ||| v) s.wm t ∧
      FallsThrough (.ora o) s t ∧ Frame [.A, .PC] [.n, .z] [] s t) ∧
    (∃ t, exec (.eor o) s = .next t ∧ WrittenKeep s.m8 (s.A ^^^ v) s.A t.A ∧ HasNZ (s.A ^^^ v) s.wm t ∧
      FallsThrough (.eor o) s t ∧ Frame [.A, .PC] [.n, .z] [] s t)

/-- 42_alu.md R196 to R198: `c` is the unsigned comparison, `n` and `z` are those of the difference at the width, and nothing else changes.
-/
def Obligations.ComparesSetFlags : Prop :=
  ∀ (o : Src) (s : State),
    (let v := (s.operand o s.wm).1
     ∃ t, exec (.cmp o) s = .next t ∧ (t.flag .c = true ↔ v.toNat ≤ (s.wm.trunc s.A).toNat) ∧ HasNZ (s.A - v) s.wm t ∧
      FallsThrough (.cmp o) s t ∧ Frame [.PC] [.n, .z, .c] [] s t) ∧
    (let v := (s.operand o s.wx).1
     (∃ t, exec (.cpx o) s = .next t ∧ (t.flag .c = true ↔ v.toNat ≤ (s.wx.trunc s.X).toNat) ∧ HasNZ (s.X - v) s.wx t ∧
       FallsThrough (.cpx o) s t ∧ Frame [.PC] [.n, .z, .c] [] s t) ∧
     (∃ t, exec (.cpy o) s = .next t ∧ (t.flag .c = true ↔ v.toNat ≤ (s.wx.trunc s.Y).toNat) ∧ HasNZ (s.Y - v) s.wx t ∧
       FallsThrough (.cpy o) s t ∧ Frame [.PC] [.n, .z, .c] [] s t))

/-- 42_alu.md R199: `n` and `v` are bits `w-1` and `w-2` of the memory operand, and the immediate form leaves them. -/
def Obligations.BitTestsOperand : Prop :=
  ∀ (o : Src) (s : State), let v := (s.operand o s.wm).1
    ∃ t, exec (.bit o) s = .next t ∧ (t.flag .z = true ↔ s.wm.trunc (s.A &&& v) = 0) ∧
      (∀ m, o = .mem m → t.flag .n = v.getLsbD (s.wm.bits - 1) ∧ t.flag .v = v.getLsbD (s.wm.bits - 2)) ∧
      FallsThrough (.bit o) s t ∧
      Frame [.PC] (match o with | .imm _ => [.z] | .mem _ => [.z, .n, .v]) [] s t

/-- 42_alu.md R200, R201: `z` is of the value before the write. -/
def Obligations.TsbTrbModifyMemory : Prop :=
  ∀ (m : Mem) (s : State), let v := (s.operand (.mem m) s.wm).1
    (∃ t, exec (.tsb m) s = .next t ∧ (t.flag .z = true ↔ s.wm.trunc (s.A &&& v) = 0) ∧ FallsThrough (.tsb m) s t ∧
      Frame [.PC] [.z] (valueBytes (s.ea m).1 s.wm (v ||| s.A)) s t) ∧
    (∃ t, exec (.trb m) s = .next t ∧ (t.flag .z = true ↔ s.wm.trunc (s.A &&& v) = 0) ∧ FallsThrough (.trb m) s t ∧
      Frame [.PC] [.z] (valueBytes (s.ea m).1 s.wm (v &&& ~~~s.A)) s t)

/-- 42_alu.md R202, R203, for the accumulator and for memory. -/
def Obligations.IncDecByOne : Prop :=
  ∀ (o : Rmw) (s : State), let v := s.rmwValue o
    (∃ t, exec (.inc o) s = .next t ∧ (o = .acc → WrittenKeep s.m8 (v + 1) s.A t.A) ∧ HasNZ (v + 1) s.wm t ∧
      FallsThrough (.inc o) s t ∧ Frame (rmwRegs o) [.n, .z] (s.rmwStores o (v + 1)) s t) ∧
    (∃ t, exec (.dec o) s = .next t ∧ (o = .acc → WrittenKeep s.m8 (v - 1) s.A t.A) ∧ HasNZ (v - 1) s.wm t ∧
      FallsThrough (.dec o) s t ∧ Frame (rmwRegs o) [.n, .z] (s.rmwStores o (v - 1)) s t)

/-- 42_alu.md R204 to R207. -/
def Obligations.IndexStepByOne : Prop :=
  ∀ s : State,
    (∃ t, exec .inx s = .next t ∧ WrittenLow s.x8 (s.X + 1) t.X ∧ HasNZ (s.X + 1) s.wx t ∧ FallsThrough .inx s t ∧
      Frame [.X, .PC] [.n, .z] [] s t) ∧
    (∃ t, exec .iny s = .next t ∧ WrittenLow s.x8 (s.Y + 1) t.Y ∧ HasNZ (s.Y + 1) s.wx t ∧ FallsThrough .iny s t ∧
      Frame [.Y, .PC] [.n, .z] [] s t) ∧
    (∃ t, exec .dex s = .next t ∧ WrittenLow s.x8 (s.X - 1) t.X ∧ HasNZ (s.X - 1) s.wx t ∧ FallsThrough .dex s t ∧
      Frame [.X, .PC] [.n, .z] [] s t) ∧
    (∃ t, exec .dey s = .next t ∧ WrittenLow s.x8 (s.Y - 1) t.Y ∧ HasNZ (s.Y - 1) s.wx t ∧ FallsThrough .dey s t ∧
      Frame [.Y, .PC] [.n, .z] [] s t)

/-- 42_alu.md R208 to R211, for the accumulator and for memory: the value moved by one bit, what enters, and the bit that leaves into `c`.
-/
def Obligations.ShiftsByOneBit : Prop :=
  ∀ (o : Rmw) (s : State),
    let v := s.rmwValue o
    let cin : Word := if s.flag .c then 1 else 0
    let top := s.wm.bits - 1
    let Shifts (i : Instr) (r : Word) (out : Bool) : Prop :=
      ∃ t, exec i s = .next t ∧ (o = .acc → WrittenKeep s.m8 r s.A t.A) ∧ HasNZ r s.wm t ∧ t.flag .c = out ∧
        FallsThrough i s t ∧ Frame (rmwRegs o) [.n, .z, .c] (s.rmwStores o r) s t
    Shifts (.asl o) (v <<< 1) (v.getLsbD top) ∧
    Shifts (.lsr o) (v >>> 1) (v.getLsbD 0) ∧
    Shifts (.rol o) (v <<< 1 ||| cin) (v.getLsbD top) ∧
    Shifts (.ror o) (v >>> 1 ||| cin <<< top) (v.getLsbD 0)

/-! ## Transfers and the stack -/

/-- 43_transfer_stack.md R231 to R237: the width of the destination decides. -/
def Obligations.TransfersAtDestinationWidth : Prop :=
  ∀ s : State,
    (∃ t, exec .tax s = .next t ∧ WrittenLow s.x8 s.A t.X ∧ HasNZ s.A s.wx t ∧ FallsThrough .tax s t ∧ Frame [.X, .PC] [.n, .z] [] s t) ∧
    (∃ t, exec .tay s = .next t ∧ WrittenLow s.x8 s.A t.Y ∧ HasNZ s.A s.wx t ∧ FallsThrough .tay s t ∧ Frame [.Y, .PC] [.n, .z] [] s t) ∧
    (∃ t, exec .tsx s = .next t ∧ WrittenLow s.x8 s.SP t.X ∧ HasNZ s.SP s.wx t ∧ FallsThrough .tsx s t ∧ Frame [.X, .PC] [.n, .z] [] s t) ∧
    (∃ t, exec .txy s = .next t ∧ WrittenLow s.x8 s.X t.Y ∧ HasNZ s.X s.wx t ∧ FallsThrough .txy s t ∧ Frame [.Y, .PC] [.n, .z] [] s t) ∧
    (∃ t, exec .tyx s = .next t ∧ WrittenLow s.x8 s.Y t.X ∧ HasNZ s.Y s.wx t ∧ FallsThrough .tyx s t ∧ Frame [.X, .PC] [.n, .z] [] s t) ∧
    (∃ t, exec .txa s = .next t ∧ WrittenKeep s.m8 s.X s.A t.A ∧ HasNZ s.X s.wm t ∧ FallsThrough .txa s t ∧ Frame [.A, .PC] [.n, .z] [] s t) ∧
    (∃ t, exec .tya s = .next t ∧ WrittenKeep s.m8 s.Y s.A t.A ∧ HasNZ s.Y s.wm t ∧ FallsThrough .tya s t ∧ Frame [.A, .PC] [.n, .z] [] s t)

/-- 43_transfer_stack.md R238 to R243: all 16 bits whatever the widths are; the stack pointer keeps page 0x01 in emulation mode and sets no
flag; XBA takes its flags from the new low byte. -/
def Obligations.SixteenBitTransfers : Prop :=
  ∀ s : State,
    (∃ t, exec .txs s = .next t ∧ t.SP = (if s.e then mkWord 0x01 (loByte s.X) else s.X) ∧ FallsThrough .txs s t ∧
      Frame [.SP, .PC] [] [] s t) ∧
    (∃ t, exec .tcs s = .next t ∧ t.SP = (if s.e then mkWord 0x01 (loByte s.A) else s.A) ∧ FallsThrough .tcs s t ∧
      Frame [.SP, .PC] [] [] s t) ∧
    (∃ t, exec .tcd s = .next t ∧ t.DR = s.A ∧ HasNZ s.A .w16 t ∧ FallsThrough .tcd s t ∧ Frame [.DR, .PC] [.n, .z] [] s t) ∧
    (∃ t, exec .tdc s = .next t ∧ t.A = s.DR ∧ HasNZ s.DR .w16 t ∧ FallsThrough .tdc s t ∧ Frame [.A, .PC] [.n, .z] [] s t) ∧
    (∃ t, exec .tsc s = .next t ∧ t.A = s.SP ∧ HasNZ s.SP .w16 t ∧ FallsThrough .tsc s t ∧ Frame [.A, .PC] [.n, .z] [] s t) ∧
    (∃ t, exec .xba s = .next t ∧ t.A = mkWord (loByte s.A) (hiByte s.A) ∧ HasNZ t.A .w8 t ∧ FallsThrough .xba s t ∧
      Frame [.A, .PC] [.n, .z] [] s t)

/-- 43_transfer_stack.md R245 to R251. -/
def Obligations.PushesStoreRegister : Prop :=
  ∀ s : State,
    let Pushes (i : Instr) (bytes : List Byte) : Prop :=
      ∃ t, exec i s = .next t ∧ t.SP = s.pushSlot bytes.length ∧ FallsThrough i s t ∧ Frame [.SP, .PC] [] (s.pushed 0 bytes) s t
    Pushes .pha (if s.m8 then [loByte s.A] else [hiByte s.A, loByte s.A]) ∧
    Pushes .phx (if s.x8 then [loByte s.X] else [hiByte s.X, loByte s.X]) ∧
    Pushes .phy (if s.x8 then [loByte s.Y] else [hiByte s.Y, loByte s.Y]) ∧
    Pushes .php [s.P] ∧
    Pushes .phb [s.DBR] ∧
    Pushes .phd [hiByte s.DR, loByte s.DR] ∧
    Pushes .phk [s.PBR]

/-- 43_transfer_stack.md R258 to R260. -/
def Obligations.PeaPeiPerPushWord : Prop :=
  ∀ (s : State) (v r : Word) (d : Byte),
    let Pushes (i : Instr) (w : Word) : Prop :=
      ∃ t, exec i s = .next t ∧ t.SP = s.pushSlot 2 ∧ FallsThrough i s t ∧ Frame [.SP, .PC] [] (s.pushed 0 [hiByte w, loByte w]) s t
    Pushes (.pea v) v ∧
    Pushes (.pei d) (s.bus.read16 (.inBank 0 (s.DR + d.setWidth 16))).1 ∧
    Pushes (.per r) (s.PC + 3 + r)

/-- 43_transfer_stack.md R252 to R254: the value is the byte `Pull8` answers when the register is narrow, else the word `Pull16` answers. -/
def Obligations.PullsLoadWidthSwitchedRegister : Prop :=
  ∀ s : State,
    (let v := if s.m8 then zext16 s.pull8.1 else s.pull16.1
     ∃ t, exec .pla s = .next t ∧ WrittenKeep s.m8 v s.A t.A ∧ HasNZ v s.wm t ∧ t.SP = s.pullSlot s.wm.bytes ∧
      FallsThrough .pla s t ∧ Frame [.A, .SP, .PC] [.n, .z] [] s t) ∧
    (let v := if s.x8 then zext16 s.pull8.1 else s.pull16.1
     (∃ t, exec .plx s = .next t ∧ WrittenLow s.x8 v t.X ∧ HasNZ v s.wx t ∧ t.SP = s.pullSlot s.wx.bytes ∧
       FallsThrough .plx s t ∧ Frame [.X, .SP, .PC] [.n, .z] [] s t) ∧
     (∃ t, exec .ply s = .next t ∧ WrittenLow s.x8 v t.Y ∧ HasNZ v s.wx t ∧ t.SP = s.pullSlot s.wx.bytes ∧
       FallsThrough .ply s t ∧ Frame [.Y, .SP, .PC] [.n, .z] [] s t))

/-- 43_transfer_stack.md R255 to R257: PLP replaces the whole of `P` and then clears the high bytes of the index registers where they are
narrow. -/
def Obligations.PullsOfPlpPlbPld : Prop :=
  ∀ s : State,
    (∃ t, exec .plp s = .next t ∧ t.P = s.pull8.1 ∧
      t.X = (if s.e || t.flag .x then zext16 (loByte s.X) else s.X) ∧ t.Y = (if s.e || t.flag .x then zext16 (loByte s.Y) else s.Y) ∧
      t.SP = s.pullSlot 1 ∧ FallsThrough .plp s t ∧ Frame [.X, .Y, .SP, .PC] Flag.all [] s t) ∧
    (∃ t, exec .plb s = .next t ∧ t.DBR = s.pull8.1 ∧ HasNZ (zext16 s.pull8.1) .w8 t ∧ t.SP = s.pullSlot 1 ∧
      FallsThrough .plb s t ∧ Frame [.DBR, .SP, .PC] [.n, .z] [] s t) ∧
    (∃ t, exec .pld s = .next t ∧ t.DR = s.pull16.1 ∧ HasNZ s.pull16.1 .w16 t ∧ t.SP = s.pullSlot 2 ∧
      FallsThrough .pld s t ∧ Frame [.DR, .SP, .PC] [.n, .z] [] s t)

/-- 43_transfer_stack.md R261 to R263: one pass of a block move, and when the instruction is left. -/
def Obligations.BlockMovePass : Prop :=
  ∀ (dst src : Byte) (s : State),
    let v := (s.bus.read8 (mkAddr src s.X)).1
    let Pass (i : Instr) (x y : Word) : Prop :=
      ∃ t, exec i s = .next t ∧ t.DBR = dst ∧ WrittenLow s.x8 x t.X ∧ WrittenLow s.x8 y t.Y ∧ t.A = s.A - 1 ∧
        t.PC = (if s.A = 0 then s.PC + 3 else s.PC) ∧ Frame [.A, .X, .Y, .DBR, .PC] [] [(mkAddr dst s.Y, v)] s t
    Pass (.mvn dst src) (s.X + 1) (s.Y + 1) ∧ Pass (.mvp dst src) (s.X - 1) (s.Y - 1)

/-! ## Control flow -/

/-- 44_control_flow.md R281 to R290 with 40_addressing_modes.md R158, R159. -/
def Obligations.BranchesAssignPC : Prop :=
  ∀ (s : State) (r : Byte) (long : Word),
    let Goes (i : Instr) (target : Word) : Prop := ∃ t, exec i s = .next t ∧ t.PC = target ∧ Frame [.PC] [] [] s t
    let Branch (i : Instr) (taken : Prop) [Decidable taken] : Prop :=
      Goes i (if taken then s.PC + 2 + r.signExtend 16 else s.PC + 2)
    Branch (.bcc r) (s.flag .c = false) ∧ Branch (.bcs r) (s.flag .c = true) ∧
    Branch (.bne r) (s.flag .z = false) ∧ Branch (.beq r) (s.flag .z = true) ∧
    Branch (.bpl r) (s.flag .n = false) ∧ Branch (.bmi r) (s.flag .n = true) ∧
    Branch (.bvc r) (s.flag .v = false) ∧ Branch (.bvs r) (s.flag .v = true) ∧
    Goes (.bra r) (s.PC + 2 + r.signExtend 16) ∧ Goes (.brl long) (s.PC + 3 + long)

/-- 44_control_flow.md R291, R292 with 40_addressing_modes.md R155 to R157. -/
def Obligations.JumpsAssignPC : Prop :=
  ∀ (s : State) (a : Word) (al : Address),
    let x : Word := if s.x8 then zext16 (loByte s.X) else s.X
    (∃ t, exec (.jmp (.abs a)) s = .next t ∧ t.PC = a ∧ Frame [.PC] [] [] s t) ∧
    (∃ t, exec (.jmp (.ind a)) s = .next t ∧ t.PC = (s.bus.read16 (.inBank 0 a)).1 ∧ Frame [.PC] [] [] s t) ∧
    (∃ t, exec (.jmp (.indx a)) s = .next t ∧ t.PC = (s.bus.read16 (.inBank s.PBR (a + x))).1 ∧ Frame [.PC] [] [] s t) ∧
    (∃ t, exec (.jml (.abl al)) s = .next t ∧ t.PBR = bankOf al ∧ t.PC = offsetOf al ∧ Frame [.PC, .PBR] [] [] s t) ∧
    (∃ t, exec (.jml (.indl a)) s = .next t ∧ t.PBR = bankOf (s.bus.read24 (.inBank 0 a)).1 ∧
      t.PC = offsetOf (s.bus.read24 (.inBank 0 a)).1 ∧ Frame [.PC, .PBR] [] [] s t)

/-- 44_control_flow.md R293, R294: the return address pushed is the offset of the instruction's last byte, and the pointer of JSR (abs,X) is
read after the push. -/
def Obligations.CallsPushReturnAddress : Prop :=
  ∀ (s : State) (a : Word) (al : Address),
    let x : Word := if s.x8 then zext16 (loByte s.X) else s.X
    let ra := s.PC + 2
    (∃ t, exec (.jsr (.abs a)) s = .next t ∧ t.PC = a ∧ t.SP = s.pushSlot 2 ∧
      Frame [.PC, .SP] [] (s.pushed 0 [hiByte ra, loByte ra]) s t) ∧
    (∃ t, exec (.jsr (.indx a)) s = .next t ∧ t.SP = s.pushSlot 2 ∧
      LastWordRead (.inBank s.PBR (a + x)) t.PC t ∧
      (∀ lo hi, t.bus.byteAt (mkAddr s.PBR (a + x)) = some lo → t.bus.byteAt (mkAddr s.PBR (a + x + 1)) = some hi →
        t.PC = mkWord hi lo) ∧
      Frame [.PC, .SP] [] (s.pushed 0 [hiByte ra, loByte ra]) s t) ∧
    (∃ t, exec (.jsl al) s = .next t ∧ t.PBR = bankOf al ∧ t.PC = offsetOf al ∧ t.SP = s.pushSlot 3 ∧
      Frame [.PC, .PBR, .SP] [] (s.pushed 0 [s.PBR, hiByte (s.PC + 3), loByte (s.PC + 3)]) s t)

/-- 44_control_flow.md R295, R296. -/
def Obligations.ReturnsPullPC : Prop :=
  ∀ s : State,
    (∃ t, exec .rts s = .next t ∧ t.PC = s.pull16.1 + 1 ∧ t.SP = s.pullSlot 2 ∧ Frame [.PC, .SP] [] [] s t) ∧
    (∃ t, exec .rtl s = .next t ∧ t.PC = s.pull16.1 + 1 ∧ t.PBR = s.pull16.2.pull8.1 ∧ t.SP = s.pullSlot 3 ∧
      Frame [.PC, .PBR, .SP] [] [] s t)

/-! ## Status and system -/

/-- 45_status_system.md R300 to R306. -/
def Obligations.FlagInstructionsWriteOneFlag : Prop :=
  ∀ s : State,
    let Sets (i : Instr) (f : Flag) (b : Bool) : Prop :=
      ∃ t, exec i s = .next t ∧ t.flag f = b ∧ FallsThrough i s t ∧ Frame [.PC] [f] [] s t
    Sets .clc .c false ∧ Sets .sec .c true ∧ Sets .cli .i false ∧ Sets .sei .i true ∧ Sets .cld .d false ∧ Sets .sed .d true ∧
    Sets .clv .v false

/-- 45_status_system.md R307, R308 with 10_state.md R36. -/
def Obligations.RepSepWriteStatus : Prop :=
  ∀ (v : Byte) (s : State),
    let Writes (i : Instr) (p : Byte) : Prop :=
      ∃ t, exec i s = .next t ∧ t.P = p ∧
        t.X = (if s.e || t.flag .x then zext16 (loByte s.X) else s.X) ∧ t.Y = (if s.e || t.flag .x then zext16 (loByte s.Y) else s.Y) ∧
        t.SP = (if s.e then mkWord 0x01 (loByte s.SP) else s.SP) ∧ FallsThrough i s t ∧
        Frame [.X, .Y, .SP, .PC] Flag.all [] s t
    Writes (.rep v) (s.P &&& ~~~v) ∧ Writes (.sep v) (s.P ||| v)

/-- 45_status_system.md R309 (decision D4) with 10_state.md R34, R36. -/
def Obligations.XceExchangesCarryAndEmulation : Prop :=
  ∀ s : State, ∃ t, exec .xce s = .next t ∧ t.e = s.flag .c ∧ t.flag .c = s.e ∧
    t.flag .m = (t.e || s.flag .m) ∧ t.flag .x = (t.e || s.flag .x) ∧
    t.X = (if t.flag .x then zext16 (loByte s.X) else s.X) ∧ t.Y = (if t.flag .x then zext16 (loByte s.Y) else s.Y) ∧
    t.SP = (if t.e then mkWord 0x01 (loByte s.SP) else s.SP) ∧ FallsThrough .xce s t ∧
    Frame [.X, .Y, .SP, .e, .PC] [.c, .m, .x] [] s t

/-- 45_status_system.md R310, R311 (decisions D19 and D20), R317, R318 (decision D18); the character event stands in the history of log
entry 7. -/
def Obligations.NopWdmWaiStp : Prop :=
  ∀ (sig : Byte) (s : State),
    (∃ t, exec .nop s = .next t ∧ FallsThrough .nop s t ∧ Frame [.PC] [] [] s t) ∧
    exec (.wdm sig) s = .next
      { s with
        PC := s.PC + 2
        bus := { s.bus with
          events := (match s.charOut with
            | .none => []
            | .wdmOperand => [.charOut sig]
            | .wdmAccLow => [.charOut (loByte s.A)]) ++ s.bus.events } } ∧
    (∃ t, exec .wai s = .next t ∧ t.run = .waiting ∧ FallsThrough .wai s t ∧ Frame [.run, .PC] [] [] s t) ∧
    (∃ t, exec .stp s = .next t ∧ t.run = .stopped ∧ FallsThrough .stp s t ∧ Frame [.run, .PC] [] [] s t)

/-- 60_exceptions.md R333, 45_status_system.md R313, R314: what a software interrupt saves, in which order, what the status becomes, and
where the program goes, in each mode. -/
def Obligations.SoftwareInterruptEntry : Prop :=
  ∀ (sig : Byte) (s : State),
    let ra := s.PC + 2
    let Enters (i : Instr) (bytes : List Byte) (vec : Word) : Prop :=
      ∃ t, exec i s = .next t ∧ t.SP = s.pushSlot bytes.length ∧ t.flag .i = true ∧ t.flag .d = false ∧ t.PBR = 0 ∧
        LastWordRead (.inBank 0 vec) t.PC t ∧
        (∀ lo hi, t.bus.byteAt (mkAddr 0 vec) = some lo → t.bus.byteAt (mkAddr 0 (vec + 1)) = some hi → t.PC = mkWord hi lo) ∧
        Frame [.SP, .PBR, .PC] [.i, .d] (s.pushed 0 bytes) s t
    (s.e = false →
      Enters (.brk sig) [s.PBR, hiByte ra, loByte ra, s.P] 0xFFE6 ∧
      Enters (.cop sig) [s.PBR, hiByte ra, loByte ra, s.P] 0xFFE4) ∧
    (s.e = true →
      Enters (.brk sig) [hiByte ra, loByte ra, s.P ||| 0x10] 0xFFFE ∧
      Enters (.cop sig) [hiByte ra, loByte ra, s.P] 0xFFF4)

/-- 45_status_system.md R315, 60_exceptions.md R338: `P`, then `PC` without an increment, then in native mode `PBR`. -/
def Obligations.RtiRestores : Prop :=
  ∀ s : State, ∃ t, exec .rti s = .next t ∧ t.P = s.pull8.1 ∧ t.PC = s.pull8.2.pull16.1 ∧
    t.PBR = (if s.e then s.PBR else s.pull8.2.pull16.2.pull8.1) ∧ t.SP = s.pullSlot (if s.e then 3 else 4) ∧
    t.X = (if s.e || t.flag .x then zext16 (loByte s.X) else s.X) ∧ t.Y = (if s.e || t.flag .x then zext16 (loByte s.Y) else s.Y) ∧
    Frame [.X, .Y, .SP, .PC, .PBR] Flag.all [] s t

/-! ## Sequences and observation -/

/-- 10_state.md R24: the high byte of the accumulator that a narrow width hides is not changed by narrow writes, and a wide width exposes
it. -/
def Obligations.StaleHighByte : Prop :=
  ∀ (s s1 s2 s3 s4 s5 : State) (v w : Word), s.e = false →
    exec (.rep 0x20) s = .next s1 → exec (.lda (.imm v)) s1 = .next s2 → exec (.sep 0x20) s2 = .next s3 →
    exec (.lda (.imm w)) s3 = .next s4 → exec (.rep 0x20) s4 = .next s5 →
    s5.A = mkWord (hiByte v) (loByte w) ∧ s5.m8 = false

/-- 60_exceptions.md R338, 44_control_flow.md R293, R295: where the stack is RAM whose bytes in use are distinct, RTS after JSR goes on
after the JSR with the stack pointer as it was, and RTI after BRK or COP restores `PC`, `PBR` in native mode, the stack pointer and the
status. -/
def Obligations.ReturnsUndoCalls : Prop :=
  ∀ (s t : State) (i : Instr), s.Inv →
    (∀ k < 4, s.bus.isRam (mkAddr 0 (s.pushSlot k)) = true) →
    (∀ j < 4, ∀ k < 4, j ≠ k → s.bus.sameByte (mkAddr 0 (s.pushSlot j)) (mkAddr 0 (s.pushSlot k)) = false) →
    exec i s = .next t →
    let Restores (p : Byte) : Prop :=
      ∃ u, exec .rti t = .next u ∧ u.PC = s.PC + 2 ∧ (s.e = false → u.PBR = s.PBR) ∧ u.SP = s.SP ∧ u.X = s.X ∧ u.Y = s.Y ∧ u.P = p
    ((∃ j, i = .jsr j) → ∃ u, exec .rts t = .next u ∧ u.PC = s.PC + 3 ∧ u.SP = s.SP) ∧
    ((∃ a, i = .jsl a) → ∃ u, exec .rtl t = .next u ∧ u.PC = s.PC + 4 ∧ u.PBR = s.PBR ∧ u.SP = s.SP) ∧
    ((∃ g, i = .brk g) → Restores (if s.e then s.P ||| 0x10 else s.P)) ∧
    ((∃ g, i = .cop g) → Restores s.P)

/-- 30_encoding.md R122 (decision D24): the disassembler changes no register, no device and no part of the configuration; where no byte that
the walk itself reads is of an MMIO device its answer depends on nothing but those bytes and its inputs. The reads are those of the history
(log entry 7), the bytes those of log entry 15. -/
def Obligations.DisassemblerObserves : Prop :=
  (∀ (s : State) (start : Address) (n : Nat) (m x e c : Bool), ∃ evs,
    (s.disassemble start n m x e c).2 = { s with bus := { s.bus with events := evs ++ s.bus.events } } ∧
    writesOf evs = [] ∧ charsOf evs = [] ∧ (s.disassemble start n m x e c).1.length = n) ∧
  (∀ (s t : State) (start : Address) (n : Nat) (m x e c c' : Bool) (evs : List Event),
    (s.disassemble start n m x e c).2.bus.events = evs ++ s.bus.events →
    (∀ p ∈ readsOf evs, ∃ v, s.bus.byteAt p.1 = some v ∧ t.bus.byteAt p.1 = some v) →
    (s.disassemble start n m x e c).1 = (t.disassemble start n m x e c').1)
end

