-- ==== Sys2Proof/Laws/Bits.lean ====
section
/-! SUPPORT. Bytes put together and taken apart again. -/

namespace Sys2Proof

@[simp] theorem loByte_mkWord (hi lo : Byte) : loByte (mkWord hi lo) = lo := by
  apply BitVec.eq_of_getLsbD_eq
  intro i hi'
  simp only [loByte, mkWord, BitVec.getLsbD_extractLsb', BitVec.getLsbD_append]
  simp [hi']

@[simp] theorem hiByte_mkWord (hi lo : Byte) : hiByte (mkWord hi lo) = hi := by
  apply BitVec.eq_of_getLsbD_eq
  intro i hi'
  simp only [hiByte, mkWord, BitVec.getLsbD_extractLsb', BitVec.getLsbD_append]
  simp [hi']

@[simp] theorem mkWord_hi_lo (v : Word) : mkWord (hiByte v) (loByte v) = v := by
  apply BitVec.eq_of_getLsbD_eq
  intro i hi
  simp only [loByte, hiByte, mkWord, BitVec.getLsbD_append, BitVec.getLsbD_extractLsb']
  by_cases h : i < 8
  · simp [h]
  · simp [h, show i - 8 < 8 by omega, show 8 + (i - 8) = i by omega]

@[simp] theorem loByte_zext16 (b : Byte) : loByte (zext16 b) = b := by
  apply BitVec.eq_of_getLsbD_eq
  intro i hi
  simp [loByte, zext16, hi]
  omega

@[simp] theorem hiByte_zext16 (b : Byte) : hiByte (zext16 b) = 0 := by
  apply BitVec.eq_of_getLsbD_eq
  intro i hi
  simp [hiByte, zext16]

theorem zext16_eq (b : Byte) : zext16 b = mkWord 0 b := by
  rw [← mkWord_hi_lo (zext16 b)]
  simp

@[simp] theorem bankOf_mkAddr (bank : Byte) (off : Word) : bankOf (mkAddr bank off) = bank := by
  apply BitVec.eq_of_getLsbD_eq
  intro i hi
  simp only [bankOf, mkAddr, BitVec.getLsbD_extractLsb', BitVec.getLsbD_append]
  simp [hi]

@[simp] theorem offsetOf_mkAddr (bank : Byte) (off : Word) : offsetOf (mkAddr bank off) = off := by
  apply BitVec.eq_of_getLsbD_eq
  intro i hi
  simp only [offsetOf, mkAddr, BitVec.getLsbD_extractLsb', BitVec.getLsbD_append]
  simp [hi]

@[simp] theorem mkAddr_bank_offset (a : Address) : mkAddr (bankOf a) (offsetOf a) = a := by
  apply BitVec.eq_of_getLsbD_eq
  intro i hi
  simp only [bankOf, offsetOf, mkAddr, BitVec.getLsbD_append, BitVec.getLsbD_extractLsb']
  by_cases h : i < 16
  · simp [h]
  · simp [h, show i - 16 < 8 by omega, show 16 + (i - 16) = i by omega]

/-- A value is narrow when its high byte is zero. -/
theorem zext16_loByte_of_hiByte (v : Word) (h : hiByte v = 0) : zext16 (loByte v) = v := by
  rw [zext16_eq, ← h, mkWord_hi_lo]

@[simp] theorem Width.trunc_trunc (w : Width) (v : Word) : w.trunc (w.trunc v) = w.trunc v := by
  cases w <;> simp [Width.trunc]

@[simp] theorem Width.loByte_trunc (w : Width) (v : Word) : loByte (w.trunc v) = loByte v := by
  cases w <;> simp [Width.trunc]

/-! ## The low byte of a computed value -/

theorem loByte_eq_setWidth (v : Word) : loByte v = v.setWidth 8 := by
  apply BitVec.eq_of_getLsbD_eq
  intro i hi
  simp [loByte, hi]

theorem loByte_and (a b : Word) : loByte (a &&& b) = loByte a &&& loByte b := by simp [loByte_eq_setWidth]

theorem loByte_or (a b : Word) : loByte (a ||| b) = loByte a ||| loByte b := by simp [loByte_eq_setWidth]

theorem loByte_xor (a b : Word) : loByte (a ^^^ b) = loByte a ^^^ loByte b := by simp [loByte_eq_setWidth]

theorem loByte_not (a : Word) : loByte (~~~a) = ~~~loByte a := by
  simp only [loByte_eq_setWidth]
  apply BitVec.eq_of_getLsbD_eq
  intro i hi
  simp [hi, show i < 16 by omega]

theorem loByte_add (a b : Word) : loByte (a + b) = loByte a + loByte b := by
  simp only [loByte_eq_setWidth]
  exact BitVec.setWidth_add a b (by omega)

theorem loByte_sub (a b : Word) : loByte (a - b) = loByte a - loByte b := by
  simp only [loByte_eq_setWidth]
  apply BitVec.eq_of_toNat_eq
  simp [BitVec.toNat_sub]
  omega

/-- A value at a width is decided by its low byte when the width is 8. -/
theorem Width.trunc_eq_iff (w : Width) (u v : Word) :
    w.trunc u = w.trunc v ↔ match w with | .w8 => loByte u = loByte v | .w16 => u = v := by
  cases w
  · constructor
    · intro h
      simpa [Width.trunc] using congrArg loByte h
    · intro h
      simp only at h
      simp [Width.trunc, h]
  · exact Iff.rfl

/-- Truncating the first operand first changes no result whose low byte depends on the low bytes alone. -/
theorem Width.trunc_left (w : Width) (f : Word → Word → Word)
    (hf : ∀ a a' b, loByte a = loByte a' → loByte (f a b) = loByte (f a' b)) (a b : Word) :
    w.trunc (f (w.trunc a) b) = w.trunc (f a b) := by
  rw [Width.trunc_eq_iff]
  cases w
  · exact hf _ _ _ (Width.loByte_trunc .w8 a)
  · rfl

/-- A conjunction with a truncated value is truncated. -/
theorem Width.trunc_and (w : Width) (a b : Word) : w.trunc a &&& b = w.trunc (a &&& b) := by
  cases w
  · apply BitVec.eq_of_getLsbD_eq
    intro i hi
    by_cases h : i < 8
    · simp [Width.trunc, zext16, loByte_eq_setWidth, hi, h]
    · simp [Width.trunc, zext16, loByte_eq_setWidth, h]
  · rfl

theorem Width.msb_congr (w : Width) (u v : Word) (h : w.trunc u = w.trunc v) : w.msb u = w.msb v := by
  rw [Width.trunc_eq_iff] at h
  cases w
  · have h7 := congrArg (fun b : Byte => b.getLsbD 7) h
    simpa [loByte_eq_setWidth, Width.msb, Width.bits] using h7
  · exact congrArg _ h

end Sys2Proof
end

