-- ==== Sys2Proof/Laws/Memory.lean ====
section
/-! SUPPORT. Reading after writing, and the canonical form, which every write keeps. -/

namespace Sys2Proof.Memory

theorem read_erase_same (m : Memory) (o : Nat) : read (erase m o) o = unlisted := by
  induction m with
  | nil => rfl
  | cons c rest ih =>
    obtain ⟨a, w⟩ := c
    by_cases h : a = o
    · subst h
      simpa [erase] using ih
    · have : erase ((a, w) :: rest) o = (a, w) :: erase rest o := by simp [erase, h]
      rw [this]
      simpa [read, h] using ih

theorem read_erase_other (m : Memory) (o p : Nat) (h : p ≠ o) : read (erase m o) p = read m p := by
  induction m with
  | nil => rfl
  | cons c rest ih =>
    obtain ⟨a, w⟩ := c
    by_cases ha : a = o
    · subst ha
      have : erase ((a, w) :: rest) a = erase rest a := by simp [erase]
      rw [this, ih]
      simp [read, Ne.symm h]
    · have : erase ((a, w) :: rest) o = (a, w) :: erase rest o := by simp [erase, ha]
      rw [this]
      simp [read, ih]

theorem read_insert_same (m : Memory) (o : Nat) (v : Byte) : read (insert m o v) o = v := by
  induction m with
  | nil => simp [insert, read]
  | cons c rest ih =>
    obtain ⟨a, w⟩ := c
    by_cases h : a < o
    · simp [insert, h, read, Nat.ne_of_lt h, ih]
    · simp [insert, h, read]

theorem read_insert_other (m : Memory) (o p : Nat) (v : Byte) (h : p ≠ o) : read (insert m o v) p = read m p := by
  induction m with
  | nil => simp [insert, read, Ne.symm h]
  | cons c rest ih =>
    obtain ⟨a, w⟩ := c
    by_cases ha : a < o
    · simp [insert, ha, read, ih]
    · simp [insert, ha, read, Ne.symm h]

/-- A read of the offset written returns the byte written. -/
@[simp] theorem read_write_same (m : Memory) (o : Nat) (v : Byte) : read (write m o v) o = v := by
  unfold write
  split
  · rename_i h
    rw [read_erase_same, h]
  · exact read_insert_same _ o v

/-- A read of any other offset is what it was. -/
theorem read_write_other (m : Memory) (o p : Nat) (v : Byte) (h : p ≠ o) : read (write m o v) p = read m p := by
  unfold write
  split
  · exact read_erase_other m o p h
  · rw [read_insert_other _ o p v h, read_erase_other m o p h]

theorem wfFrom_mono (size b b' : Nat) (m : Memory) (hb : b' ≤ b) (h : wfFrom size b m = true) : wfFrom size b' m = true := by
  cases m with
  | nil => rfl
  | cons c rest =>
    simp only [wfFrom, Bool.and_eq_true, decide_eq_true_eq] at h ⊢
    exact ⟨⟨⟨by omega, h.1.1.2⟩, h.1.2⟩, h.2⟩

theorem wfFrom_erase (size b : Nat) (m : Memory) (o : Nat) (h : wfFrom size b m = true) : wfFrom size b (erase m o) = true := by
  induction m generalizing b with
  | nil => rfl
  | cons c rest ih =>
    obtain ⟨a, w⟩ := c
    simp only [wfFrom, Bool.and_eq_true, decide_eq_true_eq] at h
    by_cases ha : a = o
    · have : erase ((a, w) :: rest) o = erase rest o := by simp [erase, ha]
      rw [this]
      exact wfFrom_mono size (a + 1) b _ (by omega) (ih (a + 1) h.2)
    · have : erase ((a, w) :: rest) o = (a, w) :: erase rest o := by simp [erase, ha]
      rw [this]
      simp only [wfFrom, Bool.and_eq_true, decide_eq_true_eq]
      exact ⟨h.1, ih (a + 1) h.2⟩

theorem mem_erase (m : Memory) (o : Nat) (c : Host.Cell) (h : c ∈ erase m o) : c.1 ≠ o := by
  simpa [erase] using (List.mem_filter.mp h).2

theorem wfFrom_insert (size b : Nat) (m : Memory) (o : Nat) (v : Byte) (hb : b ≤ o) (ho : o < size) (hv : v ≠ unlisted)
    (hm : ∀ c ∈ m, c.1 ≠ o) (h : wfFrom size b m = true) : wfFrom size b (insert m o v) = true := by
  induction m generalizing b with
  | nil => simp [insert, wfFrom, hb, ho, hv]
  | cons c rest ih =>
    obtain ⟨a, w⟩ := c
    have hao : a ≠ o := hm (a, w) (by simp)
    simp only [wfFrom, Bool.and_eq_true, decide_eq_true_eq] at h
    by_cases ha : a < o
    · simp only [insert, ha, if_true, wfFrom, Bool.and_eq_true, decide_eq_true_eq]
      exact ⟨h.1, ih (a + 1) (by omega) (fun c hc => hm c (by simp [hc])) h.2⟩
    · simp only [insert, ha, if_false, wfFrom, Bool.and_eq_true, decide_eq_true_eq]
      exact ⟨⟨⟨hb, ho⟩, hv⟩, ⟨⟨by omega, h.1.1.2⟩, h.1.2⟩, h.2⟩

/-- A write below the size keeps the canonical form. -/
theorem wf_write (size : Nat) (m : Memory) (o : Nat) (v : Byte) (ho : o < size) (h : wf size m = true) :
    wf size (write m o v) = true := by
  unfold write
  split
  · exact wfFrom_erase size 0 m o h
  · rename_i hv
    exact wfFrom_insert size 0 _ o v (Nat.zero_le o) ho hv (fun c hc => mem_erase m o c hc) (wfFrom_erase size 0 m o h)

/-- An entry of a canonical list is what reading its offset gives. -/
theorem read_of_lt_bound (size b : Nat) (m : Memory) (o : Nat) (ho : o < b) (h : wfFrom size b m = true) : read m o = unlisted := by
  induction m generalizing b with
  | nil => rfl
  | cons c rest ih =>
    obtain ⟨a, w⟩ := c
    simp only [wfFrom, Bool.and_eq_true, decide_eq_true_eq] at h
    have hao : a ≠ o := by omega
    simp [read, hao, ih (a + 1) (by omega) h.2]

/-- Equal contents are equal lists. -/
theorem wfFrom_ext (size b : Nat) (m m' : Memory) (h : wfFrom size b m = true) (h' : wfFrom size b m' = true)
    (hr : ∀ o, read m o = read m' o) : m = m' := by
  induction m generalizing b m' with
  | nil =>
    cases m' with
    | nil => rfl
    | cons c rest =>
      obtain ⟨a, w⟩ := c
      simp only [wfFrom, Bool.and_eq_true, decide_eq_true_eq] at h'
      have := hr a
      simp [read] at this
      exact absurd this.symm h'.1.2
  | cons c rest ih =>
    obtain ⟨a, w⟩ := c
    have h0 := h
    simp only [wfFrom, Bool.and_eq_true, decide_eq_true_eq] at h
    cases m' with
    | nil =>
      have := hr a
      simp [read] at this
      exact absurd this h.1.2
    | cons c' rest' =>
      obtain ⟨a', w'⟩ := c'
      have h0' := h'
      simp only [wfFrom, Bool.and_eq_true, decide_eq_true_eq] at h'
      have haa : a = a' := by
        rcases Nat.lt_trichotomy a a' with hlt | heq | hgt
        · have h1 := hr a
          have h2 : read ((a', w') :: rest') a = unlisted := by
            simp [read, Nat.ne_of_gt hlt, read_of_lt_bound size (a' + 1) rest' a (by omega) h'.2]
          rw [h2] at h1
          simp [read] at h1
          exact absurd h1 h.1.2
        · exact heq
        · have h1 := hr a'
          have h2 : read ((a, w) :: rest) a' = unlisted := by
            simp [read, Nat.ne_of_gt hgt, read_of_lt_bound size (a + 1) rest a' (by omega) h.2]
          rw [h2] at h1
          simp [read] at h1
          exact absurd h1.symm h'.1.2
      subst haa
      have hw : w = w' := by simpa [read] using hr a
      subst hw
      have hrest : rest = rest' := by
        apply ih (a + 1) rest' h.2 h'.2
        intro o
        by_cases ho : o = a
        · subst ho
          rw [read_of_lt_bound size (o + 1) rest o (by omega) h.2, read_of_lt_bound size (o + 1) rest' o (by omega) h'.2]
        · have := hr o
          simpa [read, Ne.symm ho] using this
      rw [hrest]

end Sys2Proof.Memory
end

