-- ==== Sys2Proof/Laws/Bus.lean ====
section
/-! SUPPORT. What the single-byte accesses of the bus do: an access never changes what an address resolves to, a read changes only the
history, and a write changes the one byte it reaches. Every wider access is put together from these by `Bus.Frame.trans`. -/

namespace Sys2Proof

@[simp] theorem Device.size_shape (d : Device) : d.shape.size = d.size := by cases d <;> rfl

@[simp] theorem Device.shape_writeByte (o : Nat) (v : Byte) (d : Device) : (d.writeByte o v).shape = d.shape := by cases d <;> rfl

theorem getElem?_shape {ds ds' : List Device} (h : ds'.map Device.shape = ds.map Device.shape) (k : Nat) :
    (ds'[k]?).map Device.shape = (ds[k]?).map Device.shape := by
  rw [← List.getElem?_map, ← List.getElem?_map, h]

theorem resolveIn_congr {ds ds' : List Device} (h : ds'.map Device.shape = ds.map Device.shape) (a : Nat) (rows : List MapRow) :
    resolveIn ds' a rows = resolveIn ds a rows := by
  induction rows with
  | nil => rfl
  | cons row rows ih =>
    have hk := getElem?_shape h row.dev
    unfold resolveIn
    split
    · cases h1 : ds'[row.dev]? with
      | none =>
        cases h2 : ds[row.dev]? with
        | none => rfl
        | some d => simp [h1, h2] at hk
      | some d' =>
        cases h2 : ds[row.dev]? with
        | none => simp [h1, h2] at hk
        | some d =>
          simp only [h1, h2, Option.map_some, Option.some.injEq] at hk
          have : d'.size = d.size := by rw [← Device.size_shape d', hk, Device.size_shape]
          simp [this]
    · exact ih

/-- An address resolves to a device of the list, at an offset reduced by its size. -/
theorem resolveIn_mapped {ds : List Device} {a dev off : Nat} {rows : List MapRow} (h : resolveIn ds a rows = .mapped dev off) :
    ∃ d, ds[dev]? = some d ∧ (1 ≤ d.size → off < d.size) := by
  induction rows with
  | nil => simp [resolveIn] at h
  | cons row rows ih =>
    unfold resolveIn at h
    split at h
    · cases h1 : ds[row.dev]? with
      | none => simp [h1] at h
      | some d =>
        simp only [h1, Target.mapped.injEq] at h
        obtain ⟨rfl, rfl⟩ := h
        exact ⟨d, h1, fun hs => Nat.mod_lt _ hs⟩
    · exact ih h

theorem MapRow.covers_iff (r : MapRow) (a : Nat) : r.covers a = true ↔ r.first ≤ a ∧ a ≤ r.last := by
  simp [MapRow.covers]

/-- Rows that do not cover the address are passed over. -/
theorem resolveIn_append (ds : List Device) (a : Nat) (before after : List MapRow) (h : ∀ r ∈ before, r.covers a = false) :
    resolveIn ds a (before ++ after) = resolveIn ds a after := by
  induction before with
  | nil => rfl
  | cons r rest ih =>
    simp only [List.cons_append, resolveIn, h r (by simp), Bool.false_eq_true, if_false]
    exact ih (fun r hr => h r (by simp [hr]))

namespace Bus

theorem resolve_mapped {b : Bus} {a : Address} {dev off : Nat} (h : b.resolve a = .mapped dev off) :
    ∃ d, b.devices[dev]? = some d ∧ (1 ≤ d.size → off < d.size) := resolveIn_mapped h

theorem resolve_congr {b b' : Bus} (hm : b'.map = b.map) (hs : b'.devices.map Device.shape = b.devices.map Device.shape)
    (a : Address) : b'.resolve a = b.resolve a := by
  unfold resolve
  rw [hm]
  exact resolveIn_congr hs _ _

theorem isRam_congr {b b' : Bus} (hm : b'.map = b.map) (hs : b'.devices.map Device.shape = b.devices.map Device.shape)
    (a : Address) : b'.isRam a = b.isRam a := by
  unfold isRam
  rw [resolve_congr hm hs]
  cases b.resolve a with
  | unmapped => rfl
  | mapped dev off =>
    have hk := getElem?_shape hs dev
    cases h1 : b'.devices[dev]? <;> cases h2 : b.devices[dev]? <;> simp only [h1, h2, Option.map_some, Option.map_none] at hk ⊢
    · exact absurd hk (by simp)
    · exact absurd hk (by simp)
    · rename_i d' d
      simp only [Option.some.injEq] at hk
      cases d' <;> cases d <;> simp_all [Device.shape]

theorem sameByte_congr {b b' : Bus} (hm : b'.map = b.map) (hs : b'.devices.map Device.shape = b.devices.map Device.shape)
    (a c : Address) : b'.sameByte a c = b.sameByte a c := by
  unfold sameByte
  rw [resolve_congr hm hs, resolve_congr hm hs]

theorem sameByte_comm (b : Bus) (a c : Address) : b.sameByte a c = b.sameByte c a := by
  unfold sameByte
  by_cases h : b.resolve a = b.resolve c
  · simp [h]
  · simp [h, Ne.symm h]

/-! ## One read -/

@[simp] theorem read8_map (a : Address) (b : Bus) : (b.read8 a).2.map = b.map := rfl
@[simp] theorem read8_devices (a : Address) (b : Bus) : (b.read8 a).2.devices = b.devices := rfl
@[simp] theorem read8_events (a : Address) (b : Bus) :
    (b.read8 a).2.events = .read a (b.resolve a) (b.read8 a).1 :: b.events := rfl

/-- Where the block itself holds the byte, a read returns it. -/
theorem read8_of_byteAt {b : Bus} {a : Address} {v : Byte} (h : b.byteAt a = some v) : (b.read8 a).1 = v := by
  unfold byteAt at h
  simp only [read8, valueAt]
  cases ht : b.resolve a with
  | unmapped => simpa [ht] using h
  | mapped dev off =>
    simp only [ht] at h ⊢
    cases hd : b.devices[dev]? with
    | none => simpa [hd] using h
    | some d => cases d <;> simp_all [Device.readByte]

/-! ## One write -/

theorem storeDevices_shape (ds : List Device) (v : Byte) (t : Target) :
    (storeDevices ds v t).map Device.shape = ds.map Device.shape := by
  cases t with
  | unmapped => rfl
  | mapped dev off =>
    simp only [storeDevices]
    cases hd : ds[dev]? with
    | none => rfl
    | some d =>
      simp only [List.map_set, Device.shape_writeByte]
      apply List.ext_getElem?
      intro k
      rw [List.getElem?_set]
      split
      · rename_i h
        subst h
        split
        · rw [List.getElem?_map, hd]
          rfl
        · rename_i h2
          rw [List.length_map] at h2
          rw [List.getElem?_eq_none (by omega)] at hd
          exact absurd hd (by simp)
      · rfl

@[simp] theorem write8_map (a : Address) (v : Byte) (b : Bus) : (b.write8 a v).map = b.map := rfl
@[simp] theorem write8_events (a : Address) (v : Byte) (b : Bus) :
    (b.write8 a v).events = .write a (b.resolve a) v :: b.events := rfl

theorem write8_shapes (a : Address) (v : Byte) (b : Bus) :
    (b.write8 a v).devices.map Device.shape = b.devices.map Device.shape := storeDevices_shape _ _ _

@[simp] theorem write8_resolve (a c : Address) (v : Byte) (b : Bus) : (b.write8 a v).resolve c = b.resolve c :=
  resolve_congr (b := b) (b' := b.write8 a v) rfl (write8_shapes a v b) c

theorem isRam_iff {b : Bus} {a : Address} :
    b.isRam a = true ↔ ∃ dev off size cells, b.resolve a = .mapped dev off ∧ b.devices[dev]? = some (.ram size cells) := by
  unfold isRam
  cases ht : b.resolve a with
  | unmapped => simp
  | mapped dev off =>
    cases hd : b.devices[dev]? with
    | none => simp [hd]
    | some d => cases d <;> simp [hd]

/-- A byte written to a RAM address stands there. -/
theorem byteAt_write8_same (a : Address) (v : Byte) (b : Bus) (h : b.isRam a = true) : (b.write8 a v).byteAt a = some v := by
  obtain ⟨dev, off, size, cells, ht, hd⟩ := isRam_iff.mp h
  obtain ⟨hlt, hg⟩ := List.getElem?_eq_some_iff.mp hd
  unfold byteAt
  rw [write8_resolve, ht]
  simp [write8, ht, storeDevices, hg, hlt, Device.writeByte]

/-- A write leaves every address that does not reach the same byte. -/
theorem byteAt_write8_other (a c : Address) (v : Byte) (b : Bus) (h : b.sameByte c a = false) :
    (b.write8 a v).byteAt c = b.byteAt c := by
  unfold byteAt
  rw [write8_resolve]
  cases htc : b.resolve c with
  | unmapped => rfl
  | mapped dc oc =>
    simp only
    cases hta : b.resolve a with
    | unmapped => simp [write8, hta, storeDevices]
    | mapped da oa =>
      cases hd : b.devices[da]? with
      | none => simp [write8, hta, storeDevices, hd]
      | some d =>
        obtain ⟨hlt, hg⟩ := List.getElem?_eq_some_iff.mp hd
        by_cases hdev : da = dc
        · subst hdev
          have ho : oc ≠ oa := by
            intro heq
            subst heq
            simp [sameByte, htc, hta] at h
          cases d with
          | ram size cells => simp [write8, hta, storeDevices, hg, hlt, Device.writeByte, Memory.read_write_other _ _ _ _ ho]
          | rom size image => simp [write8, hta, storeDevices, hg, hlt, Device.writeByte]
          | mmio handle => simp [write8, hta, storeDevices, hg, hlt, Device.writeByte]
        · simp [write8, hta, storeDevices, hd, hdev]

/-! ## Frames -/

namespace Frame

theorem resolve {stores : List (Address × Byte)} {b b' : Bus} (h : Bus.Frame stores b b') (a : Address) :
    b'.resolve a = b.resolve a := resolve_congr h.map h.shapes a

theorem sameByte {stores : List (Address × Byte)} {b b' : Bus} (h : Bus.Frame stores b b') (a c : Address) :
    b'.sameByte a c = b.sameByte a c := sameByte_congr h.map h.shapes a c

theorem isRam {stores : List (Address × Byte)} {b b' : Bus} (h : Bus.Frame stores b b') (a : Address) :
    b'.isRam a = b.isRam a := isRam_congr h.map h.shapes a

theorem refl (b : Bus) : Bus.Frame [] b b :=
  ⟨trivial, fun _ _ => rfl, rfl, rfl, [], rfl, rfl, rfl⟩

theorem read8 (a : Address) (b : Bus) : Bus.Frame [] b (b.read8 a).2 :=
  ⟨trivial, fun _ _ => rfl, rfl, rfl, [_], rfl, rfl, rfl⟩

theorem write8 (a : Address) (v : Byte) (b : Bus) : Bus.Frame [(a, v)] b (b.write8 a v) :=
  ⟨⟨fun h _ => byteAt_write8_same a v b h, trivial⟩,
   fun c h => byteAt_write8_other a c v b (h (a, v) (by simp)),
   rfl, write8_shapes a v b, [_], rfl, rfl, rfl⟩

theorem stored_trans {st2 : List (Address × Byte)} {b b1 b2 : Bus} (h2 : Bus.Frame st2 b1 b2)
    (hs : ∀ a c, b1.sameByte a c = b.sameByte a c) (hr : ∀ a, b1.isRam a = b.isRam a) :
    ∀ st1 : List (Address × Byte), b.Stored b1 st1 → b.Stored b2 (st1 ++ st2)
  | [], _ => by
    have h := h2.stored
    clear h2
    induction st2 with
    | nil => trivial
    | cons c rest ih =>
      refine ⟨fun hram hlater => h.1 (by rw [hr]; exact hram) (fun d hd => by rw [hs]; exact hlater d hd), ih h.2⟩
  | (a, v) :: rest, h => by
    refine ⟨fun hram hlater => ?_, stored_trans h2 hs hr rest h.2⟩
    rw [h2.bytes a (fun c hc => by rw [hs]; exact hlater c (by simp [hc]))]
    exact h.1 hram (fun c hc => hlater c (by simp [hc]))

/-- Two stretches of writes make one. -/
theorem trans {st1 st2 : List (Address × Byte)} {b b1 b2 : Bus} (h1 : Bus.Frame st1 b b1) (h2 : Bus.Frame st2 b1 b2) :
    Bus.Frame (st1 ++ st2) b b2 where
  stored := stored_trans h2 h1.sameByte h1.isRam st1 h1.stored
  bytes a h := by
    rw [h2.bytes a (fun c hc => by rw [h1.sameByte]; exact h c (by simp [hc]))]
    exact h1.bytes a (fun c hc => h c (by simp [hc]))
  map := h2.map.trans h1.map
  shapes := h2.shapes.trans h1.shapes
  history := by
    obtain ⟨e1, he1, hw1, hc1⟩ := h1.history
    obtain ⟨e2, he2, hw2, hc2⟩ := h2.history
    refine ⟨e2 ++ e1, by rw [he2, he1, List.append_assoc], ?_, ?_⟩
    · simp only [writesOf, List.reverse_append, List.filterMap_append] at hw1 hw2 ⊢
      rw [hw1, hw2]
    · simp only [charsOf, List.reverse_append, List.filterMap_append] at hc1 hc2 ⊢
      rw [hc1, hc2]
      rfl

/-- Reads before and after change nothing of it. -/
theorem trans_reads {st : List (Address × Byte)} {b b1 b2 : Bus} (h1 : Bus.Frame st b b1) (h2 : Bus.Frame [] b1 b2) :
    Bus.Frame st b b2 := by
  simpa using h1.trans h2

theorem readByte (loc : Loc) (b : Bus) : Bus.Frame [] b (b.readByte loc).2 := read8 _ b

theorem read16 (loc : Loc) (b : Bus) : Bus.Frame [] b (b.read16 loc).2 := (read8 _ b).trans_reads (read8 _ _)

theorem read24 (loc : Loc) (b : Bus) : Bus.Frame [] b (b.read24 loc).2 :=
  ((read8 _ b).trans_reads (read8 _ _)).trans_reads (read8 _ _)

theorem writeByte (loc : Loc) (v : Byte) (b : Bus) : Bus.Frame [(loc.byte 0, v)] b (b.writeByte loc v) := write8 _ v b

theorem write16 (loc : Loc) (v : Word) (b : Bus) :
    Bus.Frame [(loc.byte 0, loByte v), (loc.byte 1, hiByte v)] b (b.write16 loc v) :=
  (write8 _ _ b).trans (write8 _ _ _)

end Frame

/-! ## Wider reads of bytes the block holds -/

theorem byteAt_read8 (a c : Address) (b : Bus) : (b.read8 a).2.byteAt c = b.byteAt c := (Frame.read8 a b).bytes c (by simp)

theorem read16_of_byteAt {b : Bus} {loc : Loc} {v0 v1 : Byte} (h0 : b.byteAt (loc.byte 0) = some v0)
    (h1 : b.byteAt (loc.byte 1) = some v1) : (b.read16 loc).1 = mkWord v1 v0 := by
  rw [← byteAt_read8 (loc.byte 0)] at h1
  show mkWord _ _ = _
  rw [read8_of_byteAt h0, read8_of_byteAt h1]

theorem read24_of_byteAt {b : Bus} {loc : Loc} {v0 v1 v2 : Byte} (h0 : b.byteAt (loc.byte 0) = some v0)
    (h1 : b.byteAt (loc.byte 1) = some v1) (h2 : b.byteAt (loc.byte 2) = some v2) : (b.read24 loc).1 = mkLong v2 v1 v0 := by
  rw [← byteAt_read8 (loc.byte 0)] at h1 h2
  rw [← byteAt_read8 (loc.byte 1)] at h2
  show mkLong _ _ _ = _
  rw [read8_of_byteAt h0, read8_of_byteAt h1, read8_of_byteAt h2]

/-! ## Canonical contents -/

/-- Every access keeps the canonical form of every device. -/
theorem write8_devicesWf (a : Address) (v : Byte) (b : Bus) (h : b.devices.all deviceWf = true) :
    (b.write8 a v).devices.all deviceWf = true := by
  simp only [write8]
  cases ht : b.resolve a with
  | unmapped => exact h
  | mapped dev off =>
    simp only [storeDevices]
    obtain ⟨d, hd, hoff⟩ := resolve_mapped ht
    simp only [hd]
    rw [List.all_eq_true] at h ⊢
    intro d' hd'
    rcases List.mem_or_eq_of_mem_set hd' with hmem | rfl
    · exact h d' hmem
    · have hwf := h d (List.mem_of_getElem? hd)
      cases d with
      | ram size cells =>
        simp only [deviceWf, Device.writeByte, Bool.and_eq_true, decide_eq_true_eq] at hwf ⊢
        exact ⟨hwf.1, Memory.wf_write size cells off v (hoff hwf.1) hwf.2⟩
      | rom size image => exact hwf
      | mmio handle => rfl

end Bus

end Sys2Proof
end

