-- ==== Sys2Proof/Laws/State.lean ====
section
/-! SUPPORT. What each update of the state does to each field, and to the width predicates and flags. -/

namespace Sys2Proof.Machine.State

/-- The state with another stack pointer and bus: what pushes and pulls leave. -/
def withStack (sp : Word) (b : Bus) (s : State) : State := { s with SP := sp, bus := b }

@[simp] theorem withBus_withBus (b b' : Bus) (s : State) : (s.withBus b).withBus b' = s.withBus b' := rfl
@[simp] theorem withBus_withStack (b b' : Bus) (sp : Word) (s : State) : (s.withStack sp b).withBus b' = s.withStack sp b' := rfl
@[simp] theorem withStack_withBus (b b' : Bus) (sp : Word) (s : State) : (s.withBus b).withStack sp b' = s.withStack sp b' := rfl
@[simp] theorem withStack_withStack (b b' : Bus) (sp sp' : Word) (s : State) :
    (s.withStack sp b).withStack sp' b' = s.withStack sp' b' := rfl

/-! ## `wrA` -/

@[simp] theorem wrA_A (v : Word) (s : State) : (s.wrA v).A = if s.m8 then mkWord (hiByte s.A) (loByte v) else v := rfl
@[simp] theorem wrA_X (v : Word) (s : State) : (s.wrA v).X = s.X := rfl
@[simp] theorem wrA_Y (v : Word) (s : State) : (s.wrA v).Y = s.Y := rfl
@[simp] theorem wrA_PC (v : Word) (s : State) : (s.wrA v).PC = s.PC := rfl
@[simp] theorem wrA_PBR (v : Word) (s : State) : (s.wrA v).PBR = s.PBR := rfl
@[simp] theorem wrA_DBR (v : Word) (s : State) : (s.wrA v).DBR = s.DBR := rfl
@[simp] theorem wrA_DR (v : Word) (s : State) : (s.wrA v).DR = s.DR := rfl
@[simp] theorem wrA_SP (v : Word) (s : State) : (s.wrA v).SP = s.SP := rfl
@[simp] theorem wrA_P (v : Word) (s : State) : (s.wrA v).P = s.P := rfl
@[simp] theorem wrA_e (v : Word) (s : State) : (s.wrA v).e = s.e := rfl
@[simp] theorem wrA_run (v : Word) (s : State) : (s.wrA v).run = s.run := rfl
@[simp] theorem wrA_bus (v : Word) (s : State) : (s.wrA v).bus = s.bus := rfl
@[simp] theorem wrA_charOut (v : Word) (s : State) : (s.wrA v).charOut = s.charOut := rfl
@[simp] theorem wrA_m8 (v : Word) (s : State) : (s.wrA v).m8 = s.m8 := rfl
@[simp] theorem wrA_x8 (v : Word) (s : State) : (s.wrA v).x8 = s.x8 := rfl
@[simp] theorem wrA_wm (v : Word) (s : State) : (s.wrA v).wm = s.wm := rfl
@[simp] theorem wrA_wx (v : Word) (s : State) : (s.wrA v).wx = s.wx := rfl
@[simp] theorem wrA_flag (v : Word) (s : State) (g : Flag) : (s.wrA v).flag g = s.flag g := rfl

/-! ## `wrX` -/

@[simp] theorem wrX_A (v : Word) (s : State) : (s.wrX v).A = s.A := rfl
@[simp] theorem wrX_X (v : Word) (s : State) : (s.wrX v).X = s.wx.trunc v := rfl
@[simp] theorem wrX_Y (v : Word) (s : State) : (s.wrX v).Y = s.Y := rfl
@[simp] theorem wrX_PC (v : Word) (s : State) : (s.wrX v).PC = s.PC := rfl
@[simp] theorem wrX_PBR (v : Word) (s : State) : (s.wrX v).PBR = s.PBR := rfl
@[simp] theorem wrX_DBR (v : Word) (s : State) : (s.wrX v).DBR = s.DBR := rfl
@[simp] theorem wrX_DR (v : Word) (s : State) : (s.wrX v).DR = s.DR := rfl
@[simp] theorem wrX_SP (v : Word) (s : State) : (s.wrX v).SP = s.SP := rfl
@[simp] theorem wrX_P (v : Word) (s : State) : (s.wrX v).P = s.P := rfl
@[simp] theorem wrX_e (v : Word) (s : State) : (s.wrX v).e = s.e := rfl
@[simp] theorem wrX_run (v : Word) (s : State) : (s.wrX v).run = s.run := rfl
@[simp] theorem wrX_bus (v : Word) (s : State) : (s.wrX v).bus = s.bus := rfl
@[simp] theorem wrX_charOut (v : Word) (s : State) : (s.wrX v).charOut = s.charOut := rfl
@[simp] theorem wrX_m8 (v : Word) (s : State) : (s.wrX v).m8 = s.m8 := rfl
@[simp] theorem wrX_x8 (v : Word) (s : State) : (s.wrX v).x8 = s.x8 := rfl
@[simp] theorem wrX_wm (v : Word) (s : State) : (s.wrX v).wm = s.wm := rfl
@[simp] theorem wrX_wx (v : Word) (s : State) : (s.wrX v).wx = s.wx := rfl
@[simp] theorem wrX_flag (v : Word) (s : State) (g : Flag) : (s.wrX v).flag g = s.flag g := rfl

/-! ## `wrY` -/

@[simp] theorem wrY_A (v : Word) (s : State) : (s.wrY v).A = s.A := rfl
@[simp] theorem wrY_X (v : Word) (s : State) : (s.wrY v).X = s.X := rfl
@[simp] theorem wrY_Y (v : Word) (s : State) : (s.wrY v).Y = s.wx.trunc v := rfl
@[simp] theorem wrY_PC (v : Word) (s : State) : (s.wrY v).PC = s.PC := rfl
@[simp] theorem wrY_PBR (v : Word) (s : State) : (s.wrY v).PBR = s.PBR := rfl
@[simp] theorem wrY_DBR (v : Word) (s : State) : (s.wrY v).DBR = s.DBR := rfl
@[simp] theorem wrY_DR (v : Word) (s : State) : (s.wrY v).DR = s.DR := rfl
@[simp] theorem wrY_SP (v : Word) (s : State) : (s.wrY v).SP = s.SP := rfl
@[simp] theorem wrY_P (v : Word) (s : State) : (s.wrY v).P = s.P := rfl
@[simp] theorem wrY_e (v : Word) (s : State) : (s.wrY v).e = s.e := rfl
@[simp] theorem wrY_run (v : Word) (s : State) : (s.wrY v).run = s.run := rfl
@[simp] theorem wrY_bus (v : Word) (s : State) : (s.wrY v).bus = s.bus := rfl
@[simp] theorem wrY_charOut (v : Word) (s : State) : (s.wrY v).charOut = s.charOut := rfl
@[simp] theorem wrY_m8 (v : Word) (s : State) : (s.wrY v).m8 = s.m8 := rfl
@[simp] theorem wrY_x8 (v : Word) (s : State) : (s.wrY v).x8 = s.x8 := rfl
@[simp] theorem wrY_wm (v : Word) (s : State) : (s.wrY v).wm = s.wm := rfl
@[simp] theorem wrY_wx (v : Word) (s : State) : (s.wrY v).wx = s.wx := rfl
@[simp] theorem wrY_flag (v : Word) (s : State) (g : Flag) : (s.wrY v).flag g = s.flag g := rfl

/-! ## `setA` -/

@[simp] theorem setA_A (v : Word) (s : State) : (s.setA v).A = v := rfl
@[simp] theorem setA_X (v : Word) (s : State) : (s.setA v).X = s.X := rfl
@[simp] theorem setA_Y (v : Word) (s : State) : (s.setA v).Y = s.Y := rfl
@[simp] theorem setA_PC (v : Word) (s : State) : (s.setA v).PC = s.PC := rfl
@[simp] theorem setA_PBR (v : Word) (s : State) : (s.setA v).PBR = s.PBR := rfl
@[simp] theorem setA_DBR (v : Word) (s : State) : (s.setA v).DBR = s.DBR := rfl
@[simp] theorem setA_DR (v : Word) (s : State) : (s.setA v).DR = s.DR := rfl
@[simp] theorem setA_SP (v : Word) (s : State) : (s.setA v).SP = s.SP := rfl
@[simp] theorem setA_P (v : Word) (s : State) : (s.setA v).P = s.P := rfl
@[simp] theorem setA_e (v : Word) (s : State) : (s.setA v).e = s.e := rfl
@[simp] theorem setA_run (v : Word) (s : State) : (s.setA v).run = s.run := rfl
@[simp] theorem setA_bus (v : Word) (s : State) : (s.setA v).bus = s.bus := rfl
@[simp] theorem setA_charOut (v : Word) (s : State) : (s.setA v).charOut = s.charOut := rfl
@[simp] theorem setA_m8 (v : Word) (s : State) : (s.setA v).m8 = s.m8 := rfl
@[simp] theorem setA_x8 (v : Word) (s : State) : (s.setA v).x8 = s.x8 := rfl
@[simp] theorem setA_wm (v : Word) (s : State) : (s.setA v).wm = s.wm := rfl
@[simp] theorem setA_wx (v : Word) (s : State) : (s.setA v).wx = s.wx := rfl
@[simp] theorem setA_flag (v : Word) (s : State) (g : Flag) : (s.setA v).flag g = s.flag g := rfl

/-! ## `setDR` -/

@[simp] theorem setDR_A (v : Word) (s : State) : (s.setDR v).A = s.A := rfl
@[simp] theorem setDR_X (v : Word) (s : State) : (s.setDR v).X = s.X := rfl
@[simp] theorem setDR_Y (v : Word) (s : State) : (s.setDR v).Y = s.Y := rfl
@[simp] theorem setDR_PC (v : Word) (s : State) : (s.setDR v).PC = s.PC := rfl
@[simp] theorem setDR_PBR (v : Word) (s : State) : (s.setDR v).PBR = s.PBR := rfl
@[simp] theorem setDR_DBR (v : Word) (s : State) : (s.setDR v).DBR = s.DBR := rfl
@[simp] theorem setDR_DR (v : Word) (s : State) : (s.setDR v).DR = v := rfl
@[simp] theorem setDR_SP (v : Word) (s : State) : (s.setDR v).SP = s.SP := rfl
@[simp] theorem setDR_P (v : Word) (s : State) : (s.setDR v).P = s.P := rfl
@[simp] theorem setDR_e (v : Word) (s : State) : (s.setDR v).e = s.e := rfl
@[simp] theorem setDR_run (v : Word) (s : State) : (s.setDR v).run = s.run := rfl
@[simp] theorem setDR_bus (v : Word) (s : State) : (s.setDR v).bus = s.bus := rfl
@[simp] theorem setDR_charOut (v : Word) (s : State) : (s.setDR v).charOut = s.charOut := rfl
@[simp] theorem setDR_m8 (v : Word) (s : State) : (s.setDR v).m8 = s.m8 := rfl
@[simp] theorem setDR_x8 (v : Word) (s : State) : (s.setDR v).x8 = s.x8 := rfl
@[simp] theorem setDR_wm (v : Word) (s : State) : (s.setDR v).wm = s.wm := rfl
@[simp] theorem setDR_wx (v : Word) (s : State) : (s.setDR v).wx = s.wx := rfl
@[simp] theorem setDR_flag (v : Word) (s : State) (g : Flag) : (s.setDR v).flag g = s.flag g := rfl

/-! ## `setDBR` -/

@[simp] theorem setDBR_A (v : Byte) (s : State) : (s.setDBR v).A = s.A := rfl
@[simp] theorem setDBR_X (v : Byte) (s : State) : (s.setDBR v).X = s.X := rfl
@[simp] theorem setDBR_Y (v : Byte) (s : State) : (s.setDBR v).Y = s.Y := rfl
@[simp] theorem setDBR_PC (v : Byte) (s : State) : (s.setDBR v).PC = s.PC := rfl
@[simp] theorem setDBR_PBR (v : Byte) (s : State) : (s.setDBR v).PBR = s.PBR := rfl
@[simp] theorem setDBR_DBR (v : Byte) (s : State) : (s.setDBR v).DBR = v := rfl
@[simp] theorem setDBR_DR (v : Byte) (s : State) : (s.setDBR v).DR = s.DR := rfl
@[simp] theorem setDBR_SP (v : Byte) (s : State) : (s.setDBR v).SP = s.SP := rfl
@[simp] theorem setDBR_P (v : Byte) (s : State) : (s.setDBR v).P = s.P := rfl
@[simp] theorem setDBR_e (v : Byte) (s : State) : (s.setDBR v).e = s.e := rfl
@[simp] theorem setDBR_run (v : Byte) (s : State) : (s.setDBR v).run = s.run := rfl
@[simp] theorem setDBR_bus (v : Byte) (s : State) : (s.setDBR v).bus = s.bus := rfl
@[simp] theorem setDBR_charOut (v : Byte) (s : State) : (s.setDBR v).charOut = s.charOut := rfl
@[simp] theorem setDBR_m8 (v : Byte) (s : State) : (s.setDBR v).m8 = s.m8 := rfl
@[simp] theorem setDBR_x8 (v : Byte) (s : State) : (s.setDBR v).x8 = s.x8 := rfl
@[simp] theorem setDBR_wm (v : Byte) (s : State) : (s.setDBR v).wm = s.wm := rfl
@[simp] theorem setDBR_wx (v : Byte) (s : State) : (s.setDBR v).wx = s.wx := rfl
@[simp] theorem setDBR_flag (v : Byte) (s : State) (g : Flag) : (s.setDBR v).flag g = s.flag g := rfl

/-! ## `setPBR` -/

@[simp] theorem setPBR_A (v : Byte) (s : State) : (s.setPBR v).A = s.A := rfl
@[simp] theorem setPBR_X (v : Byte) (s : State) : (s.setPBR v).X = s.X := rfl
@[simp] theorem setPBR_Y (v : Byte) (s : State) : (s.setPBR v).Y = s.Y := rfl
@[simp] theorem setPBR_PC (v : Byte) (s : State) : (s.setPBR v).PC = s.PC := rfl
@[simp] theorem setPBR_PBR (v : Byte) (s : State) : (s.setPBR v).PBR = v := rfl
@[simp] theorem setPBR_DBR (v : Byte) (s : State) : (s.setPBR v).DBR = s.DBR := rfl
@[simp] theorem setPBR_DR (v : Byte) (s : State) : (s.setPBR v).DR = s.DR := rfl
@[simp] theorem setPBR_SP (v : Byte) (s : State) : (s.setPBR v).SP = s.SP := rfl
@[simp] theorem setPBR_P (v : Byte) (s : State) : (s.setPBR v).P = s.P := rfl
@[simp] theorem setPBR_e (v : Byte) (s : State) : (s.setPBR v).e = s.e := rfl
@[simp] theorem setPBR_run (v : Byte) (s : State) : (s.setPBR v).run = s.run := rfl
@[simp] theorem setPBR_bus (v : Byte) (s : State) : (s.setPBR v).bus = s.bus := rfl
@[simp] theorem setPBR_charOut (v : Byte) (s : State) : (s.setPBR v).charOut = s.charOut := rfl
@[simp] theorem setPBR_m8 (v : Byte) (s : State) : (s.setPBR v).m8 = s.m8 := rfl
@[simp] theorem setPBR_x8 (v : Byte) (s : State) : (s.setPBR v).x8 = s.x8 := rfl
@[simp] theorem setPBR_wm (v : Byte) (s : State) : (s.setPBR v).wm = s.wm := rfl
@[simp] theorem setPBR_wx (v : Byte) (s : State) : (s.setPBR v).wx = s.wx := rfl
@[simp] theorem setPBR_flag (v : Byte) (s : State) (g : Flag) : (s.setPBR v).flag g = s.flag g := rfl

/-! ## `setPC` -/

@[simp] theorem setPC_A (v : Word) (s : State) : (s.setPC v).A = s.A := rfl
@[simp] theorem setPC_X (v : Word) (s : State) : (s.setPC v).X = s.X := rfl
@[simp] theorem setPC_Y (v : Word) (s : State) : (s.setPC v).Y = s.Y := rfl
@[simp] theorem setPC_PC (v : Word) (s : State) : (s.setPC v).PC = v := rfl
@[simp] theorem setPC_PBR (v : Word) (s : State) : (s.setPC v).PBR = s.PBR := rfl
@[simp] theorem setPC_DBR (v : Word) (s : State) : (s.setPC v).DBR = s.DBR := rfl
@[simp] theorem setPC_DR (v : Word) (s : State) : (s.setPC v).DR = s.DR := rfl
@[simp] theorem setPC_SP (v : Word) (s : State) : (s.setPC v).SP = s.SP := rfl
@[simp] theorem setPC_P (v : Word) (s : State) : (s.setPC v).P = s.P := rfl
@[simp] theorem setPC_e (v : Word) (s : State) : (s.setPC v).e = s.e := rfl
@[simp] theorem setPC_run (v : Word) (s : State) : (s.setPC v).run = s.run := rfl
@[simp] theorem setPC_bus (v : Word) (s : State) : (s.setPC v).bus = s.bus := rfl
@[simp] theorem setPC_charOut (v : Word) (s : State) : (s.setPC v).charOut = s.charOut := rfl
@[simp] theorem setPC_m8 (v : Word) (s : State) : (s.setPC v).m8 = s.m8 := rfl
@[simp] theorem setPC_x8 (v : Word) (s : State) : (s.setPC v).x8 = s.x8 := rfl
@[simp] theorem setPC_wm (v : Word) (s : State) : (s.setPC v).wm = s.wm := rfl
@[simp] theorem setPC_wx (v : Word) (s : State) : (s.setPC v).wx = s.wx := rfl
@[simp] theorem setPC_flag (v : Word) (s : State) (g : Flag) : (s.setPC v).flag g = s.flag g := rfl

/-! ## `setRun` -/

@[simp] theorem setRun_A (v : RunState) (s : State) : (s.setRun v).A = s.A := rfl
@[simp] theorem setRun_X (v : RunState) (s : State) : (s.setRun v).X = s.X := rfl
@[simp] theorem setRun_Y (v : RunState) (s : State) : (s.setRun v).Y = s.Y := rfl
@[simp] theorem setRun_PC (v : RunState) (s : State) : (s.setRun v).PC = s.PC := rfl
@[simp] theorem setRun_PBR (v : RunState) (s : State) : (s.setRun v).PBR = s.PBR := rfl
@[simp] theorem setRun_DBR (v : RunState) (s : State) : (s.setRun v).DBR = s.DBR := rfl
@[simp] theorem setRun_DR (v : RunState) (s : State) : (s.setRun v).DR = s.DR := rfl
@[simp] theorem setRun_SP (v : RunState) (s : State) : (s.setRun v).SP = s.SP := rfl
@[simp] theorem setRun_P (v : RunState) (s : State) : (s.setRun v).P = s.P := rfl
@[simp] theorem setRun_e (v : RunState) (s : State) : (s.setRun v).e = s.e := rfl
@[simp] theorem setRun_run (v : RunState) (s : State) : (s.setRun v).run = v := rfl
@[simp] theorem setRun_bus (v : RunState) (s : State) : (s.setRun v).bus = s.bus := rfl
@[simp] theorem setRun_charOut (v : RunState) (s : State) : (s.setRun v).charOut = s.charOut := rfl
@[simp] theorem setRun_m8 (v : RunState) (s : State) : (s.setRun v).m8 = s.m8 := rfl
@[simp] theorem setRun_x8 (v : RunState) (s : State) : (s.setRun v).x8 = s.x8 := rfl
@[simp] theorem setRun_wm (v : RunState) (s : State) : (s.setRun v).wm = s.wm := rfl
@[simp] theorem setRun_wx (v : RunState) (s : State) : (s.setRun v).wx = s.wx := rfl
@[simp] theorem setRun_flag (v : RunState) (s : State) (g : Flag) : (s.setRun v).flag g = s.flag g := rfl

/-! ## `setSP` -/

@[simp] theorem setSP_A (v : Word) (s : State) : (s.setSP v).A = s.A := rfl
@[simp] theorem setSP_X (v : Word) (s : State) : (s.setSP v).X = s.X := rfl
@[simp] theorem setSP_Y (v : Word) (s : State) : (s.setSP v).Y = s.Y := rfl
@[simp] theorem setSP_PC (v : Word) (s : State) : (s.setSP v).PC = s.PC := rfl
@[simp] theorem setSP_PBR (v : Word) (s : State) : (s.setSP v).PBR = s.PBR := rfl
@[simp] theorem setSP_DBR (v : Word) (s : State) : (s.setSP v).DBR = s.DBR := rfl
@[simp] theorem setSP_DR (v : Word) (s : State) : (s.setSP v).DR = s.DR := rfl
@[simp] theorem setSP_SP (v : Word) (s : State) : (s.setSP v).SP = if s.e then mkWord Config.spEmuHigh (loByte v) else v := rfl
@[simp] theorem setSP_P (v : Word) (s : State) : (s.setSP v).P = s.P := rfl
@[simp] theorem setSP_e (v : Word) (s : State) : (s.setSP v).e = s.e := rfl
@[simp] theorem setSP_run (v : Word) (s : State) : (s.setSP v).run = s.run := rfl
@[simp] theorem setSP_bus (v : Word) (s : State) : (s.setSP v).bus = s.bus := rfl
@[simp] theorem setSP_charOut (v : Word) (s : State) : (s.setSP v).charOut = s.charOut := rfl
@[simp] theorem setSP_m8 (v : Word) (s : State) : (s.setSP v).m8 = s.m8 := rfl
@[simp] theorem setSP_x8 (v : Word) (s : State) : (s.setSP v).x8 = s.x8 := rfl
@[simp] theorem setSP_wm (v : Word) (s : State) : (s.setSP v).wm = s.wm := rfl
@[simp] theorem setSP_wx (v : Word) (s : State) : (s.setSP v).wx = s.wx := rfl
@[simp] theorem setSP_flag (v : Word) (s : State) (g : Flag) : (s.setSP v).flag g = s.flag g := rfl

/-! ## `withBus` -/

@[simp] theorem withBus_A (b : Bus) (s : State) : (s.withBus b).A = s.A := rfl
@[simp] theorem withBus_X (b : Bus) (s : State) : (s.withBus b).X = s.X := rfl
@[simp] theorem withBus_Y (b : Bus) (s : State) : (s.withBus b).Y = s.Y := rfl
@[simp] theorem withBus_PC (b : Bus) (s : State) : (s.withBus b).PC = s.PC := rfl
@[simp] theorem withBus_PBR (b : Bus) (s : State) : (s.withBus b).PBR = s.PBR := rfl
@[simp] theorem withBus_DBR (b : Bus) (s : State) : (s.withBus b).DBR = s.DBR := rfl
@[simp] theorem withBus_DR (b : Bus) (s : State) : (s.withBus b).DR = s.DR := rfl
@[simp] theorem withBus_SP (b : Bus) (s : State) : (s.withBus b).SP = s.SP := rfl
@[simp] theorem withBus_P (b : Bus) (s : State) : (s.withBus b).P = s.P := rfl
@[simp] theorem withBus_e (b : Bus) (s : State) : (s.withBus b).e = s.e := rfl
@[simp] theorem withBus_run (b : Bus) (s : State) : (s.withBus b).run = s.run := rfl
@[simp] theorem withBus_bus (b : Bus) (s : State) : (s.withBus b).bus = b := rfl
@[simp] theorem withBus_charOut (b : Bus) (s : State) : (s.withBus b).charOut = s.charOut := rfl
@[simp] theorem withBus_m8 (b : Bus) (s : State) : (s.withBus b).m8 = s.m8 := rfl
@[simp] theorem withBus_x8 (b : Bus) (s : State) : (s.withBus b).x8 = s.x8 := rfl
@[simp] theorem withBus_wm (b : Bus) (s : State) : (s.withBus b).wm = s.wm := rfl
@[simp] theorem withBus_wx (b : Bus) (s : State) : (s.withBus b).wx = s.wx := rfl
@[simp] theorem withBus_flag (b : Bus) (s : State) (g : Flag) : (s.withBus b).flag g = s.flag g := rfl

/-! ## `advance` -/

@[simp] theorem advance_A (n : Nat) (s : State) : (s.advance n).A = s.A := rfl
@[simp] theorem advance_X (n : Nat) (s : State) : (s.advance n).X = s.X := rfl
@[simp] theorem advance_Y (n : Nat) (s : State) : (s.advance n).Y = s.Y := rfl
@[simp] theorem advance_PC (n : Nat) (s : State) : (s.advance n).PC = s.PC + BitVec.ofNat 16 n := rfl
@[simp] theorem advance_PBR (n : Nat) (s : State) : (s.advance n).PBR = s.PBR := rfl
@[simp] theorem advance_DBR (n : Nat) (s : State) : (s.advance n).DBR = s.DBR := rfl
@[simp] theorem advance_DR (n : Nat) (s : State) : (s.advance n).DR = s.DR := rfl
@[simp] theorem advance_SP (n : Nat) (s : State) : (s.advance n).SP = s.SP := rfl
@[simp] theorem advance_P (n : Nat) (s : State) : (s.advance n).P = s.P := rfl
@[simp] theorem advance_e (n : Nat) (s : State) : (s.advance n).e = s.e := rfl
@[simp] theorem advance_run (n : Nat) (s : State) : (s.advance n).run = s.run := rfl
@[simp] theorem advance_bus (n : Nat) (s : State) : (s.advance n).bus = s.bus := rfl
@[simp] theorem advance_charOut (n : Nat) (s : State) : (s.advance n).charOut = s.charOut := rfl
@[simp] theorem advance_m8 (n : Nat) (s : State) : (s.advance n).m8 = s.m8 := rfl
@[simp] theorem advance_x8 (n : Nat) (s : State) : (s.advance n).x8 = s.x8 := rfl
@[simp] theorem advance_wm (n : Nat) (s : State) : (s.advance n).wm = s.wm := rfl
@[simp] theorem advance_wx (n : Nat) (s : State) : (s.advance n).wx = s.wx := rfl
@[simp] theorem advance_flag (n : Nat) (s : State) (g : Flag) : (s.advance n).flag g = s.flag g := rfl

/-! ## `setFlag` -/

@[simp] theorem setFlag_A (f : Flag) (b : Bool) (s : State) : (s.setFlag f b).A = s.A := rfl
@[simp] theorem setFlag_X (f : Flag) (b : Bool) (s : State) : (s.setFlag f b).X = s.X := rfl
@[simp] theorem setFlag_Y (f : Flag) (b : Bool) (s : State) : (s.setFlag f b).Y = s.Y := rfl
@[simp] theorem setFlag_PC (f : Flag) (b : Bool) (s : State) : (s.setFlag f b).PC = s.PC := rfl
@[simp] theorem setFlag_PBR (f : Flag) (b : Bool) (s : State) : (s.setFlag f b).PBR = s.PBR := rfl
@[simp] theorem setFlag_DBR (f : Flag) (b : Bool) (s : State) : (s.setFlag f b).DBR = s.DBR := rfl
@[simp] theorem setFlag_DR (f : Flag) (b : Bool) (s : State) : (s.setFlag f b).DR = s.DR := rfl
@[simp] theorem setFlag_SP (f : Flag) (b : Bool) (s : State) : (s.setFlag f b).SP = s.SP := rfl
@[simp] theorem setFlag_P (f : Flag) (b : Bool) (s : State) : (s.setFlag f b).P = putFlag f b s.P := rfl
@[simp] theorem setFlag_e (f : Flag) (b : Bool) (s : State) : (s.setFlag f b).e = s.e := rfl
@[simp] theorem setFlag_run (f : Flag) (b : Bool) (s : State) : (s.setFlag f b).run = s.run := rfl
@[simp] theorem setFlag_bus (f : Flag) (b : Bool) (s : State) : (s.setFlag f b).bus = s.bus := rfl
@[simp] theorem setFlag_charOut (f : Flag) (b : Bool) (s : State) : (s.setFlag f b).charOut = s.charOut := rfl

/-! ## `withStack` -/

@[simp] theorem withStack_A (sp : Word) (b : Bus) (s : State) : (s.withStack sp b).A = s.A := rfl
@[simp] theorem withStack_X (sp : Word) (b : Bus) (s : State) : (s.withStack sp b).X = s.X := rfl
@[simp] theorem withStack_Y (sp : Word) (b : Bus) (s : State) : (s.withStack sp b).Y = s.Y := rfl
@[simp] theorem withStack_PC (sp : Word) (b : Bus) (s : State) : (s.withStack sp b).PC = s.PC := rfl
@[simp] theorem withStack_PBR (sp : Word) (b : Bus) (s : State) : (s.withStack sp b).PBR = s.PBR := rfl
@[simp] theorem withStack_DBR (sp : Word) (b : Bus) (s : State) : (s.withStack sp b).DBR = s.DBR := rfl
@[simp] theorem withStack_DR (sp : Word) (b : Bus) (s : State) : (s.withStack sp b).DR = s.DR := rfl
@[simp] theorem withStack_SP (sp : Word) (b : Bus) (s : State) : (s.withStack sp b).SP = sp := rfl
@[simp] theorem withStack_P (sp : Word) (b : Bus) (s : State) : (s.withStack sp b).P = s.P := rfl
@[simp] theorem withStack_e (sp : Word) (b : Bus) (s : State) : (s.withStack sp b).e = s.e := rfl
@[simp] theorem withStack_run (sp : Word) (b : Bus) (s : State) : (s.withStack sp b).run = s.run := rfl
@[simp] theorem withStack_bus (sp : Word) (b : Bus) (s : State) : (s.withStack sp b).bus = b := rfl
@[simp] theorem withStack_charOut (sp : Word) (b : Bus) (s : State) : (s.withStack sp b).charOut = s.charOut := rfl
@[simp] theorem withStack_m8 (sp : Word) (b : Bus) (s : State) : (s.withStack sp b).m8 = s.m8 := rfl
@[simp] theorem withStack_x8 (sp : Word) (b : Bus) (s : State) : (s.withStack sp b).x8 = s.x8 := rfl
@[simp] theorem withStack_wm (sp : Word) (b : Bus) (s : State) : (s.withStack sp b).wm = s.wm := rfl
@[simp] theorem withStack_wx (sp : Word) (b : Bus) (s : State) : (s.withStack sp b).wx = s.wx := rfl
@[simp] theorem withStack_flag (sp : Word) (b : Bus) (s : State) (g : Flag) : (s.withStack sp b).flag g = s.flag g := rfl

/-! ## `jumpLong` -/

@[simp] theorem jumpLong_A (a : Address) (s : State) : (s.jumpLong a).A = s.A := rfl
@[simp] theorem jumpLong_X (a : Address) (s : State) : (s.jumpLong a).X = s.X := rfl
@[simp] theorem jumpLong_Y (a : Address) (s : State) : (s.jumpLong a).Y = s.Y := rfl
@[simp] theorem jumpLong_PC (a : Address) (s : State) : (s.jumpLong a).PC = offsetOf a := rfl
@[simp] theorem jumpLong_PBR (a : Address) (s : State) : (s.jumpLong a).PBR = bankOf a := rfl
@[simp] theorem jumpLong_DBR (a : Address) (s : State) : (s.jumpLong a).DBR = s.DBR := rfl
@[simp] theorem jumpLong_DR (a : Address) (s : State) : (s.jumpLong a).DR = s.DR := rfl
@[simp] theorem jumpLong_SP (a : Address) (s : State) : (s.jumpLong a).SP = s.SP := rfl
@[simp] theorem jumpLong_P (a : Address) (s : State) : (s.jumpLong a).P = s.P := rfl
@[simp] theorem jumpLong_e (a : Address) (s : State) : (s.jumpLong a).e = s.e := rfl
@[simp] theorem jumpLong_run (a : Address) (s : State) : (s.jumpLong a).run = s.run := rfl
@[simp] theorem jumpLong_bus (a : Address) (s : State) : (s.jumpLong a).bus = s.bus := rfl
@[simp] theorem jumpLong_charOut (a : Address) (s : State) : (s.jumpLong a).charOut = s.charOut := rfl
@[simp] theorem jumpLong_m8 (a : Address) (s : State) : (s.jumpLong a).m8 = s.m8 := rfl
@[simp] theorem jumpLong_x8 (a : Address) (s : State) : (s.jumpLong a).x8 = s.x8 := rfl
@[simp] theorem jumpLong_wm (a : Address) (s : State) : (s.jumpLong a).wm = s.wm := rfl
@[simp] theorem jumpLong_wx (a : Address) (s : State) : (s.jumpLong a).wx = s.wx := rfl
@[simp] theorem jumpLong_flag (a : Address) (s : State) (g : Flag) : (s.jumpLong a).flag g = s.flag g := rfl

/-! ## `setNZ` -/

@[simp] theorem setNZ_A (v : Word) (w : Width) (s : State) : (s.setNZ v w).A = s.A := rfl
@[simp] theorem setNZ_X (v : Word) (w : Width) (s : State) : (s.setNZ v w).X = s.X := rfl
@[simp] theorem setNZ_Y (v : Word) (w : Width) (s : State) : (s.setNZ v w).Y = s.Y := rfl
@[simp] theorem setNZ_PC (v : Word) (w : Width) (s : State) : (s.setNZ v w).PC = s.PC := rfl
@[simp] theorem setNZ_PBR (v : Word) (w : Width) (s : State) : (s.setNZ v w).PBR = s.PBR := rfl
@[simp] theorem setNZ_DBR (v : Word) (w : Width) (s : State) : (s.setNZ v w).DBR = s.DBR := rfl
@[simp] theorem setNZ_DR (v : Word) (w : Width) (s : State) : (s.setNZ v w).DR = s.DR := rfl
@[simp] theorem setNZ_SP (v : Word) (w : Width) (s : State) : (s.setNZ v w).SP = s.SP := rfl
@[simp] theorem setNZ_P (v : Word) (w : Width) (s : State) : (s.setNZ v w).P = putFlag .n (w.msb v) (putFlag .z (w.trunc v == 0) s.P) := rfl
@[simp] theorem setNZ_e (v : Word) (w : Width) (s : State) : (s.setNZ v w).e = s.e := rfl
@[simp] theorem setNZ_run (v : Word) (w : Width) (s : State) : (s.setNZ v w).run = s.run := rfl
@[simp] theorem setNZ_bus (v : Word) (w : Width) (s : State) : (s.setNZ v w).bus = s.bus := rfl
@[simp] theorem setNZ_charOut (v : Word) (w : Width) (s : State) : (s.setNZ v w).charOut = s.charOut := rfl

/-! ## `normalize` and `writeP` -/

@[simp] theorem normalize_A (s : State) : s.normalize.A = s.A := rfl
@[simp] theorem normalize_X (s : State) : s.normalize.X = if s.x8 then zext16 (loByte s.X) else s.X := rfl
@[simp] theorem normalize_Y (s : State) : s.normalize.Y = if s.x8 then zext16 (loByte s.Y) else s.Y := rfl
@[simp] theorem normalize_PC (s : State) : s.normalize.PC = s.PC := rfl
@[simp] theorem normalize_PBR (s : State) : s.normalize.PBR = s.PBR := rfl
@[simp] theorem normalize_DBR (s : State) : s.normalize.DBR = s.DBR := rfl
@[simp] theorem normalize_DR (s : State) : s.normalize.DR = s.DR := rfl
@[simp] theorem normalize_SP (s : State) : s.normalize.SP = if s.e then mkWord Config.spEmuHigh (loByte s.SP) else s.SP := rfl
@[simp] theorem normalize_P (s : State) : s.normalize.P = s.P := rfl
@[simp] theorem normalize_e (s : State) : s.normalize.e = s.e := rfl
@[simp] theorem normalize_run (s : State) : s.normalize.run = s.run := rfl
@[simp] theorem normalize_bus (s : State) : s.normalize.bus = s.bus := rfl
@[simp] theorem normalize_charOut (s : State) : s.normalize.charOut = s.charOut := rfl
@[simp] theorem normalize_flag (s : State) (g : Flag) : s.normalize.flag g = s.flag g := rfl
@[simp] theorem normalize_m8 (s : State) : s.normalize.m8 = s.m8 := rfl
@[simp] theorem normalize_x8 (s : State) : s.normalize.x8 = s.x8 := rfl
@[simp] theorem writeP_A (v : Byte) (s : State) : (s.writeP v).A = s.A := rfl
@[simp] theorem writeP_X (v : Byte) (s : State) : (s.writeP v).X = if (s.e || v.getLsbD 4) then zext16 (loByte s.X) else s.X := rfl
@[simp] theorem writeP_Y (v : Byte) (s : State) : (s.writeP v).Y = if (s.e || v.getLsbD 4) then zext16 (loByte s.Y) else s.Y := rfl
@[simp] theorem writeP_PC (v : Byte) (s : State) : (s.writeP v).PC = s.PC := rfl
@[simp] theorem writeP_PBR (v : Byte) (s : State) : (s.writeP v).PBR = s.PBR := rfl
@[simp] theorem writeP_DBR (v : Byte) (s : State) : (s.writeP v).DBR = s.DBR := rfl
@[simp] theorem writeP_DR (v : Byte) (s : State) : (s.writeP v).DR = s.DR := rfl
@[simp] theorem writeP_SP (v : Byte) (s : State) : (s.writeP v).SP = if s.e then mkWord Config.spEmuHigh (loByte s.SP) else s.SP := rfl
@[simp] theorem writeP_P (v : Byte) (s : State) : (s.writeP v).P = v := rfl
@[simp] theorem writeP_e (v : Byte) (s : State) : (s.writeP v).e = s.e := rfl
@[simp] theorem writeP_run (v : Byte) (s : State) : (s.writeP v).run = s.run := rfl
@[simp] theorem writeP_bus (v : Byte) (s : State) : (s.writeP v).bus = s.bus := rfl
@[simp] theorem writeP_charOut (v : Byte) (s : State) : (s.writeP v).charOut = s.charOut := rfl
@[simp] theorem writeP_flag (v : Byte) (s : State) (g : Flag) : (s.writeP v).flag g = v.getLsbD g.bit := rfl

/-! ## `setE` -/

@[simp] theorem setE_A (b : Bool) (s : State) : (s.setE b).A = s.A := by cases b <;> rfl
@[simp] theorem setE_PC (b : Bool) (s : State) : (s.setE b).PC = s.PC := by cases b <;> rfl
@[simp] theorem setE_PBR (b : Bool) (s : State) : (s.setE b).PBR = s.PBR := by cases b <;> rfl
@[simp] theorem setE_DBR (b : Bool) (s : State) : (s.setE b).DBR = s.DBR := by cases b <;> rfl
@[simp] theorem setE_DR (b : Bool) (s : State) : (s.setE b).DR = s.DR := by cases b <;> rfl
@[simp] theorem setE_e (b : Bool) (s : State) : (s.setE b).e = b := by cases b <;> rfl
@[simp] theorem setE_run (b : Bool) (s : State) : (s.setE b).run = s.run := by cases b <;> rfl
@[simp] theorem setE_bus (b : Bool) (s : State) : (s.setE b).bus = s.bus := by cases b <;> rfl
@[simp] theorem setE_charOut (b : Bool) (s : State) : (s.setE b).charOut = s.charOut := by cases b <;> rfl

end Sys2Proof.Machine.State
end

