-- ==== Sys2Proof/Laws/Flags.lean ====
section
/-! SUPPORT. The flags after a flag is set: each other flag keeps its value. -/

namespace Sys2Proof.Machine

theorem getLsbD_putFlag (f g : Flag) (b : Bool) (p : Byte) :
    (putFlag f b p).getLsbD g.bit = if f = g then b else p.getLsbD g.bit := by
  cases b <;> cases f <;> cases g <;> simp [putFlag, Flag.mask, Flag.bit]

namespace State

@[simp] theorem setFlag_flag (f g : Flag) (b : Bool) (s : State) :
    (s.setFlag f b).flag g = if f = g then b else s.flag g := getLsbD_putFlag f g b s.P

@[simp] theorem setFlag_m8 (f : Flag) (b : Bool) (s : State) :
    (s.setFlag f b).m8 = (s.e || if f = .m then b else s.flag .m) := by
  simp [m8]

@[simp] theorem setFlag_x8 (f : Flag) (b : Bool) (s : State) :
    (s.setFlag f b).x8 = (s.e || if f = .x then b else s.flag .x) := by
  simp [x8]

theorem setNZ_flag (v : Word) (w : Width) (s : State) (g : Flag) :
    (s.setNZ v w).flag g = if g = .n then w.msb v else if g = .z then w.trunc v == 0 else s.flag g := by
  cases g <;> simp [setNZ]

@[simp] theorem setNZ_flag_n (v : Word) (w : Width) (s : State) : (s.setNZ v w).flag .n = w.msb v := by
  simp [setNZ_flag]

@[simp] theorem setNZ_flag_z (v : Word) (w : Width) (s : State) : (s.setNZ v w).flag .z = (w.trunc v == 0) := by
  simp [setNZ_flag]

@[simp] theorem setNZ_flag_other (v : Word) (w : Width) (s : State) (g : Flag) (hn : g ≠ .n) (hz : g ≠ .z) :
    (s.setNZ v w).flag g = s.flag g := by
  simp [setNZ_flag, hn, hz]

@[simp] theorem setNZ_m8 (v : Word) (w : Width) (s : State) : (s.setNZ v w).m8 = s.m8 := by
  simp [m8]

@[simp] theorem setNZ_x8 (v : Word) (w : Width) (s : State) : (s.setNZ v w).x8 = s.x8 := by
  simp [x8]

/-! ## `setE` -/

/-- Entering emulation mode sets `m` and `x`; leaving it changes no flag. -/
@[simp] theorem setE_flag (b : Bool) (s : State) (g : Flag) :
    (s.setE b).flag g = if b = true ∧ (g = .m ∨ g = .x) then true else s.flag g := by
  cases b
  · rfl
  · show ((({ s with e := true } : State).setFlag .m true).setFlag .x true).flag g = _
    rw [setFlag_flag, setFlag_flag]
    cases g <;> rfl

theorem setE_x8 (b : Bool) (s : State) : (s.setE b).x8 = (b || s.flag .x) := by
  simp only [x8, setE_e, setE_flag]
  cases b <;> simp

@[simp] theorem setE_X (b : Bool) (s : State) : (s.setE b).X = if b || s.flag .x then zext16 (loByte s.X) else s.X := by
  cases b <;> rfl

@[simp] theorem setE_Y (b : Bool) (s : State) : (s.setE b).Y = if b || s.flag .x then zext16 (loByte s.Y) else s.Y := by
  cases b <;> rfl

@[simp] theorem setE_SP (b : Bool) (s : State) :
    (s.setE b).SP = if b then mkWord Config.spEmuHigh (loByte s.SP) else s.SP := by
  cases b <;> rfl

/-- The flags of a result are those the statements name. -/
theorem setNZ_hasNZ (v : Word) (w : Width) (s : State) : HasNZ v w (s.setNZ v w) := by
  simp [HasNZ, Width.msb]

end State

end Sys2Proof.Machine
end

