-- ==== Sys2Proof/Laws/Ops.lean ====
section
/-! SUPPORT. One lemma for each shared operation over memory and the stack: which fields it changes, and what it does to the bus. -/

namespace Sys2Proof.Machine.State

theorem readByte_spec (loc : Loc) (s : State) :
    ∃ b', (s.readByte loc).2 = s.withBus b' ∧ s.bus.Frame [] b' := ⟨_, rfl, .readByte loc s.bus⟩

/-- A byte read at a linear location is one access of the bus at its address. -/
theorem readByte_lin (a : Address) (s : State) : (s.readByte (.lin a)).1 = (s.bus.read8 a).1 := by
  simp [readByte, Bus.readByte, Loc.byte]

theorem read16_spec (loc : Loc) (s : State) :
    ∃ b', (s.read16 loc).2 = s.withBus b' ∧ s.bus.Frame [] b' := ⟨_, rfl, .read16 loc s.bus⟩

theorem read24_spec (loc : Loc) (s : State) :
    ∃ b', (s.read24 loc).2 = s.withBus b' ∧ s.bus.Frame [] b' := ⟨_, rfl, .read24 loc s.bus⟩

theorem readLoc_spec (loc : Loc) (w : Width) (s : State) :
    ∃ b', (s.readLoc loc w).2 = s.withBus b' ∧ s.bus.Frame [] b' := by
  cases w
  · exact readByte_spec loc s
  · exact read16_spec loc s

theorem writeLoc_spec (loc : Loc) (w : Width) (v : Word) (s : State) :
    ∃ b', s.writeLoc loc w v = s.withBus b' ∧ s.bus.Frame (valueBytes loc w v) b' := by
  cases w
  · exact ⟨_, rfl, .writeByte loc (loByte v) s.bus⟩
  · exact ⟨_, rfl, .write16 loc v s.bus⟩

/-! ## The stack -/

@[simp] theorem pushSlot_zero (s : State) : s.pushSlot 0 = s.SP := rfl
@[simp] theorem pullSlot_zero (s : State) : s.pullSlot 0 = s.SP := rfl

/-- Slots counted from a state `k` bytes further down. -/
theorem pushSlot_add (s t : State) (k : Nat) (he : t.e = s.e) (hsp : t.SP = s.pushSlot k) (j : Nat) :
    t.pushSlot j = s.pushSlot (k + j) := by
  induction j with
  | zero => exact hsp
  | succ j ih => rw [← Nat.add_assoc]; simp only [pushSlot, he, ih]

/-- Slots counted from a state `k` bytes further up. -/
theorem pullSlot_add (s t : State) (k : Nat) (he : t.e = s.e) (hsp : t.SP = s.pullSlot k) (j : Nat) :
    t.pullSlot j = s.pullSlot (k + j) := by
  induction j with
  | zero => exact hsp
  | succ j ih => rw [← Nat.add_assoc]; simp only [pullSlot, he, ih]

theorem pushed_add (s t : State) (k : Nat) (he : t.e = s.e) (hsp : t.SP = s.pushSlot k) (vs : List Byte) (j : Nat) :
    t.pushed j vs = s.pushed (k + j) vs := by
  induction vs generalizing j with
  | nil => rfl
  | cons v vs ih => simp only [pushed, pushSlot_add s t k he hsp, ih (j + 1), Nat.add_assoc]

theorem pushed_append (s : State) (k : Nat) (vs ws : List Byte) :
    s.pushed k (vs ++ ws) = s.pushed k vs ++ s.pushed (k + vs.length) ws := by
  induction vs generalizing k with
  | nil => rfl
  | cons v vs ih => simp only [List.cons_append, pushed, ih, List.length_cons]; congr 3; omega

/-- A slot that is pinned to its page stays where it is when it is pinned again. -/
theorem pin_pushSlot (s : State) (k : Nat) :
    (if s.e then mkWord Config.spEmuHigh (loByte (s.pushSlot (k + 1))) else s.pushSlot (k + 1)) = s.pushSlot (k + 1) := by
  by_cases h : s.e = true <;> simp [pushSlot, h]

theorem pin_pullSlot (s : State) (k : Nat) :
    (if s.e then mkWord Config.spEmuHigh (loByte (s.pullSlot (k + 1))) else s.pullSlot (k + 1)) = s.pullSlot (k + 1) := by
  by_cases h : s.e = true <;> simp [pullSlot, h]

theorem push8_spec (v : Byte) (s : State) :
    ∃ b', s.push8 v = s.withStack (s.pushSlot 1) b' ∧ s.bus.Frame (s.pushed 0 [v]) b' := by
  refine ⟨_, rfl, ?_⟩
  have h := Bus.Frame.writeByte (.b0 s.SP) v s.bus
  simpa [Loc.b0, Loc.byte, pushed] using h

theorem push16_spec (v : Word) (s : State) :
    ∃ b', s.push16 v = s.withStack (s.pushSlot 2) b' ∧ s.bus.Frame (s.pushed 0 (pushBytes .w16 v)) b' := by
  obtain ⟨b1, h1, f1⟩ := push8_spec (hiByte v) s
  obtain ⟨b2, h2, f2⟩ := push8_spec (loByte v) (s.withStack (s.pushSlot 1) b1)
  refine ⟨b2, by rw [push16, h1, h2]; rfl, ?_⟩
  exact f1.trans f2

theorem push_spec (w : Width) (v : Word) (s : State) :
    ∃ b', s.push w v = s.withStack (s.pushSlot w.bytes) b' ∧ s.bus.Frame (s.pushed 0 (pushBytes w v)) b' := by
  cases w
  · exact push8_spec (loByte v) s
  · exact push16_spec v s

theorem pull8_spec (s : State) :
    ∃ b', s.pull8.2 = s.withStack (s.pullSlot 1) b' ∧ s.bus.Frame [] b' :=
  ⟨_, rfl, .readByte _ s.bus⟩

theorem pull16_spec (s : State) :
    ∃ b', s.pull16.2 = s.withStack (s.pullSlot 2) b' ∧ s.bus.Frame [] b' := by
  obtain ⟨b1, h1, f1⟩ := pull8_spec s
  obtain ⟨b2, h2, f2⟩ := pull8_spec (s.withStack (s.pullSlot 1) b1)
  exact ⟨b2, by simp only [pull16, h1, h2]; rfl, f1.trans_reads f2⟩

theorem pull_spec (w : Width) (s : State) :
    ∃ b', (s.pull w).2 = s.withStack (s.pullSlot w.bytes) b' ∧ s.bus.Frame [] b' := by
  cases w
  · exact pull8_spec s
  · exact pull16_spec s

/-- A pull at accumulator width answers what `Pull8` or `Pull16` answers. -/
theorem pull_wm (s : State) : (s.pull s.wm).1 = if s.m8 then zext16 s.pull8.1 else s.pull16.1 := by
  unfold pull wm
  cases s.m8 <;> rfl

/-- A pull at index width answers what `Pull8` or `Pull16` answers. -/
theorem pull_wx (s : State) : (s.pull s.wx).1 = if s.x8 then zext16 s.pull8.1 else s.pull16.1 := by
  unfold pull wx
  cases s.x8 <;> rfl

/-- A pull depends on the stack pointer, the mode and the bus alone. -/
theorem pull8_congr {s t : State} (hsp : s.SP = t.SP) (he : s.e = t.e) (hb : s.bus = t.bus) :
    s.pull8.1 = t.pull8.1 ∧ s.pull8.2.SP = t.pull8.2.SP ∧ s.pull8.2.e = t.pull8.2.e ∧ s.pull8.2.bus = t.pull8.2.bus := by
  simp [pull8, readByte, setSP, withBus, hsp, he, hb]

theorem pull16_congr {s t : State} (hsp : s.SP = t.SP) (he : s.e = t.e) (hb : s.bus = t.bus) :
    s.pull16.1 = t.pull16.1 ∧ s.pull16.2.SP = t.pull16.2.SP ∧ s.pull16.2.e = t.pull16.2.e ∧ s.pull16.2.bus = t.pull16.2.bus := by
  obtain ⟨h1, hsp1, he1, hb1⟩ := pull8_congr hsp he hb
  obtain ⟨h2, hsp2, he2, hb2⟩ := pull8_congr hsp1 he1 hb1
  exact ⟨by simp only [pull16, h1, h2], hsp2, he2, hb2⟩

/-! ## Software interrupts -/

/-- The bytes the entry of a software interrupt pushes, in order (60_exceptions.md R333). -/
theorem pushFrame_spec (k : SoftInt) (s : State) :
    ∃ b', s.pushFrame k = s.withStack (s.pushSlot (if s.e then 3 else 4)) b' ∧
      s.bus.Frame (s.pushed 0 ((if s.e then [] else [s.PBR]) ++ pushBytes .w16 (s.pcPlus 2) ++ [k.pushedP s])) b' := by
  by_cases he : s.e = true
  · obtain ⟨b1, h1, f1⟩ := push16_spec (s.pcPlus 2) s
    obtain ⟨b2, h2, f2⟩ := push8_spec (k.pushedP s) (s.withStack (s.pushSlot 2) b1)
    simp only [pushFrame, if_pos he, h1]
    exact ⟨b2, h2, f1.trans f2⟩
  · obtain ⟨b0, h0, f0⟩ := push8_spec s.PBR s
    obtain ⟨b1, h1, f1⟩ := push16_spec (s.pcPlus 2) (s.withStack (s.pushSlot 1) b0)
    obtain ⟨b2, h2, f2⟩ := push8_spec (k.pushedP s) (s.withStack (s.pushSlot 3) b1)
    simp only [pushFrame, if_neg he, h0]
    refine ⟨b2, ?_, (f0.trans f1).trans f2⟩
    have h1' : push16 (s.pcPlus 2) (s.withStack (s.pushSlot 1) b0) = s.withStack (s.pushSlot 3) b1 := h1
    rw [h1']
    exact h2

/-- What the entry of a software interrupt leaves (60_exceptions.md R333): the vector is read after the pushes. -/
theorem softInt_spec (k : SoftInt) (s : State) :
    ∃ b b', s.softInt k =
        ((((s.withStack (s.pushSlot (if s.e then 3 else 4)) b').setFlag .i true).setFlag .d false).setPBR 0).setPC
          (b.read16 (.b0 (k.vector s.e))).1 ∧
      b' = (b.read16 (.b0 (k.vector s.e))).2 ∧
      s.bus.Frame (s.pushed 0 ((if s.e then [] else [s.PBR]) ++ pushBytes .w16 (s.pcPlus 2) ++ [k.pushedP s])) b := by
  obtain ⟨b, hb, fb⟩ := pushFrame_spec k s
  exact ⟨b, _, by simp only [softInt, hb]; rfl, rfl, fb⟩

/-- What the return from one leaves (45_status_system.md R315). -/
theorem returnFromInt_spec (s : State) :
    ∃ b', s.returnFromInt =
        { s.writeP s.pull8.1 with
          SP := s.pullSlot (if s.e then 3 else 4)
          PC := s.pull8.2.pull16.1
          PBR := if s.e then s.PBR else s.pull8.2.pull16.2.pull8.1
          bus := b' } ∧
      s.bus.Frame [] b' := by
  obtain ⟨b1, hb1, fb1⟩ := pull8_spec s
  have hw : s.pull8.2.writeP s.pull8.1 = (s.writeP s.pull8.1).withStack (s.pullSlot 1) b1 := by
    rw [hb1]
    simp only [writeP, normalize, withStack]
    congr 1
    exact pin_pullSlot s 0
  have hc := pull16_congr (s := s.pull8.2.writeP s.pull8.1) (t := s.pull8.2) (by rw [hw, hb1]; rfl) rfl rfl
  obtain ⟨b2, hb2, fb2⟩ := pull16_spec (s.pull8.2.writeP s.pull8.1)
  have hs2 := pullSlot_add s (s.pull8.2.writeP s.pull8.1) 1 rfl (by rw [hw]; rfl) 2
  rw [hs2, hw, withStack_withStack, ← hw] at hb2
  have f12 : s.bus.Frame [] b2 := fb1.trans_reads (by simpa [hw] using fb2)
  by_cases he : s.e = true
  · refine ⟨b2, ?_, f12⟩
    simp only [returnFromInt, if_pos he, hb2, ← hc.1]
    rfl
  · obtain ⟨b3, hb3, fb3⟩ := pull8_spec ((s.pull8.2.writeP s.pull8.1).pull16.2.setPC (s.pull8.2.writeP s.pull8.1).pull16.1)
    have hd := pull8_congr (s := (s.pull8.2.writeP s.pull8.1).pull16.2.setPC (s.pull8.2.writeP s.pull8.1).pull16.1)
      (t := s.pull8.2.pull16.2) hc.2.1 hc.2.2.1 hc.2.2.2
    have hs3 := pullSlot_add s ((s.pull8.2.writeP s.pull8.1).pull16.2.setPC (s.pull8.2.writeP s.pull8.1).pull16.1) 3
      (by rw [hb2]; rfl) (by rw [hb2]; rfl) 1
    refine ⟨b3, ?_, f12.trans_reads (by simpa [hb2] using fb3)⟩
    simp only [returnFromInt, if_neg he, ← hc.1, ← hd.1, hb3, hs3]
    rw [hb2]
    rfl

end Sys2Proof.Machine.State
end

