-- ==== Sys2Proof/Laws/Operands.lean ====
section
/-! SUPPORT. One lemma for each operation of the addressing-mode multiplexer: reading an operand changes nothing but the history, and a
write or a read-modify-write stores exactly the bytes of its location. -/

namespace Sys2Proof.Machine.State

/-- The index values of R132, as a choice by the width. -/
theorem rdX_eq (s : State) : s.rdX = if s.x8 then zext16 (loByte s.X) else s.X := by
  simp only [rdX, wx]
  cases s.x8 <;> rfl

theorem rdY_eq (s : State) : s.rdY = if s.x8 then zext16 (loByte s.Y) else s.Y := by
  simp only [rdY, wx]
  cases s.x8 <;> rfl

theorem ea_spec (m : Mem) (s : State) :
    ∃ b', (s.ea m).2 = s.withBus b' ∧ s.bus.Frame [] b' := by
  cases m with
  | idp d => exact ⟨_, rfl, .read16 _ s.bus⟩
  | idpx d => exact ⟨_, rfl, .read16 _ s.bus⟩
  | idpy d => exact ⟨_, rfl, .read16 _ s.bus⟩
  | isry d => exact ⟨_, rfl, .read16 _ s.bus⟩
  | idl d => exact ⟨_, rfl, .read24 _ s.bus⟩
  | idly d => exact ⟨_, rfl, .read24 _ s.bus⟩
  | _ => exact ⟨s.bus, rfl, .refl s.bus⟩

theorem readMem_spec (m : Mem) (w : Width) (s : State) :
    ∃ b', (s.readMem m w).2 = s.withBus b' ∧ s.bus.Frame [] b' := by
  obtain ⟨b1, h1, f1⟩ := ea_spec m s
  obtain ⟨b2, h2, f2⟩ := readLoc_spec (s.ea m).1 w (s.ea m).2
  rw [h1] at h2 f2
  exact ⟨b2, by rw [readMem, h1]; exact h2, f1.trans_reads f2⟩

theorem operand_spec (o : Src) (w : Width) (s : State) :
    ∃ b', (s.operand o w).2 = s.withBus b' ∧ s.bus.Frame [] b' := by
  cases o with
  | imm v => exact ⟨s.bus, rfl, .refl s.bus⟩
  | mem m => exact readMem_spec m w s

theorem writeMem_spec (m : Mem) (w : Width) (v : Word) (s : State) :
    ∃ b', s.writeMem m w v = s.withBus b' ∧ s.bus.Frame (valueBytes (s.ea m).1 w v) b' := by
  obtain ⟨b1, h1, f1⟩ := ea_spec m s
  obtain ⟨b2, h2, f2⟩ := writeLoc_spec (s.ea m).1 w v (s.ea m).2
  rw [h1] at f2
  refine ⟨b2, ?_, ?_⟩
  · rw [writeMem, h2, h1, withBus_withBus]
  · simpa using f1.trans f2

theorem modifyMem_spec (m : Mem) (w : Width) (g : Word → Word) (s : State) :
    ∃ b', (s.modifyMem m w g).2 = s.withBus b' ∧
      s.bus.Frame (valueBytes (s.ea m).1 w (g (s.readMem m w).1)) b' := by
  obtain ⟨b1, h1, f1⟩ := readMem_spec m w s
  have hr : (s.readMem m w) = (s.ea m).2.readLoc (s.ea m).1 w := rfl
  obtain ⟨b2, h2, f2⟩ := writeLoc_spec (s.ea m).1 w (g (s.readMem m w).1) (s.readMem m w).2
  rw [h1] at f2
  refine ⟨b2, ?_, ?_⟩
  · rw [modifyMem]
    simp only [← hr]
    rw [h2, h1, withBus_withBus]
  · simpa using f1.trans f2

theorem modifyMem_fst (m : Mem) (w : Width) (g : Word → Word) (s : State) : (s.modifyMem m w g).1 = (s.readMem m w).1 := rfl

theorem pointerInd_spec (a : Word) (s : State) :
    ∃ b', (s.pointerInd a).2 = s.withBus b' ∧ s.bus.Frame [] b' := read16_spec _ s

theorem pointerIndX_spec (a : Word) (s : State) :
    ∃ b', (s.pointerIndX a).2 = s.withBus b' ∧ s.bus.Frame [] b' := read16_spec _ s

theorem pointerIndL_spec (a : Word) (s : State) :
    ∃ b', (s.pointerIndL a).2 = s.withBus b' ∧ s.bus.Frame [] b' := read24_spec _ s

end Sys2Proof.Machine.State
end

