-- ==== Sys2Proof/Laws/Contents.lean ====
section
/-! SUPPORT. Every memory operation of the machine keeps the canonical form of every device's contents: a read changes no device at all,
and a write keeps the form (`Bus.write8_devicesWf`). -/

namespace Sys2Proof.Machine.State

/-! ## Reads change no device -/

@[simp] theorem readByte_devices (loc : Loc) (s : State) : (s.readByte loc).2.bus.devices = s.bus.devices := rfl
@[simp] theorem read16_devices (loc : Loc) (s : State) : (s.read16 loc).2.bus.devices = s.bus.devices := rfl
@[simp] theorem read24_devices (loc : Loc) (s : State) : (s.read24 loc).2.bus.devices = s.bus.devices := rfl
@[simp] theorem pull8_devices (s : State) : s.pull8.2.bus.devices = s.bus.devices := rfl
@[simp] theorem pull16_devices (s : State) : s.pull16.2.bus.devices = s.bus.devices := rfl

@[simp] theorem readLoc_devices (loc : Loc) (w : Width) (s : State) : (s.readLoc loc w).2.bus.devices = s.bus.devices := by
  cases w <;> rfl

@[simp] theorem pull_devices (w : Width) (s : State) : (s.pull w).2.bus.devices = s.bus.devices := by
  cases w <;> rfl

@[simp] theorem ea_devices (m : Mem) (s : State) : (s.ea m).2.bus.devices = s.bus.devices := by
  cases m <;> rfl

@[simp] theorem readMem_devices (m : Mem) (w : Width) (s : State) : (s.readMem m w).2.bus.devices = s.bus.devices := by
  simp [readMem]

@[simp] theorem operand_devices (o : Src) (w : Width) (s : State) : (s.operand o w).2.bus.devices = s.bus.devices := by
  cases o <;> simp [operand]

@[simp] theorem pointerInd_devices (a : Word) (s : State) : (s.pointerInd a).2.bus.devices = s.bus.devices := rfl
@[simp] theorem pointerIndX_devices (a : Word) (s : State) : (s.pointerIndX a).2.bus.devices = s.bus.devices := rfl
@[simp] theorem pointerIndL_devices (a : Word) (s : State) : (s.pointerIndL a).2.bus.devices = s.bus.devices := rfl

theorem returnFromInt_devices (s : State) : s.returnFromInt.bus.devices = s.bus.devices := by
  simp only [returnFromInt]
  split <;> simp

/-! ## Writes keep the canonical form -/

/-- The form depends on the devices alone. -/
theorem DevicesWf.congr {s t : State} (h : t.bus.devices = s.bus.devices) (hs : s.DevicesWf) : t.DevicesWf := by
  simpa [DevicesWf, h] using hs

theorem writeLoc_devicesWf (loc : Loc) (w : Width) (v : Word) (s : State) (h : s.DevicesWf) : (s.writeLoc loc w v).DevicesWf := by
  cases w
  · exact Bus.write8_devicesWf _ _ _ h
  · exact Bus.write8_devicesWf _ _ _ (Bus.write8_devicesWf _ _ _ h)

theorem push8_devicesWf (v : Byte) (s : State) (h : s.DevicesWf) : (s.push8 v).DevicesWf :=
  Bus.write8_devicesWf _ _ _ h

theorem push16_devicesWf (v : Word) (s : State) (h : s.DevicesWf) : (s.push16 v).DevicesWf :=
  push8_devicesWf _ _ (push8_devicesWf _ _ h)

theorem push_devicesWf (w : Width) (v : Word) (s : State) (h : s.DevicesWf) : (s.push w v).DevicesWf := by
  cases w
  · exact push8_devicesWf _ _ h
  · exact push16_devicesWf _ _ h

theorem writeMem_devicesWf (m : Mem) (w : Width) (v : Word) (s : State) (h : s.DevicesWf) : (s.writeMem m w v).DevicesWf :=
  writeLoc_devicesWf _ _ _ _ (h.congr (ea_devices m s))

theorem modifyMem_devicesWf (m : Mem) (w : Width) (g : Word → Word) (s : State) (h : s.DevicesWf) :
    (s.modifyMem m w g).2.DevicesWf :=
  writeLoc_devicesWf _ _ _ _ (h.congr (readMem_devices m w s))

theorem rmw_devicesWf (o : Rmw) (g : Word → Word) (s : State) (h : s.DevicesWf) : (s.rmw o g).2.DevicesWf := by
  cases o with
  | acc => exact h
  | mem m => exact modifyMem_devicesWf m s.wm g s h

theorem blockMove_devicesWf (dst src : Byte) (step : Word) (s : State) (h : s.DevicesWf) :
    (s.blockMove dst src step).DevicesWf :=
  Bus.write8_devicesWf _ _ _ h

theorem softInt_devicesWf (k : SoftInt) (s : State) (h : s.DevicesWf) : (s.softInt k).DevicesWf := by
  have hf : (s.pushFrame k).DevicesWf := by
    simp only [pushFrame]
    split
    · exact push8_devicesWf _ _ (push16_devicesWf _ _ h)
    · exact push8_devicesWf _ _ (push16_devicesWf _ _ (push8_devicesWf _ _ h))
  exact hf.congr (by simp [softInt])

/-- Reset leaves every RAM empty, which is canonical, and every ROM as it is. -/
theorem reset_devicesWf (b : Bus) (h : b.devices.all Bus.deviceWf = true) : b.reset.devices.all Bus.deviceWf = true := by
  rw [List.all_eq_true] at h ⊢
  intro d hd
  obtain ⟨d', hd', rfl⟩ := List.mem_map.mp hd
  have := h d' hd'
  cases d' <;> simp_all [Bus.deviceWf, Device.reset, Memory.wf, Memory.wfFrom]

end Sys2Proof.Machine.State
end

