-- ==== Sys2Proof/Laws/Decode.lean ====
section
/-! SUPPORT. The opcode map has an entry for every opcode byte, and how the decoder reads a byte list. -/

namespace Sys2Proof

/-- `optab` has 256 entries, one for each opcode byte (30_encoding.md R104, R106). -/
theorem optab_length : optab.length = 256 := by decide +kernel

/-- The opcode of a byte list is an entry of the map. -/
theorem decodeOp_eq (op : Byte) (o : Operands) :
    ∃ h : op.toNat < optab.length, decodeOp op o = (optab[op.toNat]'h) o := by
  have h : op.toNat < optab.length := by
    rw [optab_length]
    exact op.isLt
  exact ⟨h, by simp only [decodeOp, List.getD_eq_getElem?_getD, List.getElem?_eq_getElem h, Option.getD_some]⟩

/-- Bytes as long as the opcode asks for, read whole. -/
theorem decode_cons_append (m8 x8 : Bool) (op : Byte) (bs rest : List Byte) (h : bs.length = opLen op m8 x8 - 1) :
    decode m8 x8 (op :: bs ++ rest) = .ok (decodeBytes m8 x8 op bs, rest) := by
  simp [decode, ← h]

end Sys2Proof
end

