-- ==== Sys2Proof/Laws/Fetch.lean ====
section
/-! SUPPORT. Fetching an instruction reads its bytes and changes nothing but the history. -/

namespace Sys2Proof.Machine.State

theorem fetchByte_spec (k : Nat) (s : State) :
    ∃ b', (s.fetchByte k).2 = s.withBus b' ∧ b'.devices = s.bus.devices ∧ s.bus.Frame [] b' :=
  ⟨_, rfl, rfl, .read8 _ s.bus⟩

theorem fetchBytes_spec (n k : Nat) (s : State) :
    ∃ b', (s.fetchBytes n k).2 = s.withBus b' ∧ b'.devices = s.bus.devices ∧ s.bus.Frame [] b' := by
  induction n generalizing k s with
  | zero => exact ⟨s.bus, rfl, rfl, .refl s.bus⟩
  | succ n ih =>
    obtain ⟨b1, h1, d1, f1⟩ := fetchByte_spec k s
    obtain ⟨b2, h2, d2, f2⟩ := ih (k + 1) (s.fetchByte k).2
    rw [h1] at h2 d2 f2
    refine ⟨b2, ?_, d2.trans d1, f1.trans_reads f2⟩
    simp only [fetchBytes, h1]
    exact h2

theorem fetch_spec (s : State) :
    ∃ b', s.fetch.2 = s.withBus b' ∧ b'.devices = s.bus.devices ∧ s.bus.Frame [] b' := by
  obtain ⟨b1, h1, d1, f1⟩ := fetchByte_spec 0 s
  obtain ⟨b2, h2, d2, f2⟩ := fetchBytes_spec (opLen (s.fetchByte 0).1 s.m8 s.x8 - 1) 1 (s.fetchByte 0).2
  rw [h1] at h2 d2 f2
  refine ⟨b2, ?_, d2.trans d1, f1.trans_reads f2⟩
  simp only [fetch, h1]
  exact h2

@[simp] theorem fetchBytes_length (n k : Nat) (s : State) : (s.fetchBytes n k).1.length = n := by
  induction n generalizing k s with
  | zero => rfl
  | succ n ih => simp [fetchBytes, ih]

/-- The bytes of an instruction are fetched in two stretches as in one. -/
theorem fetchBytes_succ (n k : Nat) (s : State) :
    s.fetchBytes (n + 1) k =
      ((s.fetchByte k).1 :: ((s.fetchByte k).2.fetchBytes n (k + 1)).1, ((s.fetchByte k).2.fetchBytes n (k + 1)).2) := rfl

/-- A byte the block itself holds at the address is the byte fetched. -/
theorem fetchByte_of_byteAt {k : Nat} {s : State} {v : Byte} (h : s.bus.byteAt (mkAddr s.PBR (s.PC + BitVec.ofNat 16 k)) = some v) :
    (s.fetchByte k).1 = v := Bus.read8_of_byteAt h

end Sys2Proof.Machine.State
end

