-- ==== Sys2Proof/Laws/PerInstr.lean ====
section
/-! SUPPORT. The family EncodedLength, one lemma for each constructor of `Instr`: an instruction in one of its forms is encoded in as many
bytes as its format has under the widths (30_encoding.md R102). -/

namespace Sys2Proof

theorem Mem.length_operandBytes (m : Mem) (m8 x8 : Bool) : m.operandBytes.length + 1 = m.format.len m8 x8 := by
  cases m <;> rfl

theorem Rmw.length_operandBytes (o : Rmw) (m8 x8 : Bool) : o.operandBytes.length + 1 = o.format.len m8 x8 := by
  cases o with
  | acc => rfl
  | mem m => exact m.length_operandBytes m8 x8

theorem Src.length_immm (o : Src) (m8 x8 : Bool) : (o.operandBytes m8).length + 1 = (o.format .immm).len m8 x8 := by
  cases o with
  | imm v => cases m8 <;> rfl
  | mem m => exact m.length_operandBytes m8 x8

theorem Src.length_immx (o : Src) (m8 x8 : Bool) : (o.operandBytes x8).length + 1 = (o.format .immx).len m8 x8 := by
  cases o with
  | imm v => cases x8 <;> rfl
  | mem m => exact m.length_operandBytes m8 x8

/-- Every form an instruction has is in its list of opcodes (R105). -/
theorem Instr.forms_have_opcodes (i : Instr) : i.forms.all (fun f => (i.opcodes.lookup f).isSome) = true := by
  cases i <;> rfl

theorem Instr.opcode_isSome (i : Instr) (h : i.formOk = true) : i.opcode.isSome = true := by
  have hm : i.format ∈ i.forms := by simpa [Instr.formOk] using h
  exact List.all_eq_true.mp i.forms_have_opcodes i.format hm

namespace Laws.EncodedLength

/-- The encoding of the instruction has the length of its format. -/
def Statement (i : Instr) : Prop := ∀ m8 x8 : Bool, i.formOk = true → (encode m8 x8 i).length = i.len m8 x8

theorem of_length {i : Instr} (h : ∀ m8 x8, (i.operandBytes m8 x8).length + 1 = i.len m8 x8) : Statement i := by
  intro m8 x8 hf
  obtain ⟨op, hop⟩ := Option.isSome_iff_exists.mp (i.opcode_isSome hf)
  simp [encode, hop, h]

theorem lda (o : Src) : Statement (.lda o) := of_length fun m8 x8 => o.length_immm m8 x8
theorem ldx (o : Src) : Statement (.ldx o) := of_length fun m8 x8 => o.length_immx m8 x8
theorem ldy (o : Src) : Statement (.ldy o) := of_length fun m8 x8 => o.length_immx m8 x8
theorem sta (m : Mem) : Statement (.sta m) := of_length m.length_operandBytes
theorem stx (m : Mem) : Statement (.stx m) := of_length m.length_operandBytes
theorem sty (m : Mem) : Statement (.sty m) := of_length m.length_operandBytes
theorem stz (m : Mem) : Statement (.stz m) := of_length m.length_operandBytes
theorem adc (o : Src) : Statement (.adc o) := of_length fun m8 x8 => o.length_immm m8 x8
theorem sbc (o : Src) : Statement (.sbc o) := of_length fun m8 x8 => o.length_immm m8 x8
theorem and (o : Src) : Statement (.and o) := of_length fun m8 x8 => o.length_immm m8 x8
theorem ora (o : Src) : Statement (.ora o) := of_length fun m8 x8 => o.length_immm m8 x8
theorem eor (o : Src) : Statement (.eor o) := of_length fun m8 x8 => o.length_immm m8 x8
theorem cmp (o : Src) : Statement (.cmp o) := of_length fun m8 x8 => o.length_immm m8 x8
theorem cpx (o : Src) : Statement (.cpx o) := of_length fun m8 x8 => o.length_immx m8 x8
theorem cpy (o : Src) : Statement (.cpy o) := of_length fun m8 x8 => o.length_immx m8 x8
theorem bit (o : Src) : Statement (.bit o) := of_length fun m8 x8 => o.length_immm m8 x8
theorem tsb (m : Mem) : Statement (.tsb m) := of_length m.length_operandBytes
theorem trb (m : Mem) : Statement (.trb m) := of_length m.length_operandBytes
theorem inc (o : Rmw) : Statement (.inc o) := of_length o.length_operandBytes
theorem dec (o : Rmw) : Statement (.dec o) := of_length o.length_operandBytes
theorem inx : Statement .inx := of_length fun _ _ => rfl
theorem iny : Statement .iny := of_length fun _ _ => rfl
theorem dex : Statement .dex := of_length fun _ _ => rfl
theorem dey : Statement .dey := of_length fun _ _ => rfl
theorem asl (o : Rmw) : Statement (.asl o) := of_length o.length_operandBytes
theorem lsr (o : Rmw) : Statement (.lsr o) := of_length o.length_operandBytes
theorem rol (o : Rmw) : Statement (.rol o) := of_length o.length_operandBytes
theorem ror (o : Rmw) : Statement (.ror o) := of_length o.length_operandBytes
theorem tax : Statement .tax := of_length fun _ _ => rfl
theorem tay : Statement .tay := of_length fun _ _ => rfl
theorem txa : Statement .txa := of_length fun _ _ => rfl
theorem tya : Statement .tya := of_length fun _ _ => rfl
theorem txy : Statement .txy := of_length fun _ _ => rfl
theorem tyx : Statement .tyx := of_length fun _ _ => rfl
theorem tsx : Statement .tsx := of_length fun _ _ => rfl
theorem txs : Statement .txs := of_length fun _ _ => rfl
theorem tcd : Statement .tcd := of_length fun _ _ => rfl
theorem tdc : Statement .tdc := of_length fun _ _ => rfl
theorem tcs : Statement .tcs := of_length fun _ _ => rfl
theorem tsc : Statement .tsc := of_length fun _ _ => rfl
theorem xba : Statement .xba := of_length fun _ _ => rfl
theorem pha : Statement .pha := of_length fun _ _ => rfl
theorem phx : Statement .phx := of_length fun _ _ => rfl
theorem phy : Statement .phy := of_length fun _ _ => rfl
theorem php : Statement .php := of_length fun _ _ => rfl
theorem phb : Statement .phb := of_length fun _ _ => rfl
theorem phd : Statement .phd := of_length fun _ _ => rfl
theorem phk : Statement .phk := of_length fun _ _ => rfl
theorem pla : Statement .pla := of_length fun _ _ => rfl
theorem plx : Statement .plx := of_length fun _ _ => rfl
theorem ply : Statement .ply := of_length fun _ _ => rfl
theorem plp : Statement .plp := of_length fun _ _ => rfl
theorem plb : Statement .plb := of_length fun _ _ => rfl
theorem pld : Statement .pld := of_length fun _ _ => rfl
theorem pea (v : Word) : Statement (.pea v) := of_length fun _ _ => rfl
theorem pei (v : Byte) : Statement (.pei v) := of_length fun _ _ => rfl
theorem per (v : Word) : Statement (.per v) := of_length fun _ _ => rfl
theorem mvn (dst src : Byte) : Statement (.mvn dst src) := of_length fun _ _ => rfl
theorem mvp (dst src : Byte) : Statement (.mvp dst src) := of_length fun _ _ => rfl
theorem bcc (v : Byte) : Statement (.bcc v) := of_length fun _ _ => rfl
theorem bcs (v : Byte) : Statement (.bcs v) := of_length fun _ _ => rfl
theorem beq (v : Byte) : Statement (.beq v) := of_length fun _ _ => rfl
theorem bne (v : Byte) : Statement (.bne v) := of_length fun _ _ => rfl
theorem bmi (v : Byte) : Statement (.bmi v) := of_length fun _ _ => rfl
theorem bpl (v : Byte) : Statement (.bpl v) := of_length fun _ _ => rfl
theorem bvc (v : Byte) : Statement (.bvc v) := of_length fun _ _ => rfl
theorem bvs (v : Byte) : Statement (.bvs v) := of_length fun _ _ => rfl
theorem bra (v : Byte) : Statement (.bra v) := of_length fun _ _ => rfl
theorem brl (v : Word) : Statement (.brl v) := of_length fun _ _ => rfl
theorem jmp (t : JmpTarget) : Statement (.jmp t) := of_length fun _ _ => by cases t <;> rfl
theorem jml (t : JmlTarget) : Statement (.jml t) := of_length fun _ _ => by cases t <;> rfl
theorem jsr (t : JsrTarget) : Statement (.jsr t) := of_length fun _ _ => by cases t <;> rfl
theorem jsl (al : Address) : Statement (.jsl al) := of_length fun _ _ => rfl
theorem rts : Statement .rts := of_length fun _ _ => rfl
theorem rtl : Statement .rtl := of_length fun _ _ => rfl
theorem clc : Statement .clc := of_length fun _ _ => rfl
theorem sec : Statement .sec := of_length fun _ _ => rfl
theorem cli : Statement .cli := of_length fun _ _ => rfl
theorem sei : Statement .sei := of_length fun _ _ => rfl
theorem cld : Statement .cld := of_length fun _ _ => rfl
theorem sed : Statement .sed := of_length fun _ _ => rfl
theorem clv : Statement .clv := of_length fun _ _ => rfl
theorem rep (v : Byte) : Statement (.rep v) := of_length fun _ _ => rfl
theorem sep (v : Byte) : Statement (.sep v) := of_length fun _ _ => rfl
theorem xce : Statement .xce := of_length fun _ _ => rfl
theorem nop : Statement .nop := of_length fun _ _ => rfl
theorem wdm (v : Byte) : Statement (.wdm v) := of_length fun _ _ => rfl
theorem brk (v : Byte) : Statement (.brk v) := of_length fun _ _ => rfl
theorem cop (v : Byte) : Statement (.cop v) := of_length fun _ _ => rfl
theorem rti : Statement .rti := of_length fun _ _ => rfl
theorem wai : Statement .wai := of_length fun _ _ => rfl
theorem stp : Statement .stp := of_length fun _ _ => rfl

end Laws.EncodedLength

end Sys2Proof
end

