-- ==== Sys2Proof/Laws/Width.lean ====
section
/-! SUPPORT. What the statements say of a value depends on the value at the width of the operation alone. -/

namespace Sys2Proof.Machine

theorem valueBytes_congr (loc : Loc) (w : Width) (u v : Word) (h : w.trunc u = w.trunc v) : valueBytes loc w u = valueBytes loc w v := by
  rw [Width.trunc_eq_iff] at h
  cases w
  · simp only at h
    simp [valueBytes, h]
  · rw [show u = v from h]

theorem pushBytes_congr (w : Width) (u v : Word) (h : w.trunc u = w.trunc v) : pushBytes w u = pushBytes w v := by
  rw [Width.trunc_eq_iff] at h
  cases w
  · simp only at h
    simp [pushBytes, h]
  · rw [show u = v from h]

theorem HasNZ.congr {w : Width} {u v : Word} {t : State} (h : w.trunc u = w.trunc v) (hn : HasNZ u w t) : HasNZ v w t :=
  ⟨h ▸ hn.1, hn.2.trans (Width.msb_congr w u v h)⟩

theorem WrittenKeep.congr {narrow : Bool} {u v old new : Word} (h : (Width.ofNarrow narrow).trunc u = (Width.ofNarrow narrow).trunc v)
    (hn : WrittenKeep narrow u old new) : WrittenKeep narrow v old new := by
  rw [Width.trunc_eq_iff] at h
  cases narrow
  · exact (show u = v from h) ▸ hn
  · simp only [Width.ofNarrow] at h
    simpa [WrittenKeep, h] using hn

theorem WrittenLow.congr {narrow : Bool} {u v new : Word} (h : (Width.ofNarrow narrow).trunc u = (Width.ofNarrow narrow).trunc v)
    (hn : WrittenLow narrow u new) : WrittenLow narrow v new := by
  rw [Width.trunc_eq_iff] at h
  cases narrow
  · exact (show u = v from h) ▸ hn
  · simp only [Width.ofNarrow] at h
    simpa [WrittenLow, h] using hn

/-- `WrA` as the statements say it. -/
theorem State.wrA_written (v : Word) (s : State) : WrittenKeep s.m8 v s.A (s.wrA v).A := rfl

/-- `WrX` as the statements say it. -/
theorem State.wrX_written (v : Word) (s : State) : WrittenLow s.x8 v (s.wrX v).X := by
  simp only [WrittenLow, State.wrX_X, State.wx]
  cases s.x8 <;> rfl

/-- `WrY` as the statements say it. -/
theorem State.wrY_written (v : Word) (s : State) : WrittenLow s.x8 v (s.wrY v).Y := by
  simp only [WrittenLow, State.wrY_Y, State.wx]
  cases s.x8 <;> rfl

end Sys2Proof.Machine
end

