-- ==== Sys2Proof/Machine/Assembler.lean ====
section
/-! DEFINITION. The assembler syntax (30_encoding.md R120, R121): the bytes of one statement, from its text. It is the inverse of the
disassembler's text and no part of the machine. -/

namespace Sys2Proof

/-- The value of an upper-case hexadecimal digit. -/
def hexValue (c : Char) : Option Nat :=
  if '0' ≤ c ∧ c ≤ '9' then some (c.toNat - '0'.toNat)
  else if 'A' ≤ c ∧ c ≤ 'F' then some (c.toNat - 'A'.toNat + 10)
  else none

/-- The digits a text begins with: how many there are, with `k` before, their value, and the text after them. -/
def takeHex : List Char → (k value : Nat) → Nat × Nat × List Char
  | [], k, v => (k, v, [])
  | c :: cs, k, v =>
    match hexValue c with
    | some d => takeHex cs (k + 1) (v * 16 + d)
    | none => (k, v, c :: cs)

/-- An operand as it is written: the formats it can stand for (R101, column "assembler operand"), how many digits its number has, the
number, and the second number of a block move. -/
structure OperandText where
  forms : List Format
  digits : Nat
  value : Nat
  second : Nat
  deriving DecidableEq, Repr

/-- The operand of a number that follows `#$`. -/
def immediateText (cs : List Char) : Option OperandText :=
  match takeHex cs 0 0 with
  | (2, v, []) => some ⟨[.imm8, .sig, .immm, .immx], 2, v, 0⟩
  | (4, v, []) => some ⟨[.imm16, .immm, .immx], 4, v, 0⟩
  | _ => none

/-- The operand of a number that follows `$`: an address, a branch target, or the word of PEA. -/
def addressText (cs : List Char) : Option OperandText :=
  match takeHex cs 0 0 with
  | (2, v, []) => some ⟨[.dp], 2, v, 0⟩
  | (2, v, [',', 'X']) => some ⟨[.dpx], 2, v, 0⟩
  | (2, v, [',', 'Y']) => some ⟨[.dpy], 2, v, 0⟩
  | (2, v, [',', 'S']) => some ⟨[.sr], 2, v, 0⟩
  | (2, v, ',' :: '$' :: rest) =>
    match takeHex rest 0 0 with
    | (2, w, []) => some ⟨[.blk], 2, v, w⟩
    | _ => none
  | (4, v, []) => some ⟨[.abs, .rel8, .rel16, .imm16], 4, v, 0⟩
  | (4, v, [',', 'X']) => some ⟨[.absx], 4, v, 0⟩
  | (4, v, [',', 'Y']) => some ⟨[.absy], 4, v, 0⟩
  | (6, v, []) => some ⟨[.abl], 6, v, 0⟩
  | (6, v, [',', 'X']) => some ⟨[.ablx], 6, v, 0⟩
  | _ => none

/-- The operand of a number that follows `($`. -/
def indirectText (cs : List Char) : Option OperandText :=
  match takeHex cs 0 0 with
  | (2, v, [')']) => some ⟨[.idp], 2, v, 0⟩
  | (2, v, [',', 'X', ')']) => some ⟨[.idpx], 2, v, 0⟩
  | (2, v, [')', ',', 'Y']) => some ⟨[.idpy], 2, v, 0⟩
  | (2, v, [',', 'S', ')', ',', 'Y']) => some ⟨[.isry], 2, v, 0⟩
  | (4, v, [')']) => some ⟨[.ind], 4, v, 0⟩
  | (4, v, [',', 'X', ')']) => some ⟨[.indx], 4, v, 0⟩
  | _ => none

/-- The operand of a number that follows `[$`. -/
def longIndirectText (cs : List Char) : Option OperandText :=
  match takeHex cs 0 0 with
  | (2, v, [']']) => some ⟨[.idl], 2, v, 0⟩
  | (2, v, [']', ',', 'Y']) => some ⟨[.idly], 2, v, 0⟩
  | (4, v, [']']) => some ⟨[.indl], 4, v, 0⟩
  | _ => none

/-- The operand of a statement, R120 and R101; a signature that is left out is 0x00. -/
def parseOperand : List Char → Option OperandText
  | [] => some ⟨[.imp, .sig], 0, 0, 0⟩
  | ['A'] => some ⟨[.acc], 0, 0, 0⟩
  | '#' :: '$' :: cs => immediateText cs
  | '$' :: cs => addressText cs
  | '(' :: '$' :: cs => indirectText cs
  | '[' :: '$' :: cs => longIndirectText cs
  | _ => none

/-- The alternative spellings of R121, where the operand does not matter: the alias, and the mnemonic of R105. -/
def aliases : List (List Char × List Char) :=
  [(['B', 'L', 'T'], ['B', 'C', 'C']), (['B', 'G', 'E'], ['B', 'C', 'S']), (['T', 'A', 'D'], ['T', 'C', 'D']),
   (['T', 'D', 'A'], ['T', 'D', 'C']), (['T', 'A', 'S'], ['T', 'C', 'S']), (['T', 'S', 'A'], ['T', 'S', 'C']),
   (['S', 'W', 'A'], ['X', 'B', 'A'])]

/-- The mnemonic of R105 and the operand that a spelling of R121 stands for. -/
def unalias (name : List Char) (o : OperandText) : List Char × OperandText :=
  if name = ['J', 'M', 'P'] ∧ (o.forms = [.abl] ∨ o.forms = [.indl]) then (['J', 'M', 'L'], o)
  else if name = ['J', 'S', 'R'] ∧ o.forms = [.abl] then (['J', 'S', 'L'], o)
  else if name = ['I', 'N', 'A'] ∧ o.digits = 0 then (['I', 'N', 'C'], { o with forms := [.acc] })
  else if name = ['D', 'E', 'A'] ∧ o.digits = 0 then (['D', 'E', 'C'], { o with forms := [.acc] })
  else ((aliases.lookup name).getD name, o)

/-- The first opcode of the map from `op` on that has the mnemonic in one of the formats. -/
def findOpcode (name : List Char) (forms : List Format) : (op : Nat) → List (Operands → Instr) → Option (Byte × Format)
  | _, [] => none
  | op, row :: rows =>
    let i := row (.none true true)
    if forms.contains i.format && i.mnemonic.toList == name then some (BitVec.ofNat 8 op, i.format)
    else findOpcode name forms (op + 1) rows

/-- The operand bytes of a format: the number of digits chooses the width of an immediate, a branch stores the distance from the next
instruction, at offset `off` plus its length, to its target, and a block move stores the destination bank first (R103, R120). -/
def OperandText.bytes (off : Word) (o : OperandText) (f : Format) : Option (List Byte) :=
  let byte := BitVec.ofNat 8 o.value
  let word := BitVec.ofNat 16 o.value
  match f with
  | .imp | .acc => some []
  | .imm8 | .sig | .dp | .dpx | .dpy | .idp | .idpx | .idpy | .idl | .idly | .sr | .isry => some [byte]
  | .immm | .immx => some (immBytes (o.digits == 2) word)
  | .imm16 | .abs | .absx | .absy | .ind | .indx | .indl => some (wordBytes word)
  | .abl | .ablx => some (longBytes (BitVec.ofNat 24 o.value))
  | .rel8 =>
    let d := word - (off + 2)
    if sext16 (loByte d) = d then some [loByte d] else none
  | .rel16 => some (wordBytes (word - (off + 3)))
  | .blk => some [BitVec.ofNat 8 o.second, byte]

/-- The bytes of a statement, `MNEMONIC` or `MNEMONIC operand`, that stands at offset `off` of its bank (R120). -/
def assemble (off : Word) (text : List Char) : Option (List Byte) :=
  match parseOperand (text.drop 4) with
  | none => none
  | some written =>
    if 3 < text.length ∧ text[3]? ≠ some ' ' then none
    else
      let r := unalias (text.take 3) written
      match findOpcode r.1 r.2.forms 0 optab with
      | none => none
      | some (op, f) => (r.2.bytes off f).map (op :: ·)

end Sys2Proof
end

