-- ==== Sys2Proof/Tests/Slice0.lean ====
section
/-! SUPPORT. Tests whose expected results are written out from the spec, and for every statement that has hypotheses a state and operands
that meet them. -/

namespace Sys2Proof.Tests

open Sys2Proof Sys2Proof.Machine

/-! ## Terms that are no instructions are refused -/

/-- A form the instruction does not have: STX (dp) (R175). -/
theorem test_wf_refuses_form : (Instr.stx (.idp 0x10)).wf true true = false ∧ (Instr.sta (.dpy 0x10)).wf false false = false := by decide

/-- An immediate of 16 bits where the width in force is 8 (R103). -/
theorem test_wf_refuses_wide_immediate :
    (Instr.lda (.imm 0x0100)).wf true false = false ∧ (Instr.ldx (.imm 0x0100)).wf false true = false := by decide

/-- The same immediates at width 16, and the largest at width 8. -/
theorem test_wf_accepts :
    (Instr.lda (.imm 0x0100)).wf false true = true ∧ (Instr.ldx (.imm 0xFFFF)).wf true false = true ∧
    (Instr.lda (.imm 0x00FF)).wf true true = true ∧ (Instr.stx (.dpy 0x10)).wf true true = true := by decide

/-- The forms of every instruction are the formats of its opcodes: "Operands" of files 41 to 45 against the map R105. -/
theorem test_forms_are_the_opcodes :
    optab.all (fun f =>
      let i := f (.none true true)
      i.forms.all (i.opcodes.map Prod.fst).contains && (i.opcodes.map Prod.fst).all i.forms.contains) = true := by decide +kernel

/-- No opcode stands at two forms, and all 256 stand (R104, R106). -/
theorem test_every_opcode_once :
    (List.range 256).all (fun n => (optab.getD n (fun _ => .nop) (.none true true)).opcode == some (BitVec.ofNat 8 n)) = true := by
  decide +kernel

/-! ## Words written out from the opcode map R104 decode to their instruction -/

/-- The instruction a list of bytes decodes to under 8-bit widths, if nothing is left of the list. -/
def read8 (bytes : List Byte) : Option Instr :=
  match decode true true bytes with
  | .ok (i, []) => some i
  | _ => none

/-- The same under 16-bit widths. -/
def read16 (bytes : List Byte) : Option Instr :=
  match decode false false bytes with
  | .ok (i, []) => some i
  | _ => none

theorem test_decode_load :
    read8 [0xA1, 0x12] = some (.lda (.mem (.idpx 0x12))) ∧ read8 [0xA2, 0x34] = some (.ldx (.imm 0x0034)) ∧
    read16 [0xA2, 0x34, 0x12] = some (.ldx (.imm 0x1234)) ∧ read8 [0xBC, 0x34, 0x12] = some (.ldy (.mem (.absx 0x1234))) ∧
    read8 [0xBE, 0x34, 0x12] = some (.ldx (.mem (.absy 0x1234))) ∧ read8 [0xA7, 0x12] = some (.lda (.mem (.idl 0x12))) := by decide

theorem test_decode_store :
    read8 [0x8F, 0x56, 0x34, 0x12] = some (.sta (.abl 0x123456)) ∧ read8 [0x96, 0x12] = some (.stx (.dpy 0x12)) ∧
    read8 [0x94, 0x12] = some (.sty (.dpx 0x12)) ∧ read8 [0x9E, 0x34, 0x12] = some (.stz (.absx 0x1234)) := by decide

theorem test_decode_arithmetic :
    read8 [0x73, 0x12] = some (.adc (.mem (.isry 0x12))) ∧ read8 [0xF2, 0x12] = some (.sbc (.mem (.idp 0x12))) ∧
    read8 [0xC3, 0x12] = some (.cmp (.mem (.sr 0x12))) ∧ read16 [0xE0, 0x34, 0x12] = some (.cpx (.imm 0x1234)) ∧
    read8 [0xCC, 0x34, 0x12] = some (.cpy (.mem (.abs 0x1234))) := by decide

theorem test_decode_logic :
    read8 [0x31, 0x12] = some (.and (.mem (.idpy 0x12))) ∧ read8 [0x1F, 0x56, 0x34, 0x12] = some (.ora (.mem (.ablx 0x123456))) ∧
    read8 [0x59, 0x34, 0x12] = some (.eor (.mem (.absy 0x1234))) ∧ read16 [0x89, 0x34, 0x12] = some (.bit (.imm 0x1234)) ∧
    read8 [0x0C, 0x34, 0x12] = some (.tsb (.abs 0x1234)) ∧ read8 [0x14, 0x12] = some (.trb (.dp 0x12)) := by decide

theorem test_decode_modify :
    read8 [0xF6, 0x12] = some (.inc (.mem (.dpx 0x12))) ∧ read8 [0x3A] = some (.dec .acc) ∧
    read8 [0x0A] = some (.asl .acc) ∧ read8 [0x46, 0x12] = some (.lsr (.mem (.dp 0x12))) ∧
    read8 [0x2E, 0x34, 0x12] = some (.rol (.mem (.abs 0x1234))) ∧ read8 [0x7E, 0x34, 0x12] = some (.ror (.mem (.absx 0x1234))) ∧
    read8 [0xE8] = some .inx ∧ read8 [0xC8] = some .iny ∧ read8 [0xCA] = some .dex ∧ read8 [0x88] = some .dey := by decide

theorem test_decode_transfer :
    read8 [0xAA] = some .tax ∧ read8 [0xA8] = some .tay ∧ read8 [0x8A] = some .txa ∧ read8 [0x98] = some .tya ∧
    read8 [0x9B] = some .txy ∧ read8 [0xBB] = some .tyx ∧ read8 [0xBA] = some .tsx ∧ read8 [0x9A] = some .txs ∧
    read8 [0x5B] = some .tcd ∧ read8 [0x7B] = some .tdc ∧ read8 [0x1B] = some .tcs ∧ read8 [0x3B] = some .tsc ∧
    read8 [0xEB] = some .xba := by decide

theorem test_decode_stack :
    read8 [0x48] = some .pha ∧ read8 [0xDA] = some .phx ∧ read8 [0x5A] = some .phy ∧ read8 [0x08] = some .php ∧
    read8 [0x8B] = some .phb ∧ read8 [0x0B] = some .phd ∧ read8 [0x4B] = some .phk ∧ read8 [0x68] = some .pla ∧
    read8 [0xFA] = some .plx ∧ read8 [0x7A] = some .ply ∧ read8 [0x28] = some .plp ∧ read8 [0xAB] = some .plb ∧
    read8 [0x2B] = some .pld ∧ read8 [0xF4, 0x34, 0x12] = some (.pea 0x1234) ∧ read8 [0xD4, 0x12] = some (.pei 0x12) ∧
    read8 [0x62, 0xFD, 0xFF] = some (.per 0xFFFD) := by decide

/-- The bytes of a block move hold the destination bank first (R103). -/
theorem test_decode_block_move :
    read8 [0x54, 0x7F, 0x7E] = some (.mvn 0x7F 0x7E) ∧ read8 [0x44, 0x7F, 0x7E] = some (.mvp 0x7F 0x7E) := by decide

theorem test_decode_branch :
    read8 [0x90, 0x12] = some (.bcc 0x12) ∧ read8 [0xB0, 0x12] = some (.bcs 0x12) ∧ read8 [0xF0, 0x12] = some (.beq 0x12) ∧
    read8 [0xD0, 0x12] = some (.bne 0x12) ∧ read8 [0x30, 0x12] = some (.bmi 0x12) ∧ read8 [0x10, 0x12] = some (.bpl 0x12) ∧
    read8 [0x50, 0x12] = some (.bvc 0x12) ∧ read8 [0x70, 0x12] = some (.bvs 0x12) ∧ read8 [0x80, 0x12] = some (.bra 0x12) ∧
    read8 [0x82, 0x34, 0x12] = some (.brl 0x1234) := by decide

theorem test_decode_jump :
    read8 [0x6C, 0x34, 0x12] = some (.jmp (.ind 0x1234)) ∧ read8 [0x7C, 0x34, 0x12] = some (.jmp (.indx 0x1234)) ∧
    read8 [0x5C, 0x56, 0x34, 0x12] = some (.jml (.abl 0x123456)) ∧ read8 [0xDC, 0x34, 0x12] = some (.jml (.indl 0x1234)) ∧
    read8 [0x20, 0x34, 0x12] = some (.jsr (.abs 0x1234)) ∧ read8 [0xFC, 0x34, 0x12] = some (.jsr (.indx 0x1234)) ∧
    read8 [0x22, 0x56, 0x34, 0x12] = some (.jsl 0x123456) ∧ read8 [0x60] = some .rts ∧ read8 [0x6B] = some .rtl := by decide

theorem test_decode_flag :
    read8 [0x18] = some .clc ∧ read8 [0x38] = some .sec ∧ read8 [0x58] = some .cli ∧ read8 [0x78] = some .sei ∧
    read8 [0xD8] = some .cld ∧ read8 [0xF8] = some .sed ∧ read8 [0xB8] = some .clv ∧ read16 [0xC2, 0x30] = some (.rep 0x30) ∧
    read16 [0xE2, 0x30] = some (.sep 0x30) ∧ read8 [0xFB] = some .xce := by decide

theorem test_decode_system :
    read8 [0xEA] = some .nop ∧ read8 [0x42, 0x41] = some (.wdm 0x41) ∧ read8 [0x00, 0x12] = some (.brk 0x12) ∧
    read8 [0x02, 0x12] = some (.cop 0x12) ∧ read8 [0x40] = some .rti ∧ read8 [0xCB] = some .wai ∧ read8 [0xDB] = some .stp := by
  decide

/-- A list that ends before the operand does is no instruction. -/
theorem test_decode_truncated :
    read8 [] = none ∧ read8 [0x8F, 0x56, 0x34] = none ∧ read16 [0xA9, 0x00] = none := by decide

/-! ## One step of one instruction on a small state -/

/-- The bus of `MAP_FLAT` (95_test_vectors.md): one RAM over the whole address space. -/
def flat : Bus :=
  { map := [{ first := 0x000000, last := 0xFFFFFF, dev := 0, xlate := .rel 0 }], devices := [.ram 0x1000000 []], events := [] }

/-- A bus with bytes preset. -/
def preset (mem : List (Nat × Nat)) (b : Bus) : Bus :=
  mem.foldl (fun b p => b.place (BitVec.ofNat 24 p.1) (BitVec.ofNat 8 p.2)) b

/-- The start state of the vectors: reset with `PC` = 0x8000, changed by `setup`, with bytes in memory and the code at `PBR:PC`. -/
def start (setup : State → State) (mem : List (Nat × Nat)) (code : List Byte) : State :=
  let s := setup { State.afterReset .none flat with PC := 0x8000, bus := preset mem flat }
  s.placeCode code

/-- What is seen of the state after one step. -/
def ran {α : Type} (s : State) (see : State → α) : Option α :=
  match step s with
  | .next t => some (see t)
  | .fault _ => none
  | .refused _ => none

/-! ## One step: load and store -/

/-- Vector LS5 of 95_test_vectors.md. -/
theorem test_lda_ls5 :
    ran (start (fun s => { s with DR := 0xFF80, P := 0x00, e := false })
        [(0x000000, 0x22), (0x00FFFF, 0x11), (0x010000, 0x33)] [0xA5, 0x7F])
      (fun t => (t.A, t.PC, t.P, (readsOf t.bus.events).drop 2)) =
      some (0x2211, 0x8002, 0x00, [(0x00FFFF, 0x11), (0x000000, 0x22)]) := by
  decide

/-- Vector LS8 of 95_test_vectors.md. -/
theorem test_lda_ls8 :
    ran (start (fun s => { s with Y := 0x0020, DR := 0xFF80, DBR := 0x12, P := 0x20, e := false })
        [(0x00FF90, 0xF0), (0x00FF91, 0xFF), (0x130010, 0x77)] [0xB1, 0x10])
      (fun t => (t.A, t.PC, t.P, (readsOf t.bus.events).drop 2)) =
      some (0x0077, 0x8002, 0x20, [(0x00FF90, 0xF0), (0x00FF91, 0xFF), (0x130010, 0x77)]) := by
  decide

/-- Vector LS4 of 95_test_vectors.md. -/
theorem test_ldx_ls4 :
    ran (start (fun s => { s with X := 0x0000, P := 0x10, e := false }) [] [0xA2, 0x34])
      (fun t => (t.X, t.PC, t.P)) =
      some (0x0034, 0x8002, 0x10) := by
  decide

/-- Vector LS17 of 95_test_vectors.md. -/
theorem test_ldx_ls17 :
    ran (start (fun s => { s with Y := 0x0020, DR := 0x0100, P := 0x00, e := false })
        [(0x000210, 0x34), (0x000211, 0x12)] [0xB6, 0xF0])
      (fun t => (t.X, t.PC, t.P, (readsOf t.bus.events).drop 2)) =
      some (0x1234, 0x8002, 0x00, [(0x000210, 0x34), (0x000211, 0x12)]) := by
  decide

/-- The example of R173. -/
theorem test_ldy_r173 :
    ran (start (fun s => { s with Y := 0x0042 }) [] [0xA0, 0x00])
      (fun t => (t.Y, t.PC, t.P)) =
      some (0x0000, 0x8002, 0x36) := by
  decide

/-- Vector LS23 of 95_test_vectors.md. -/
theorem test_sta_ls23 :
    ran (start (fun s => { s with A := 0xBEEF, P := 0x00, e := false }) [] [0x8F, 0xFF, 0xFF, 0xFF])
      (fun t => (t.PC, t.P, writesOf t.bus.events)) =
      some (0x8004, 0x00, [(0xFFFFFF, 0xEF), (0x000000, 0xBE)]) := by
  decide

/-- Vector LS25 of 95_test_vectors.md. -/
theorem test_sta_ls25 :
    ran (start (fun s => { s with A := 0xA55A, Y := 0x0010, P := 0x00, e := false })
        [(0x000020, 0xF8), (0x000021, 0xFF), (0x000022, 0x01)] [0x97, 0x20])
      (fun t => (t.PC, t.P, (readsOf t.bus.events).drop 2, writesOf t.bus.events)) =
      some (0x8002, 0x00, [(0x000020, 0xF8), (0x000021, 0xFF), (0x000022, 0x01)], [(0x020008, 0x5A), (0x020009, 0xA5)]) := by
  decide

/-- Vector LS14 of 95_test_vectors.md. -/
theorem test_stx_ls14 :
    ran (start (fun s => { s with X := 0x0042, DR := 0x0100, e := true }) [] [0x86, 0x10])
      (fun t => (t.PC, t.P, writesOf t.bus.events)) =
      some (0x8002, 0x34, [(0x000110, 0x42)]) := by
  decide

/-- Vector LS24 of 95_test_vectors.md. -/
theorem test_sty_ls24 :
    ran (start (fun s => { s with X := 0xFF90, Y := 0x1234, DR := 0x0000, P := 0x00, e := false }) [] [0x94, 0x80])
      (fun t => (t.PC, t.P, writesOf t.bus.events)) =
      some (0x8002, 0x00, [(0x000010, 0x34), (0x000011, 0x12)]) := by
  decide

/-- Vector LS13 of 95_test_vectors.md. -/
theorem test_stz_ls13 :
    ran (start (fun s => { s with DBR := 0x7E, P := 0x00, e := false })
        [(0x7E1000, 0xFF), (0x7E1001, 0xFF)] [0x9C, 0x00, 0x10])
      (fun t => (t.PC, t.P, writesOf t.bus.events)) =
      some (0x8003, 0x00, [(0x7E1000, 0x00), (0x7E1001, 0x00)]) := by
  decide

/-! ## One step: arithmetic and logic -/

/-- Vector AL1 of 95_test_vectors.md. -/
theorem test_adc_al1 :
    ran (start (fun s => { s with A := 0x007F, P := 0x20, e := false }) [] [0x69, 0x01])
      (fun t => (t.A, t.PC, t.P)) =
      some (0x0080, 0x8002, 0xE0) := by
  decide

/-- Vector AL7 of 95_test_vectors.md. -/
theorem test_adc_al7 :
    ran (start (fun s => { s with A := 0x0025, P := 0x28, e := false }) [] [0x69, 0x75])
      (fun t => (t.A, t.PC, t.P)) =
      some (0x0000, 0x8002, 0x6B) := by
  decide

/-- Vector AL9 of 95_test_vectors.md. -/
theorem test_sbc_al9 :
    ran (start (fun s => { s with A := 0x0000, P := 0x21, e := false }) [] [0xE9, 0x01])
      (fun t => (t.A, t.PC, t.P)) =
      some (0x00FF, 0x8002, 0xA0) := by
  decide

/-- Vector AL14 of 95_test_vectors.md. -/
theorem test_sbc_al14 :
    ran (start (fun s => { s with A := 0x0046, P := 0x29, e := false }) [] [0xE9, 0x27])
      (fun t => (t.A, t.PC, t.P)) =
      some (0x0019, 0x8002, 0x29) := by
  decide

/-- Vector AL15 of 95_test_vectors.md. -/
theorem test_and_al15 :
    ran (start (fun s => { s with A := 0x12F0 }) [] [0x29, 0x0F])
      (fun t => (t.A, t.PC, t.P)) =
      some (0x1200, 0x8002, 0x36) := by
  decide

/-- Vector AL16 of 95_test_vectors.md. -/
theorem test_ora_al16 :
    ran (start (fun s => { s with A := 0x0001, P := 0x00, e := false }) [] [0x09, 0x00, 0x80])
      (fun t => (t.A, t.PC, t.P)) =
      some (0x8001, 0x8003, 0x80) := by
  decide

/-- Vector AL17 of 95_test_vectors.md. -/
theorem test_eor_al17 :
    ran (start (fun s => { s with A := 0x00FF }) [] [0x49, 0xFF])
      (fun t => (t.A, t.PC, t.P)) =
      some (0x0000, 0x8002, 0x36) := by
  decide

/-- Vector AL18 of 95_test_vectors.md. -/
theorem test_cmp_al18 :
    ran (start (fun s => { s with A := 0x0040 }) [] [0xC9, 0x30])
      (fun t => (t.PC, t.P)) =
      some (0x8002, 0x35) := by
  decide

/-- Vector AL20 of 95_test_vectors.md. -/
theorem test_cmp_al20 :
    ran (start (fun s => { s with A := 0x7FFF, P := 0x00, e := false }) [] [0xC9, 0x00, 0x80])
      (fun t => (t.PC, t.P)) =
      some (0x8003, 0x80) := by
  decide

/-- Vector AL21 of 95_test_vectors.md. -/
theorem test_cpx_al21 :
    ran (start (fun s => { s with X := 0x0100, P := 0x20, e := false }) [] [0xE0, 0x00, 0x01])
      (fun t => (t.PC, t.P)) =
      some (0x8003, 0x23) := by
  decide

/-- Vector AL22 of 95_test_vectors.md. -/
theorem test_cpy_al22 :
    ran (start (fun s => { s with Y := 0x0005 }) [] [0xC0, 0x06])
      (fun t => (t.PC, t.P)) =
      some (0x8002, 0xB4) := by
  decide

/-- Vector AL23 of 95_test_vectors.md. -/
theorem test_bit_al23 :
    ran (start (fun s => { s with A := 0x0001, P := 0x34 }) [] [0x89, 0xC0])
      (fun t => (t.PC, t.P)) =
      some (0x8002, 0x36) := by
  decide

/-- Vector AL25 of 95_test_vectors.md. -/
theorem test_bit_al25 :
    ran (start (fun s => { s with A := 0xFFFF, P := 0x00, e := false })
        [(0x001000, 0x00), (0x001001, 0x40)] [0x2C, 0x00, 0x10])
      (fun t => (t.PC, t.P, (readsOf t.bus.events).drop 3)) =
      some (0x8003, 0x40, [(0x001000, 0x00), (0x001001, 0x40)]) := by
  decide

/-- Vector AL26 of 95_test_vectors.md. -/
theorem test_tsb_al26 :
    ran (start (fun s => { s with A := 0x000F }) [(0x000010, 0xF0)] [0x04, 0x10])
      (fun t => (t.PC, t.P, (readsOf t.bus.events).drop 2, writesOf t.bus.events)) =
      some (0x8002, 0x36, [(0x000010, 0xF0)], [(0x000010, 0xFF)]) := by
  decide

/-- Vector AL27 of 95_test_vectors.md. -/
theorem test_trb_al27 :
    ran (start (fun s => { s with A := 0x00FF, P := 0x00, e := false })
        [(0x001000, 0x34), (0x001001, 0x12)] [0x1C, 0x00, 0x10])
      (fun t => (t.PC, t.P, (readsOf t.bus.events).drop 3, writesOf t.bus.events)) =
      some (0x8003, 0x00, [(0x001000, 0x34), (0x001001, 0x12)], [(0x001000, 0x00), (0x001001, 0x12)]) := by
  decide

/-- Vector AL28 of 95_test_vectors.md. -/
theorem test_inc_al28 :
    ran (start (fun s => { s with A := 0x12FF }) [] [0x1A])
      (fun t => (t.A, t.PC, t.P)) =
      some (0x1200, 0x8001, 0x36) := by
  decide

/-- Vector AL30 of 95_test_vectors.md. -/
theorem test_inc_al30 :
    ran (start (fun s => { s with P := 0x00, e := false }) [(0x000010, 0xFF), (0x000011, 0x00)] [0xE6, 0x10])
      (fun t => (t.PC, t.P, (readsOf t.bus.events).drop 2, writesOf t.bus.events)) =
      some (0x8002, 0x00, [(0x000010, 0xFF), (0x000011, 0x00)], [(0x000010, 0x00), (0x000011, 0x01)]) := by
  decide

/-- Vector AL29 of 95_test_vectors.md. -/
theorem test_dec_al29 :
    ran (start (fun s => { s with A := 0x0000, P := 0x00, e := false }) [] [0x3A])
      (fun t => (t.A, t.PC, t.P)) =
      some (0xFFFF, 0x8001, 0x80) := by
  decide

/-- Vector AL31 of 95_test_vectors.md. -/
theorem test_dec_al31 :
    ran (start (id) [(0x000010, 0x00)] [0xC6, 0x10])
      (fun t => (t.PC, t.P, (readsOf t.bus.events).drop 2, writesOf t.bus.events)) =
      some (0x8002, 0xB4, [(0x000010, 0x00)], [(0x000010, 0xFF)]) := by
  decide

/-- Vector AL32 of 95_test_vectors.md. -/
theorem test_inx_al32 :
    ran (start (fun s => { s with X := 0x00FF }) [] [0xE8])
      (fun t => (t.X, t.PC, t.P)) =
      some (0x0000, 0x8001, 0x36) := by
  decide

/-- Vector AL33 of 95_test_vectors.md. -/
theorem test_inx_al33 :
    ran (start (fun s => { s with X := 0x00FF, P := 0x20, e := false }) [] [0xE8])
      (fun t => (t.X, t.PC, t.P)) =
      some (0x0100, 0x8001, 0x20) := by
  decide

/-- The example of R205. -/
theorem test_iny_r205 :
    ran (start (fun s => { s with Y := 0x007F }) [] [0xC8])
      (fun t => (t.Y, t.PC, t.P)) =
      some (0x0080, 0x8001, 0xB4) := by
  decide

/-- Vector AL35 of 95_test_vectors.md. -/
theorem test_dex_al35 :
    ran (start (fun s => { s with X := 0x0000 }) [] [0xCA])
      (fun t => (t.X, t.PC, t.P)) =
      some (0x00FF, 0x8001, 0xB4) := by
  decide

/-- Vector AL34 of 95_test_vectors.md. -/
theorem test_dey_al34 :
    ran (start (fun s => { s with Y := 0x0000, P := 0x20, e := false }) [] [0x88])
      (fun t => (t.Y, t.PC, t.P)) =
      some (0xFFFF, 0x8001, 0xA0) := by
  decide

/-- Vector AL37 of 95_test_vectors.md. -/
theorem test_asl_al37 :
    ran (start (fun s => { s with A := 0x4080, P := 0x00, e := false }) [] [0x0A])
      (fun t => (t.A, t.PC, t.P)) =
      some (0x8100, 0x8001, 0x80) := by
  decide

/-- Vector AL42 of 95_test_vectors.md. -/
theorem test_asl_al42 :
    ran (start (fun s => { s with X := 0x0001, DBR := 0x12, P := 0x10, e := false })
        [(0x130000, 0x01), (0x130001, 0x80)] [0x1E, 0xFF, 0xFF])
      (fun t => (t.PC, t.P, (readsOf t.bus.events).drop 3, writesOf t.bus.events)) =
      some (0x8003, 0x11, [(0x130000, 0x01), (0x130001, 0x80)], [(0x130000, 0x02), (0x130001, 0x00)]) := by
  decide

/-- Vector AL38 of 95_test_vectors.md. -/
theorem test_lsr_al38 :
    ran (start (fun s => { s with A := 0x0001 }) [] [0x4A])
      (fun t => (t.A, t.PC, t.P)) =
      some (0x0000, 0x8001, 0x37) := by
  decide

/-- Vector AL39 of 95_test_vectors.md. -/
theorem test_rol_al39 :
    ran (start (fun s => { s with A := 0x0080, P := 0x35 }) [] [0x2A])
      (fun t => (t.A, t.PC, t.P)) =
      some (0x0001, 0x8001, 0x35) := by
  decide

/-- Vector AL41 of 95_test_vectors.md. -/
theorem test_ror_al41 :
    ran (start (fun s => { s with P := 0x35 }) [(0x000010, 0x02)] [0x66, 0x10])
      (fun t => (t.PC, t.P, (readsOf t.bus.events).drop 2, writesOf t.bus.events)) =
      some (0x8002, 0xB4, [(0x000010, 0x02)], [(0x000010, 0x81)]) := by
  decide

/-! ## One step: transfers, the stack, block moves -/

/-- Vector TS1 of 95_test_vectors.md. -/
theorem test_tax_ts1 :
    ran (start (fun s => { s with A := 0x12AB, P := 0x20, e := false }) [] [0xAA])
      (fun t => (t.X, t.PC, t.P)) =
      some (0x12AB, 0x8001, 0x20) := by
  decide

/-- Vector TS2 of 95_test_vectors.md. -/
theorem test_tax_ts2 :
    ran (start (fun s => { s with A := 0x1280, P := 0x10, e := false }) [] [0xAA])
      (fun t => (t.X, t.PC, t.P)) =
      some (0x0080, 0x8001, 0x90) := by
  decide

/-- The example of R232. -/
theorem test_tay_r232 :
    ran (start (fun s => { s with A := 0x1280 }) [] [0xA8])
      (fun t => (t.Y, t.PC, t.P)) =
      some (0x0080, 0x8001, 0xB4) := by
  decide

/-- Vector TS3 of 95_test_vectors.md. -/
theorem test_txa_ts3 :
    ran (start (fun s => { s with A := 0x1234, X := 0x00FF, P := 0x20, e := false }) [] [0x8A])
      (fun t => (t.A, t.PC, t.P)) =
      some (0x12FF, 0x8001, 0xA0) := by
  decide

/-- Vector TS4 of 95_test_vectors.md. -/
theorem test_txa_ts4 :
    ran (start (fun s => { s with A := 0x1234, X := 0x00FF, P := 0x10, e := false }) [] [0x8A])
      (fun t => (t.A, t.PC, t.P)) =
      some (0x00FF, 0x8001, 0x10) := by
  decide

/-- Vector TS5 of 95_test_vectors.md. -/
theorem test_tya_ts5 :
    ran (start (fun s => { s with A := 0x1234, Y := 0x0000, P := 0x00, e := false }) [] [0x98])
      (fun t => (t.A, t.PC, t.P)) =
      some (0x0000, 0x8001, 0x02) := by
  decide

/-- Vector TS6 of 95_test_vectors.md. -/
theorem test_txy_ts6 :
    ran (start (fun s => { s with X := 0x8001, P := 0x00, e := false }) [] [0x9B])
      (fun t => (t.Y, t.PC, t.P)) =
      some (0x8001, 0x8001, 0x80) := by
  decide

/-- The example of R236. -/
theorem test_tyx_r236 :
    ran (start (fun s => { s with X := 0x0042 }) [] [0xBB])
      (fun t => (t.X, t.PC, t.P)) =
      some (0x0000, 0x8001, 0x36) := by
  decide

/-- Vector TS7 of 95_test_vectors.md. -/
theorem test_tsx_ts7 :
    ran (start (fun s => { s with SP := 0x01FF }) [] [0xBA])
      (fun t => (t.X, t.PC, t.P)) =
      some (0x00FF, 0x8001, 0xB4) := by
  decide

/-- Vector TS8 of 95_test_vectors.md. -/
theorem test_tsx_ts8 :
    ran (start (fun s => { s with SP := 0x1FF0, P := 0x00, e := false }) [] [0xBA])
      (fun t => (t.X, t.PC, t.P)) =
      some (0x1FF0, 0x8001, 0x00) := by
  decide

/-- Vector TS9 of 95_test_vectors.md. -/
theorem test_txs_ts9 :
    ran (start (fun s => { s with X := 0x0080, SP := 0x01FF }) [] [0x9A])
      (fun t => (t.SP, t.PC, t.P)) =
      some (0x0180, 0x8001, 0x34) := by
  decide

/-- Vector TS10 of 95_test_vectors.md. -/
theorem test_txs_ts10 :
    ran (start (fun s => { s with X := 0x0080, SP := 0x1FFF, P := 0x30, e := false }) [] [0x9A])
      (fun t => (t.SP, t.PC, t.P)) =
      some (0x0080, 0x8001, 0x30) := by
  decide

/-- Vector TS12 of 95_test_vectors.md. -/
theorem test_tcd_ts12 :
    ran (start (fun s => { s with A := 0x2100 }) [] [0x5B])
      (fun t => (t.DR, t.PC, t.P)) =
      some (0x2100, 0x8001, 0x34) := by
  decide

/-- Vector TS13 of 95_test_vectors.md. -/
theorem test_tdc_ts13 :
    ran (start (fun s => { s with A := 0x1234, DR := 0x8000 }) [] [0x7B])
      (fun t => (t.A, t.PC, t.P)) =
      some (0x8000, 0x8001, 0xB4) := by
  decide

/-- Vector TS14 of 95_test_vectors.md. -/
theorem test_tcs_ts14 :
    ran (start (fun s => { s with A := 0x1FFF }) [] [0x1B])
      (fun t => (t.PC, t.P)) =
      some (0x8001, 0x34) := by
  decide

/-- Vector TS15 of 95_test_vectors.md. -/
theorem test_tcs_ts15 :
    ran (start (fun s => { s with A := 0x1FFF, P := 0x30, e := false }) [] [0x1B])
      (fun t => (t.SP, t.PC, t.P)) =
      some (0x1FFF, 0x8001, 0x30) := by
  decide

/-- Vector TS16 of 95_test_vectors.md. -/
theorem test_tsc_ts16 :
    ran (start (fun s => { s with A := 0xFFFF, SP := 0x01FF }) [] [0x3B])
      (fun t => (t.A, t.PC, t.P)) =
      some (0x01FF, 0x8001, 0x34) := by
  decide

/-- Vector TS17 of 95_test_vectors.md. -/
theorem test_xba_ts17 :
    ran (start (fun s => { s with A := 0x12AB }) [] [0xEB])
      (fun t => (t.A, t.PC, t.P)) =
      some (0xAB12, 0x8001, 0x34) := by
  decide

/-- Vector TS18 of 95_test_vectors.md. -/
theorem test_xba_ts18 :
    ran (start (fun s => { s with A := 0x0080 }) [] [0xEB])
      (fun t => (t.A, t.PC, t.P)) =
      some (0x8000, 0x8001, 0x36) := by
  decide

/-- Vector TS19 of 95_test_vectors.md. -/
theorem test_pha_ts19 :
    ran (start (fun s => { s with A := 0x1234, P := 0x00, e := false }) [] [0x48])
      (fun t => (t.SP, t.PC, t.P, writesOf t.bus.events)) =
      some (0x01FD, 0x8001, 0x00, [(0x0001FF, 0x12), (0x0001FE, 0x34)]) := by
  decide

/-- Vector TS20 of 95_test_vectors.md. -/
theorem test_pha_ts20 :
    ran (start (fun s => { s with A := 0x1234 }) [] [0x48])
      (fun t => (t.SP, t.PC, t.P, writesOf t.bus.events)) =
      some (0x01FE, 0x8001, 0x34, [(0x0001FF, 0x34)]) := by
  decide

/-- The example of R246. -/
theorem test_phx_r246 :
    ran (start (fun s => { s with X := 0x0042 }) [] [0xDA])
      (fun t => (t.SP, t.PC, t.P, writesOf t.bus.events)) =
      some (0x01FE, 0x8001, 0x34, [(0x0001FF, 0x42)]) := by
  decide

/-- The example of R247. -/
theorem test_phy_r247 :
    ran (start (fun s => { s with Y := 0xBEEF, SP := 0x1FFF, P := 0x00, e := false }) [] [0x5A])
      (fun t => (t.SP, t.PC, t.P, writesOf t.bus.events)) =
      some (0x1FFD, 0x8001, 0x00, [(0x001FFF, 0xBE), (0x001FFE, 0xEF)]) := by
  decide

/-- Vector TS23 of 95_test_vectors.md. -/
theorem test_php_ts23 :
    ran (start (fun s => { s with P := 0xF5 }) [] [0x08])
      (fun t => (t.SP, t.PC, t.P, writesOf t.bus.events)) =
      some (0x01FE, 0x8001, 0xF5, [(0x0001FF, 0xF5)]) := by
  decide

/-- The example of R249. -/
theorem test_phb_r249 :
    ran (start (fun s => { s with DBR := 0x7E }) [] [0x8B])
      (fun t => (t.SP, t.PC, t.P, writesOf t.bus.events)) =
      some (0x01FE, 0x8001, 0x34, [(0x0001FF, 0x7E)]) := by
  decide

/-- The example of R250. -/
theorem test_phd_r250 :
    ran (start (fun s => { s with DR := 0x2100 }) [] [0x0B])
      (fun t => (t.SP, t.PC, t.P, writesOf t.bus.events)) =
      some (0x01FD, 0x8001, 0x34, [(0x0001FF, 0x21), (0x0001FE, 0x00)]) := by
  decide

/-- The example of R251. -/
theorem test_phk_r251 :
    ran (start (fun s => { s with PBR := 0x80 }) [] [0x4B])
      (fun t => (t.SP, t.PC, t.P, writesOf t.bus.events)) =
      some (0x01FE, 0x8001, 0x34, [(0x0001FF, 0x80)]) := by
  decide

/-- Vector TS24 of 95_test_vectors.md. -/
theorem test_pla_ts24 :
    ran (start (fun s => { s with SP := 0x01FD, P := 0x00, e := false }) [(0x0001FE, 0x34), (0x0001FF, 0x12)] [0x68])
      (fun t => ((t.A, t.SP, t.PC, t.P), (readsOf t.bus.events).drop 1)) =
      some ((0x1234, 0x01FF, 0x8001, 0x00), [(0x0001FE, 0x34), (0x0001FF, 0x12)]) := by
  decide

/-- Vector TS25 of 95_test_vectors.md. -/
theorem test_pla_ts25 :
    ran (start (fun s => { s with A := 0x5500, SP := 0x01FF }) [(0x000100, 0x80), (0x000200, 0x11)] [0x68])
      (fun t => ((t.A, t.SP, t.PC, t.P), (readsOf t.bus.events).drop 1)) =
      some ((0x5580, 0x0100, 0x8001, 0xB4), [(0x000100, 0x80)]) := by
  decide

/-- The example of R253. -/
theorem test_plx_r253 :
    ran (start (fun s => { s with X := 0x0042, SP := 0x01FE }) [] [0xFA])
      (fun t => ((t.X, t.SP, t.PC, t.P), (readsOf t.bus.events).drop 1)) =
      some ((0x0000, 0x01FF, 0x8001, 0x36), [(0x0001FF, 0x00)]) := by
  decide

/-- The example of R254. -/
theorem test_ply_r254 :
    ran (start (fun s => { s with SP := 0x1FFD, P := 0x00, e := false }) [(0x001FFE, 0xEF), (0x001FFF, 0xBE)] [0x7A])
      (fun t => ((t.Y, t.SP, t.PC, t.P), (readsOf t.bus.events).drop 1)) =
      some ((0xBEEF, 0x1FFF, 0x8001, 0x80), [(0x001FFE, 0xEF), (0x001FFF, 0xBE)]) := by
  decide

/-- Vector TS26 of 95_test_vectors.md. -/
theorem test_plp_ts26 :
    ran (start (fun s => { s with X := 0x1234, Y := 0x5678, SP := 0x01FE, P := 0x00, e := false })
        [(0x0001FF, 0x30)] [0x28])
      (fun t => (((t.X, t.Y, t.SP), (t.PC, t.P)), (readsOf t.bus.events).drop 1)) =
      some (((0x0034, 0x0078, 0x01FF), (0x8001, 0x30)), [(0x0001FF, 0x30)]) := by
  decide

/-- Vector TS27 of 95_test_vectors.md. -/
theorem test_plp_ts27 :
    ran (start (fun s => { s with SP := 0x01FE }) [(0x0001FF, 0x00)] [0x28])
      (fun t => (t.SP, t.PC, t.P, (readsOf t.bus.events).drop 1)) =
      some (0x01FF, 0x8001, 0x00, [(0x0001FF, 0x00)]) := by
  decide

/-- Vector TS28 of 95_test_vectors.md. -/
theorem test_plb_ts28 :
    ran (start (fun s => { s with SP := 0x01FE }) [(0x0001FF, 0x80)] [0xAB])
      (fun t => ((t.SP, t.DBR, t.PC, t.P), (readsOf t.bus.events).drop 1)) =
      some ((0x01FF, 0x80, 0x8001, 0xB4), [(0x0001FF, 0x80)]) := by
  decide

/-- Vector TS29 of 95_test_vectors.md. -/
theorem test_pld_ts29 :
    ran (start (fun s => { s with SP := 0x01FD }) [(0x0001FE, 0x00), (0x0001FF, 0x21)] [0x2B])
      (fun t => ((t.SP, t.DR, t.PC, t.P), (readsOf t.bus.events).drop 1)) =
      some ((0x01FF, 0x2100, 0x8001, 0x34), [(0x0001FE, 0x00), (0x0001FF, 0x21)]) := by
  decide

/-- Vector TS22 of 95_test_vectors.md. -/
theorem test_pea_ts22 :
    ran (start (fun s => { s with SP := 0x0100 }) [] [0xF4, 0xCD, 0xAB])
      (fun t => (t.SP, t.PC, t.P, writesOf t.bus.events)) =
      some (0x01FE, 0x8003, 0x34, [(0x000100, 0xAB), (0x0001FF, 0xCD)]) := by
  decide

/-- Vector TS30 of 95_test_vectors.md. -/
theorem test_pei_ts30 :
    ran (start (id) [(0x000010, 0xCD), (0x000011, 0xAB)] [0xD4, 0x10])
      (fun t => ((t.SP, t.PC, t.P), ((readsOf t.bus.events).drop 2, writesOf t.bus.events))) =
      some ((0x01FD, 0x8002, 0x34), ([(0x000010, 0xCD), (0x000011, 0xAB)], [(0x0001FF, 0xAB), (0x0001FE, 0xCD)])) := by
  decide

/-- Vector TS31 of 95_test_vectors.md. -/
theorem test_per_ts31 :
    ran (start (fun s => { s with SP := 0x01FF }) [] [0x62, 0xFD, 0xFF])
      (fun t => (t.SP, t.PC, t.P, writesOf t.bus.events)) =
      some (0x01FD, 0x8003, 0x34, [(0x0001FF, 0x80), (0x0001FE, 0x00)]) := by
  decide

/-- Vector TS33 of 95_test_vectors.md. -/
theorem test_mvn_ts33 :
    ran (start (fun s => { s with A := 0x0000, X := 0xFFFF, Y := 0xFFFF, P := 0x00, e := false })
        [(0x7EFFFF, 0x5A)] [0x54, 0x7F, 0x7E])
      (fun t => (((t.A, t.X, t.Y), (t.DBR, t.PC)), ((readsOf t.bus.events).drop 3, writesOf t.bus.events))) =
      some (((0xFFFF, 0x0000, 0x0000), (0x7F, 0x8003)), ([(0x7EFFFF, 0x5A)], [(0x7FFFFF, 0x5A)])) := by
  decide

/-- Vector TS34 of 95_test_vectors.md. -/
theorem test_mvn_ts34 :
    ran (start (fun s => { s with A := 0x0001, X := 0x00FF, Y := 0x0000, P := 0x30, e := false })
        [(0x7E00FF, 0x5A)] [0x54, 0x7F, 0x7E])
      (fun t => (((t.A, t.X, t.Y), (t.DBR, t.PC)), ((readsOf t.bus.events).drop 3, writesOf t.bus.events))) =
      some (((0x0000, 0x0000, 0x0001), (0x7F, 0x8000)), ([(0x7E00FF, 0x5A)], [(0x7F0000, 0x5A)])) := by
  decide

/-- The example of R263. -/
theorem test_mvp_r263 :
    ran (start (fun s => { s with A := 0x0000, X := 0x10FF, Y := 0x20FF, P := 0x00, e := false })
        [(0x7E10FF, 0xA5)] [0x44, 0x7E, 0x7E])
      (fun t => (((t.A, t.X, t.Y), (t.DBR, t.PC)), ((readsOf t.bus.events).drop 3, writesOf t.bus.events))) =
      some (((0xFFFF, 0x10FE, 0x20FE), (0x7E, 0x8003)), ([(0x7E10FF, 0xA5)], [(0x7E20FF, 0xA5)])) := by
  decide

/-! ## One step: control flow -/

/-- Vector CF1 of 95_test_vectors.md. -/
theorem test_bcc_cf1 :
    ran (start (fun s => { s with P := 0x34 }) [] [0x90, 0x05])
      (fun t => (t.PC, t.P)) =
      some (0x8007, 0x34) := by
  decide

/-- Vector CF2 of 95_test_vectors.md. -/
theorem test_bcc_cf2 :
    ran (start (fun s => { s with P := 0x35 }) [] [0x90, 0x05])
      (fun t => (t.PC, t.P)) =
      some (0x8002, 0x35) := by
  decide

/-- The example of R282. -/
theorem test_bcs_r282 :
    ran (start (fun s => { s with P := 0x35 }) [] [0xB0, 0xFC])
      (fun t => (t.PC, t.P)) =
      some (0x7FFE, 0x35) := by
  decide

/-- Vector CF3 of 95_test_vectors.md. -/
theorem test_beq_cf3 :
    ran (start (fun s => { s with P := 0x36 }) [] [0xF0, 0xFE])
      (fun t => (t.PC, t.P)) =
      some (0x8000, 0x36) := by
  decide

/-- The example of R284. -/
theorem test_bne_r284 :
    ran (start (fun s => { s with PC := 0x8005 }) [] [0xD0, 0xFD])
      (fun t => (t.PC, t.P)) =
      some (0x8004, 0x34) := by
  decide

/-- The example of R285. -/
theorem test_bmi_r285 :
    ran (start (fun s => { s with PC := 0x9000, P := 0xB4 }) [] [0x30, 0x7F])
      (fun t => (t.PC, t.P)) =
      some (0x9081, 0xB4) := by
  decide

/-- The example of R286. -/
theorem test_bpl_r286 :
    ran (start (fun s => { s with PC := 0x9000 }) [] [0x10, 0x80])
      (fun t => (t.PC, t.P)) =
      some (0x8F82, 0x34) := by
  decide

/-- The example of R287. -/
theorem test_bvc_r287 :
    ran (start (id) [] [0x50, 0x00])
      (fun t => (t.PC, t.P)) =
      some (0x8002, 0x34) := by
  decide

/-- The example of R288. -/
theorem test_bvs_r288 :
    ran (start (fun s => { s with P := 0x74 }) [] [0x70, 0x02])
      (fun t => (t.PC, t.P)) =
      some (0x8004, 0x74) := by
  decide

/-- Vector CF4 of 95_test_vectors.md. -/
theorem test_bra_cf4 :
    ran (start (fun s => { s with PBR := 0x00, PC := 0xFFFE }) [] [0x80, 0x10])
      (fun t => (t.PC, t.P)) =
      some (0x0010, 0x34) := by
  decide

/-- Vector CF5 of 95_test_vectors.md. -/
theorem test_bra_cf5 :
    ran (start (fun s => { s with PBR := 0x00, PC := 0x0010 }) [] [0x80, 0x80])
      (fun t => (t.PC, t.P)) =
      some (0xFF92, 0x34) := by
  decide

/-- Vector CF6 of 95_test_vectors.md. -/
theorem test_brl_cf6 :
    ran (start (id) [] [0x82, 0x00, 0x80])
      (fun t => (t.PC, t.P)) =
      some (0x0003, 0x34) := by
  decide

/-- Vector CF8 of 95_test_vectors.md. -/
theorem test_jmp_cf8 :
    ran (start (fun s => { s with PBR := 0x80, PC := 0x8000 })
        [(0x000000, 0x12), (0x00FFFF, 0x34), (0x010000, 0x99)] [0x6C, 0xFF, 0xFF])
      (fun t => (t.PC, t.P, (readsOf t.bus.events).drop 3)) =
      some (0x1234, 0x34, [(0x00FFFF, 0x34), (0x000000, 0x12)]) := by
  decide

/-- Vector CF9 of 95_test_vectors.md. -/
theorem test_jmp_cf9 :
    ran (start (fun s => { s with X := 0x0002, P := 0x20, e := false, PBR := 0x80, PC := 0x8000 })
        [(0x800001, 0x00), (0x800002, 0xA0)] [0x7C, 0xFF, 0xFF])
      (fun t => (t.PC, t.P, (readsOf t.bus.events).drop 3)) =
      some (0xA000, 0x20, [(0x800001, 0x00), (0x800002, 0xA0)]) := by
  decide

/-- Vector CF10 of 95_test_vectors.md. -/
theorem test_jml_cf10 :
    ran (start (id) [] [0x5C, 0x00, 0x80, 0xC0])
      (fun t => (t.PBR, t.PC, t.P)) =
      some (0xC0, 0x8000, 0x34) := by
  decide

/-- Vector CF11 of 95_test_vectors.md. -/
theorem test_jml_cf11 :
    ran (start (id) [(0x000200, 0x56), (0x000201, 0x34), (0x000202, 0x12)] [0xDC, 0x00, 0x02])
      (fun t => (t.PBR, t.PC, t.P, (readsOf t.bus.events).drop 3)) =
      some (0x12, 0x3456, 0x34, [(0x000200, 0x56), (0x000201, 0x34), (0x000202, 0x12)]) := by
  decide

/-- Vector CF12 of 95_test_vectors.md. -/
theorem test_jsr_cf12 :
    ran (start (id) [] [0x20, 0x34, 0x12])
      (fun t => (t.SP, t.PC, t.P, writesOf t.bus.events)) =
      some (0x01FD, 0x1234, 0x34, [(0x0001FF, 0x80), (0x0001FE, 0x02)]) := by
  decide

/-- Vector CF13 of 95_test_vectors.md. -/
theorem test_jsr_cf13 :
    ran (start (fun s => { s with X := 0x0004, SP := 0x1FFF, P := 0x20, e := false, PBR := 0x80, PC := 0x8000 })
        [(0x809004, 0x78), (0x809005, 0x56)] [0xFC, 0x00, 0x90])
      (fun t => ((t.SP, t.PC, t.P), ((readsOf t.bus.events).drop 3, writesOf t.bus.events))) =
      some ((0x1FFD, 0x5678, 0x20), ([(0x809004, 0x78), (0x809005, 0x56)], [(0x001FFF, 0x80), (0x001FFE, 0x02)])) := by
  decide

/-- Vector CF14 of 95_test_vectors.md. -/
theorem test_jsl_cf14 :
    ran (start (fun s => { s with SP := 0x1FFF, P := 0x00, e := false, PBR := 0x80, PC := 0x8000 })
        [] [0x22, 0x00, 0x90, 0xC1])
      (fun t => ((t.SP, t.PBR, t.PC, t.P), writesOf t.bus.events)) =
      some ((0x1FFC, 0xC1, 0x9000, 0x00), [(0x001FFF, 0x80), (0x001FFE, 0x80), (0x001FFD, 0x03)]) := by
  decide

/-- Vector CF15 of 95_test_vectors.md. -/
theorem test_jsl_cf15 :
    ran (start (fun s => { s with SP := 0x0101, PBR := 0x01, PC := 0x8000 }) [] [0x22, 0x00, 0x90, 0xC1])
      (fun t => ((t.SP, t.PBR, t.PC, t.P), writesOf t.bus.events)) =
      some ((0x01FE, 0xC1, 0x9000, 0x34), [(0x000101, 0x01), (0x000100, 0x80), (0x0001FF, 0x03)]) := by
  decide

/-- Vector CF16 of 95_test_vectors.md. -/
theorem test_rts_cf16 :
    ran (start (fun s => { s with SP := 0x01FD }) [(0x0001FE, 0xFF), (0x0001FF, 0xFF)] [0x60])
      (fun t => (t.SP, t.PC, t.P, (readsOf t.bus.events).drop 1)) =
      some (0x01FF, 0x0000, 0x34, [(0x0001FE, 0xFF), (0x0001FF, 0xFF)]) := by
  decide

/-- Vector CF17 of 95_test_vectors.md. -/
theorem test_rtl_cf17 :
    ran (start (fun s => { s with SP := 0x1FFC, P := 0x00, e := false })
        [(0x001FFD, 0x03), (0x001FFE, 0x80), (0x001FFF, 0x80)] [0x6B])
      (fun t => ((t.SP, t.PBR, t.PC, t.P), (readsOf t.bus.events).drop 1)) =
      some ((0x1FFF, 0x80, 0x8004, 0x00), [(0x001FFD, 0x03), (0x001FFE, 0x80), (0x001FFF, 0x80)]) := by
  decide

/-! ## One step: status and system -/

/-- Vector SS1 of 95_test_vectors.md. -/
theorem test_clc_ss1 :
    ran (start (fun s => { s with P := 0xFF }) [] [0x18])
      (fun t => (t.PC, t.P)) =
      some (0x8001, 0xFE) := by
  decide

/-- Vector SS2 of 95_test_vectors.md. -/
theorem test_sec_ss2 :
    ran (start (fun s => { s with P := 0x00, e := false }) [] [0x38])
      (fun t => (t.PC, t.P)) =
      some (0x8001, 0x01) := by
  decide

/-- The example of R302. -/
theorem test_cli_r302 :
    ran (start (id) [] [0x58])
      (fun t => (t.PC, t.P)) =
      some (0x8001, 0x30) := by
  decide

/-- The example of R303. -/
theorem test_sei_r303 :
    ran (start (fun s => { s with P := 0x30 }) [] [0x78])
      (fun t => (t.PC, t.P)) =
      some (0x8001, 0x34) := by
  decide

/-- The example of R304. -/
theorem test_cld_r304 :
    ran (start (fun s => { s with P := 0x3C }) [] [0xD8])
      (fun t => (t.PC, t.P)) =
      some (0x8001, 0x34) := by
  decide

/-- The example of R305. -/
theorem test_sed_r305 :
    ran (start (id) [] [0xF8])
      (fun t => (t.PC, t.P)) =
      some (0x8001, 0x3C) := by
  decide

/-- The example of R306. -/
theorem test_clv_r306 :
    ran (start (fun s => { s with P := 0x74 }) [] [0xB8])
      (fun t => (t.PC, t.P)) =
      some (0x8001, 0x34) := by
  decide

/-- Vector SS3 of 95_test_vectors.md. -/
theorem test_rep_ss3 :
    ran (start (fun s => { s with X := 0x0012, Y := 0x0034, P := 0xFF, e := false }) [] [0xC2, 0xFF])
      (fun t => (t.PC, t.P)) =
      some (0x8002, 0x00) := by
  decide

/-- Vector SS4 of 95_test_vectors.md. -/
theorem test_rep_ss4 :
    ran (start (fun s => { s with X := 0x0012, P := 0x34 }) [] [0xC2, 0x30])
      (fun t => (t.PC, t.P)) =
      some (0x8002, 0x04) := by
  decide

/-- Vector SS5 of 95_test_vectors.md. -/
theorem test_sep_ss5 :
    ran (start (fun s => { s with A := 0x5678, X := 0x1234, Y := 0xABCD, P := 0x00, e := false }) [] [0xE2, 0x30])
      (fun t => (t.X, t.Y, t.PC, t.P)) =
      some (0x0034, 0x00CD, 0x8002, 0x30) := by
  decide

/-- Vector SS7 of 95_test_vectors.md. -/
theorem test_xce_ss7 :
    ran (start (fun s => { s with A := 0xBEEF, X := 0x1234, Y := 0xABCD, SP := 0x1FF0, P := 0x01, e := false })
        [] [0xFB])
      (fun t => ((t.X, t.Y, t.SP), (t.PC, t.P, t.e))) =
      some ((0x0034, 0x00CD, 0x01F0), (0x8001, 0x30, true)) := by
  decide

/-- Vector SS8 of 95_test_vectors.md. -/
theorem test_xce_ss8 :
    ran (start (fun s => { s with P := 0x34, e := true }) [] [0xFB])
      (fun t => (t.PC, t.P, t.e)) =
      some (0x8001, 0x35, false) := by
  decide

/-- Vector SS12 of 95_test_vectors.md. -/
theorem test_nop_ss12 :
    ran (start (id) [] [0xEA])
      (fun t => (t.PC, t.P)) =
      some (0x8001, 0x34) := by
  decide

/-- Vector SS13 of 95_test_vectors.md. -/
theorem test_wdm_ss13 :
    ran (start (fun s => { s with A := 0x1248 }) [] [0x42, 0x41])
      (fun t => (t.PC, t.P)) =
      some (0x8002, 0x34) := by
  decide

/-- Vector SS14 of 95_test_vectors.md. -/
theorem test_brk_ss14 :
    ran (start (fun s => { s with SP := 0x1FFF, P := 0x0D, e := false, PBR := 0x80, PC := 0x8000 })
        [(0x00FFE6, 0x00), (0x00FFE7, 0x90)] [0x00, 0xEA])
      (fun t => ((t.SP, t.PBR, t.PC, t.P), ((readsOf t.bus.events).drop 2, writesOf t.bus.events))) =
      some ((0x1FFB, 0x00, 0x9000, 0x05), ([(0x00FFE6, 0x00), (0x00FFE7, 0x90)], [(0x001FFF, 0x80), (0x001FFE, 0x80), (0x001FFD, 0x02), (0x001FFC, 0x0D)])) := by
  decide

/-- Vector SS15 of 95_test_vectors.md. -/
theorem test_brk_ss15 :
    ran (start (fun s => { s with SP := 0x0101, P := 0x2C, e := true, PBR := 0x01, PC := 0x8000 })
        [(0x00FFFE, 0x00), (0x00FFFF, 0x90)] [0x00, 0xEA])
      (fun t => ((t.SP, t.PBR, t.PC, t.P), ((readsOf t.bus.events).drop 2, writesOf t.bus.events))) =
      some ((0x01FE, 0x00, 0x9000, 0x24), ([(0x00FFFE, 0x00), (0x00FFFF, 0x90)], [(0x000101, 0x80), (0x000100, 0x02), (0x0001FF, 0x3C)])) := by
  decide

/-- Vector SS16 of 95_test_vectors.md. -/
theorem test_cop_ss16 :
    ran (start (fun s => { s with P := 0x30, e := true }) [(0x00FFF4, 0x34), (0x00FFF5, 0x12)] [0x02, 0x00])
      (fun t => ((t.SP, t.PC, t.P), ((readsOf t.bus.events).drop 2, writesOf t.bus.events))) =
      some ((0x01FC, 0x1234, 0x34), ([(0x00FFF4, 0x34), (0x00FFF5, 0x12)], [(0x0001FF, 0x80), (0x0001FE, 0x02), (0x0001FD, 0x30)])) := by
  decide

/-- Vector SS17 of 95_test_vectors.md. -/
theorem test_cop_ss17 :
    ran (start (fun s => { s with SP := 0x1FFF, P := 0x00, e := false, PBR := 0x7E, PC := 0x1000 })
        [(0x00FFE4, 0x34), (0x00FFE5, 0x12)] [0x02, 0x00])
      (fun t => ((t.SP, t.PBR, t.PC, t.P), ((readsOf t.bus.events).drop 2, writesOf t.bus.events))) =
      some ((0x1FFB, 0x00, 0x1234, 0x04), ([(0x00FFE4, 0x34), (0x00FFE5, 0x12)], [(0x001FFF, 0x7E), (0x001FFE, 0x10), (0x001FFD, 0x02), (0x001FFC, 0x00)])) := by
  decide

/-- Vector SS18 of 95_test_vectors.md. -/
theorem test_rti_ss18 :
    ran (start (fun s => { s with X := 0x1234, SP := 0x1FFB, P := 0x00, e := false })
        [(0x001FFC, 0x34), (0x001FFD, 0x02), (0x001FFE, 0x80), (0x001FFF, 0x81)] [0x40])
      (fun t => (((t.X, t.SP, t.PBR), (t.PC, t.P)), (readsOf t.bus.events).drop 1)) =
      some (((0x0034, 0x1FFF, 0x81), (0x8002, 0x34)), [(0x001FFC, 0x34), (0x001FFD, 0x02), (0x001FFE, 0x80), (0x001FFF, 0x81)]) := by
  decide

/-- Vector SS19 of 95_test_vectors.md. -/
theorem test_rti_ss19 :
    ran (start (fun s => { s with SP := 0x01FC, P := 0x34, e := true })
        [(0x0001FD, 0xC3), (0x0001FE, 0x02), (0x0001FF, 0x80)] [0x40])
      (fun t => (t.SP, t.PC, t.P, (readsOf t.bus.events).drop 1)) =
      some (0x01FF, 0x8002, 0xC3, [(0x0001FD, 0xC3), (0x0001FE, 0x02), (0x0001FF, 0x80)]) := by
  decide

/-- The example of R317. -/
theorem test_wai_r317 :
    ran (start (id) [] [0xCB])
      (fun t => (t.PC, t.P, t.run)) =
      some (0x8001, 0x34, .waiting) := by
  decide

/-- The example of R318. -/
theorem test_stp_r318 :
    ran (start (fun s => { s with PC := 0x80FF }) [] [0xDB])
      (fun t => (t.PC, t.P, t.run)) =
      some (0x8100, 0x34, .stopped) := by
  decide
/-! ## The bus, reset and the ports -/

/-- The reference bus with an image of 32 KiB whose byte at 0x1234 is 0xA5 and whose reset vector is 0x8000 (R78, R331). -/
def refBus : Bus := .reference 0x8000 [(0x1234, 0xA5), (0x7FFD, 0x80)]

/-- Vectors B of 95_test_vectors.md for the mirrors of the work RAM: R78. -/
theorem test_mirrors :
    (refBus.write8 0x000010 0x5A).byteAt 0x7E0010 = some 0x5A ∧ (refBus.write8 0x000010 0x5A).byteAt 0xBF0010 = some 0x5A ∧
    (refBus.write8 0x000010 0x5A).byteAt 0x400010 = some 0x00 := by decide +kernel

/-- A write to the ROM changes nothing (R62, C5), and a write to an unmapped address changes nothing (R65). -/
theorem test_discarded_writes :
    (refBus.write8 0x009234 0x77).devices = refBus.devices ∧ (refBus.write8 0x006000 0x77).devices = refBus.devices ∧
    (refBus.read8 0x009234).1 = 0xA5 ∧ (refBus.read8 0x006000).1 = 0x00 := by decide +kernel

/-- A reset reads the vector from 0x00FFFC and 0x00FFFD and clears the RAM (R360, RS1 to RS3). -/
theorem test_reset :
    (State.afterReset .none (refBus.write8 0x7E0000 0x5A)).PC = 0x8000 ∧
    (State.afterReset .none (refBus.write8 0x7E0000 0x5A)).bus.byteAt 0x7E0000 = some 0x00 ∧
    (readsOf (State.afterReset .none refBus).bus.events).map Prod.fst = [0x00FFFC, 0x00FFFD] := by decide +kernel

/-- The contents of every device are canonical after reset, and every row of the reference map names a device. -/
theorem test_reset_wf :
    State.reset.bus.devices.all Bus.deviceWf = true ∧ State.reset.bus.map.all (Bus.rowWf State.reset.bus.devices) = true := by
  decide +kernel

/-- The configurations U3 and U24 of 93_implementation_defined.md tell a model to refuse are refused. -/
theorem test_power_on_refuses :
    powerOn [.rom 0 []] [] .none = .refused .emptyRomImage ∧
    powerOn [.ram 1 []] [{ first := 0, last := 0x1000000, dev := 0, xlate := .rel 0 }] .none = .refused .illFormedConfiguration ∧
    (∃ t, powerOn [.ram 0x1000000 []] flat.map .none = .next t) := ⟨rfl, rfl, _, rfl⟩

/-- The host's two functions: the word of LDA #$41 after reset (8-bit widths) decodes, and the next step runs it. -/
theorem test_table_word :
    decodeTableWord 16 0x41A9 = some (.lda (.imm 0x0041)) ∧ decodeTableWord 8 0xAF = some (.lda (.mem (.abl 0x000000))) ∧
    ran (State.reset.withFetchWord 16 0x41A9) (fun t => (t.A, t.PC)) = some (0x0041, 0x0002) := by decide +kernel

/-- `char_out` (R311): vector SS13 under the other two values of `CHAR_OUT`. -/
theorem test_char_out :
    ran (start (fun s => { s with A := 0x0048, charOut := .wdmOperand }) [] [0x42, 0x41]) State.characters = some [0x41] ∧
    ran (start (fun s => { s with A := 0x0048, charOut := .wdmAccLow }) [] [0x42, 0x41]) State.characters = some [0x48] := by decide

/-- A further step after WAI or STP changes nothing (R317, R318). -/
theorem test_halted_step :
    step (start (fun s => { s with run := .waiting }) [] [0xEA]) = .next (start (fun s => { s with run := .waiting }) [] [0xEA]) ∧
    step (start (fun s => { s with run := .stopped }) [] [0xEA]) = .next (start (fun s => { s with run := .stopped }) [] [0xEA]) :=
  ⟨rfl, rfl⟩

/-! ## The disassembler: the listings of 95_test_vectors.md section 8 -/

/-- The code of a listing. -/
def listing (start : Address) (n : Nat) (narrow : Bool) (mem : List (Nat × Nat)) : List (String × String) :=
  ((preset mem flat).disassemble start n narrow narrow narrow true).1.map (fun l => (l.address, l.code))

/-- DA2, and the first lines of DA1: the widths are inputs. -/
theorem test_disassemble_widths :
    listing 0x008002 2 true [(0x8002, 0xC2), (0x8003, 0x30), (0x8004, 0xA2), (0x8005, 0x05)] =
      [("008002", "REP #$30"), ("008004", "LDX #$05")] ∧
    listing 0x008002 2 false [(0x8002, 0xC2), (0x8003, 0x30), (0x8004, 0xA2), (0x8005, 0x05)] =
      [("008002", "REP #$30"), ("008004", "LDX #$0005")] := by decide +kernel

/-- DA3. -/
theorem test_disassemble_shapes :
    listing 0x018000 6 true
      [(0x018000, 0x54), (0x018001, 0x7F), (0x018002, 0x7E), (0x018003, 0xB7), (0x018004, 0x20), (0x018005, 0xFC), (0x018006, 0x00),
       (0x018007, 0x90), (0x018008, 0x82), (0x018009, 0xFD), (0x01800A, 0x7F), (0x01800B, 0x0A), (0x01800C, 0x63), (0x01800D, 0x05)] =
      [("018000", "MVN $7E,$7F"), ("018003", "LDA [$20],Y"), ("018005", "JSR ($9000,X)"), ("018008", "BRL $0008"),
       ("01800B", "ASL A"), ("01800C", "ADC $05,S")] := by decide +kernel

/-- DA4: the walk stays in its bank. -/
theorem test_disassemble_bank_wrap :
    listing 0x02FFFF 2 true [(0x02FFFF, 0xAD), (0x020000, 0x34), (0x020001, 0x12), (0x020002, 0xEA)] =
      [("02FFFF", "LDA $1234"), ("020002", "NOP")] := by decide +kernel

/-! ## The assembler syntax (R120, R121) -/

/-- R120: `BRK` assembles as `00 00`; `MVN` names the source bank first; the number of digits chooses the width; a branch names its
target, out of whose reach there is no encoding. R121: three aliases. -/
theorem test_assemble :
    assemble 0x8000 "BRK".toList = some [0x00, 0x00] ∧ assemble 0x8000 "MVN $7E,$7F".toList = some [0x54, 0x7F, 0x7E] ∧
    assemble 0x8000 "LDA #$00".toList = some [0xA9, 0x00] ∧ assemble 0x8000 "LDA #$8D00".toList = some [0xA9, 0x00, 0x8D] ∧
    assemble 0x8005 "BNE $8004".toList = some [0xD0, 0xFD] ∧ assemble 0x8000 "BNE $9000".toList = none ∧
    assemble 0x8000 "BLT $8007".toList = some [0x90, 0x05] ∧ assemble 0x8000 "INA".toList = some [0x1A] ∧
    assemble 0x8000 "JMP $C08000".toList = some [0x5C, 0x00, 0x80, 0xC0] := by decide +kernel

/-- The text the disassembler gives for each opcode assembles to the bytes it was read from. -/
theorem test_assemble_inverts_disassembler :
    (List.range 256).all (fun op =>
      let bytes := [BitVec.ofNat 8 op, 0x12, 0x34, 0x56]
      match decode false true bytes with
      | .ok (i, rest) => assemble 0x8000 (i.text false true 0x8000).toList == some (bytes.take (4 - rest.length))
      | .error _ => false) = true := by decide +kernel

/-! ## The statements' hypotheses are met -/

/-- The instance S1 of 95_test_vectors.md: the last three bytes of the RAM. -/
theorem witness_BusReadAfterWrite :
    refBus.devices[0]? = some (.ram 0x20000 []) ∧ refBus.resolve ((Loc.lin 0x7FFFFD).byte 0) = .mapped 0 0x1FFFD ∧
    refBus.resolve ((Loc.lin 0x7FFFFD).byte 1) = .mapped 0 0x1FFFE ∧ refBus.resolve ((Loc.lin 0x7FFFFD).byte 2) = .mapped 0 0x1FFFF := by
  decide +kernel

/-- The ends of the hole below the cartridge. -/
theorem witness_UnmappedAccess : refBus.resolve 0x006000 = .unmapped ∧ refBus.resolve 0x007FFF = .unmapped := by decide +kernel

/-- `MAP_MMIO1` of 95_test_vectors.md, with a row of each address-to-offset function. -/
def rows : Bus :=
  { map := [{ first := 0x002100, last := 0x0021FF, dev := 1, xlate := .mask 0x00FFFF },
            { first := 0x008000, last := 0x00FFFF, dev := 0, xlate := .loRom },
            { first := 0x000000, last := 0xFFFFFE, dev := 0, xlate := .rel 0 }]
    devices := [.ram 0x1000000 [], .mmio 7], events := [] }

/-- Each row with an address at an end of its range that no earlier row covers, and an address that no row covers. -/
theorem witness_FirstMatchingRow :
    rows.map = [] ++ { first := 0x002100, last := 0x0021FF, dev := 1, xlate := .mask 0x00FFFF } :: rows.map.drop 1 ∧
    rows.map = rows.map.take 1 ++ { first := 0x008000, last := 0x00FFFF, dev := 0, xlate := .loRom } :: rows.map.drop 2 ∧
    rows.map = rows.map.take 2 ++ { first := 0x000000, last := 0xFFFFFE, dev := 0, xlate := .rel 0 } :: [] ∧
    rows.devices[1]? = some (.mmio 7) ∧ rows.devices[0]? = some (.ram 0x1000000 []) ∧
    (∀ r ∈ rows.map.take 1, ¬ (r.first ≤ 0x00FFFF ∧ 0x00FFFF ≤ r.last)) ∧
    (∀ r ∈ rows.map.take 2, ¬ (r.first ≤ 0x002200 ∧ 0x002200 ≤ r.last)) ∧
    (∀ r ∈ rows.map, ¬ (r.first ≤ 0xFFFFFF ∧ 0xFFFFFF ≤ r.last)) := by decide +kernel

/-- An address at each end of each range of the reference map. -/
theorem witness_ReferenceMapResolves :
    refBus.resolve 0x7E0000 = .mapped 0 0x00000 ∧ refBus.resolve 0x7FFFFF = .mapped 0 0x1FFFF ∧
    refBus.resolve 0x000000 = .mapped 0 0x0000 ∧ refBus.resolve 0xBF1FFF = .mapped 0 0x1FFF ∧
    refBus.resolve 0x802000 = .mapped 2 0x2000 ∧ refBus.resolve 0x3F5FFF = .mapped 2 0x5FFF ∧
    refBus.resolve 0x008000 = .mapped 1 0x0000 ∧ refBus.resolve 0xFFFFFF = .mapped 1 0x7FFF ∧
    refBus.resolve 0x006000 = .unmapped ∧ refBus.resolve 0xBF7FFF = .unmapped ∧
    refBus.resolve 0x400000 = .unmapped ∧ refBus.resolve 0xFF7FFF = .unmapped := by decide +kernel

/-- A byte of each kind that the block holds, a RAM address with a mirror, an address of the ROM. -/
theorem witness_SingleByteAccess :
    refBus.byteAt 0x7E0000 = some 0x00 ∧ refBus.byteAt 0x009234 = some 0xA5 ∧ refBus.byteAt 0x006000 = some 0x00 ∧
    refBus.isRam 0x7E0000 = true ∧ refBus.resolve 0x000000 = refBus.resolve 0x7E0000 ∧ refBus.isRam 0x009234 = false ∧
    refBus.resolve 0x7E0001 ≠ refBus.resolve 0x7E0000 := by decide +kernel

/-- Three bytes across the last bank boundary of the work RAM, and across the end of a bank. -/
theorem witness_MultiByteAccess :
    refBus.byteAt ((Loc.lin 0x7FFFFF).byte 0) = some 0x00 ∧ refBus.byteAt ((Loc.lin 0x7FFFFF).byte 1) = some 0x00 ∧
    refBus.byteAt ((Loc.lin 0x7FFFFF).byte 2) = some 0x00 ∧
    refBus.byteAt ((Loc.b0 0xFFFF).byte 0) = some 0x00 ∧ refBus.byteAt ((Loc.b0 0xFFFF).byte 1) = some 0x00 := by decide +kernel

/-- A native stack pointer at the end of bank 0 and an emulation stack pointer at the end of its page. -/
theorem witness_StackPrimitives :
    (start (fun s => { s with SP := 0xFFFF, e := false }) [(0x0000, 0x12), (0x0001, 0x34)] []).bus.byteAt
      (mkAddr 0 ((start (fun s => { s with SP := 0xFFFF, e := false }) [(0x0000, 0x12), (0x0001, 0x34)] []).pullSlot 1)) = some 0x12 ∧
    (start (fun s => { s with SP := 0xFFFF, e := false }) [(0x0000, 0x12), (0x0001, 0x34)] []).bus.byteAt
      (mkAddr 0 ((start (fun s => { s with SP := 0xFFFF, e := false }) [(0x0000, 0x12), (0x0001, 0x34)] []).pullSlot 2)) = some 0x34 ∧
    (start id [] []).e = true ∧ (start id [] []).pullSlot 1 = 0x0100 ∧
    (start (fun s => { s with e := false }) [] []).e = false := by decide

/-- The bytes of the reset vector are of the ROM, and there is a RAM. -/
theorem witness_ResetState :
    (State.afterReset .none refBus).bus.byteAt 0x00FFFC = some 0x00 ∧ (State.afterReset .none refBus).bus.byteAt 0x00FFFD = some 0x80 ∧
    (State.afterReset .none refBus).bus.isRam 0x7E0000 = true := by decide +kernel

/-- A state in emulation mode and a native state with wide index registers, each with the step that follows. -/
theorem witness_StepKeepsInvariant :
    (start (fun s => { s with X := 0x00FF, SP := 0x0100 }) [] [0x48]).Inv ∧
    (∃ t, step (start (fun s => { s with X := 0x00FF, SP := 0x0100 }) [] [0x48]) = .next t) ∧
    (start (fun s => { s with X := 0xFFFF, SP := 0x0000, P := 0x00, e := false }) [] [0xFB]).Inv ∧
    (∃ t, step (start (fun s => { s with X := 0xFFFF, SP := 0x0000, P := 0x00, e := false }) [] [0xFB]) = .next t) :=
  ⟨⟨fun _ => by decide, fun _ => by decide, rfl⟩, ⟨_, rfl⟩,
   ⟨fun h => absurd h (by decide), fun h => absurd h (by decide), rfl⟩, ⟨_, rfl⟩⟩

/-- A state that waits, and one that has stopped. -/
theorem witness_StepCompletes :
    (start (fun s => { s with run := .waiting }) [] []).run ≠ .running ∧ (start (fun s => { s with run := .stopped }) [] []).run ≠ .running := by
  decide

theorem witness_StepKeepsConfiguration : ∃ t, step (start id [] [0xEA]) = .next t := ⟨_, rfl⟩

/-- Each register is changed by one of its instructions, from a state with zero high bytes in narrow index registers. -/
theorem witness_RegisterWriters :
    (∃ t, exec (.jml (.abl 0x010000)) (start id [] []) = .next t ∧ t.PBR ≠ (start id [] []).PBR) ∧
    (∃ t, exec (.mvn 0x7F 0x7E) (start id [] []) = .next t ∧ t.DBR ≠ (start id [] []).DBR) ∧
    (∃ t, exec .tcd (start (fun s => { s with A := 0xFFFF }) [] []) = .next t ∧ t.DR ≠ 0x0000) ∧
    (∃ t, exec .xce (start id [] []) = .next t ∧ t.e ≠ (start id [] []).e) ∧
    (∃ t, exec .wai (start id [] []) = .next t ∧ t.run ≠ (start id [] []).run) ∧
    (∃ t, exec (.lda (.imm 0x01)) (start id [] []) = .next t ∧ t.A ≠ (start id [] []).A) ∧
    (∃ t, exec .inx (start id [] []) = .next t ∧ t.X ≠ (start id [] []).X) ∧
    (∃ t, exec .iny (start id [] []) = .next t ∧ t.Y ≠ (start id [] []).Y) ∧
    (start id [] []).IndexHighZero :=
  ⟨⟨_, rfl, by decide⟩, ⟨_, rfl, by decide⟩, ⟨_, rfl, by decide⟩, ⟨_, rfl, by decide⟩, ⟨_, rfl, by decide⟩, ⟨_, rfl, by decide⟩,
   ⟨_, rfl, by decide⟩, ⟨_, rfl, by decide⟩, fun _ => by decide⟩

/-- Each flag is changed by one of its instructions. -/
theorem witness_FlagWriters :
    (∃ t, exec .clv (start (fun s => { s with P := 0xFF }) [] []) = .next t ∧ t.flag .v ≠ true) ∧
    (∃ t, exec .clc (start (fun s => { s with P := 0xFF }) [] []) = .next t ∧ t.flag .c ≠ true) ∧
    (∃ t, exec .cld (start (fun s => { s with P := 0xFF }) [] []) = .next t ∧ t.flag .d ≠ true) ∧
    (∃ t, exec .cli (start (fun s => { s with P := 0xFF }) [] []) = .next t ∧ t.flag .i ≠ true) ∧
    (∃ t, exec (.rep 0x20) (start (fun s => { s with P := 0xFF }) [] []) = .next t ∧ t.flag .m ≠ true) ∧
    (∃ t, exec (.rep 0x10) (start (fun s => { s with P := 0xFF }) [] []) = .next t ∧ t.flag .x ≠ true) :=
  ⟨⟨_, rfl, by decide⟩, ⟨_, rfl, by decide⟩, ⟨_, rfl, by decide⟩, ⟨_, rfl, by decide⟩, ⟨_, rfl, by decide⟩, ⟨_, rfl, by decide⟩⟩

/-- With `P.x` set both modes have the same narrow index values; the two states differ in the mode. -/
theorem witness_EmulationChangesNoAddress :
    ({ start (fun s => { s with X := 0x00FF, Y := 0x00FF }) [] [] with e := false } : State).rdX =
      (start (fun s => { s with X := 0x00FF, Y := 0x00FF }) [] []).rdX ∧
    ({ start (fun s => { s with X := 0x00FF, Y := 0x00FF }) [] [] with e := false } : State).rdY =
      (start (fun s => { s with X := 0x00FF, Y := 0x00FF }) [] []).rdY ∧ (start id [] []).e ≠ false := by decide

/-- Well-formed instructions with the largest immediates. -/
theorem witness_DecodeInvertsEncode :
    (Instr.adc (.imm 0x00FF)).wf true false = true ∧ (Instr.adc (.imm 0xFFFF)).wf false true = true ∧
    (Instr.jsl 0xFFFFFF).wf true true = true := by decide

theorem witness_EncodeInvertsDecode : decode false true [0x69, 0xFF, 0xFF, 0xEA] = .ok (.adc (.imm 0xFFFF), [0xEA]) := rfl

/-- Code at the end of its bank: the operand bytes are at the start of the same bank. -/
theorem witness_StepRunsDecodedInstruction :
    let s := start (fun s => { s with PBR := 0x02, PC := 0xFFFF }) [] [0xAD, 0x34, 0x12]
    s.run = .running ∧ s.bus.byteAt (mkAddr s.PBR (s.PC + BitVec.ofNat 16 0)) = some 0xAD ∧
    s.bus.byteAt (mkAddr s.PBR (s.PC + BitVec.ofNat 16 2)) = some 0x12 ∧
    decode s.m8 s.x8 (s.fetchBytes 3 0).1 = .ok (.lda (.mem (.abs 0x1234)), []) := ⟨by decide, by decide, by decide, rfl⟩

/-- Pointers whose bytes lie at the end and at the start of bank 0. -/
theorem witness_AddressesThroughPointer :
    let s := start (fun s => { s with DR := 0xFFFF, SP := 0xFFFF, e := false }) [(0x00FFFF, 0x34), (0x000000, 0x12), (0x000001, 0x7E)] []
    s.bus.byteAt (mkAddr 0 (s.DR + (0 : Byte).setWidth 16 + BitVec.ofNat 16 0)) = some 0x34 ∧
    s.bus.byteAt (mkAddr 0 (s.DR + (0 : Byte).setWidth 16 + BitVec.ofNat 16 1)) = some 0x12 ∧
    s.bus.byteAt (mkAddr 0 (s.DR + (0 : Byte).setWidth 16 + BitVec.ofNat 16 2)) = some 0x7E ∧
    s.bus.byteAt (mkAddr 0 (s.SP + (0 : Byte).setWidth 16 + BitVec.ofNat 16 0)) = some 0x34 ∧
    s.bus.byteAt (mkAddr 0 (s.SP + (0 : Byte).setWidth 16 + BitVec.ofNat 16 1)) = some 0x12 := by decide

/-- A 16-bit operand at the last address. -/
theorem witness_OperandValue :
    let s := start (fun s => { s with DBR := 0xFF }) [(0xFFFFFF, 0x34), (0x000000, 0x12)] []
    s.bus.byteAt ((s.ea (.abs 0xFFFF)).1.byte 0) = some 0x34 ∧ s.bus.byteAt ((s.ea (.abs 0xFFFF)).1.byte 1) = some 0x12 := by decide

theorem witness_ReadModifyWriteOrder :
    Instr.trb (.dp 0x10) ∈ [Instr.inc (.mem (.dp 0x10)), .trb (.dp 0x10)] ∧ ∃ t, exec (.trb (.dp 0x10)) (start id [] []) = .next t :=
  ⟨by decide, _, rfl⟩

/-- The largest valid decimal operands. -/
theorem witness_DecimalArithmetic : ValidBcd 0x9999 4 ∧ ValidBcd 0x0099 2 := by
  constructor <;> intro i hi
  · match i, hi with
    | 0, _ => decide
    | 1, _ => decide
    | 2, _ => decide
    | 3, _ => decide
  · match i, hi with
    | 0, _ => decide
    | 1, _ => decide

/-- Both kinds of operand of BIT, and of the read-modify-write instructions. -/
theorem witness_operand_kinds : (∃ m, Src.mem (.dp 0x00) = .mem m) ∧ (Rmw.acc = .acc) := ⟨⟨_, rfl⟩, rfl⟩

/-- Pointers read after the return address has been pushed, at the end of the program bank. -/
theorem witness_CallsPushReturnAddress :
    ∃ t, exec (.jsr (.indx 0xFFFF)) (start (fun s => { s with PBR := 0x01 }) [(0x01FFFF, 0x34), (0x010000, 0x12)] []) = .next t ∧
      t.bus.byteAt (mkAddr 0x01 (0xFFFF + 0)) = some 0x34 ∧ t.bus.byteAt (mkAddr 0x01 (0xFFFF + 0 + 1)) = some 0x12 :=
  ⟨_, rfl, by decide, by decide⟩

/-- Software interrupts in both modes, with the vectors in memory. -/
theorem witness_SoftwareInterruptEntry :
    (start (fun s => { s with e := false }) [] []).e = false ∧ (start id [] []).e = true ∧
    (∃ t, exec (.brk 0x00) (start (fun s => { s with e := false }) [(0xFFE6, 0x34), (0xFFE7, 0x12)] []) = .next t ∧
      t.bus.byteAt (mkAddr 0 0xFFE6) = some 0x34 ∧ t.bus.byteAt (mkAddr 0 (0xFFE6 + 1)) = some 0x12) ∧
    (∃ t, exec (.cop 0x00) (start (fun s => { s with e := false }) [(0xFFE4, 0x34), (0xFFE5, 0x12)] []) = .next t ∧
      t.bus.byteAt (mkAddr 0 0xFFE4) = some 0x34 ∧ t.bus.byteAt (mkAddr 0 (0xFFE4 + 1)) = some 0x12) ∧
    (∃ t, exec (.brk 0x00) (start id [(0xFFFE, 0x34), (0xFFFF, 0x12)] []) = .next t ∧
      t.bus.byteAt (mkAddr 0 0xFFFE) = some 0x34 ∧ t.bus.byteAt (mkAddr 0 (0xFFFE + 1)) = some 0x12) ∧
    (∃ t, exec (.cop 0x00) (start id [(0xFFF4, 0x34), (0xFFF5, 0x12)] []) = .next t ∧
      t.bus.byteAt (mkAddr 0 0xFFF4) = some 0x34 ∧ t.bus.byteAt (mkAddr 0 (0xFFF4 + 1)) = some 0x12) :=
  ⟨by decide, by decide, ⟨_, rfl, by decide, by decide⟩, ⟨_, rfl, by decide, by decide⟩, ⟨_, rfl, by decide, by decide⟩,
   ⟨_, rfl, by decide, by decide⟩⟩

/-- The run of the source's example S3. -/
theorem witness_StaleHighByte :
    (start (fun s => { s with e := false }) [] []).e = false ∧
    ∃ s1 s2 s3 s4 s5, exec (.rep 0x20) (start (fun s => { s with e := false }) [] []) = .next s1 ∧
      exec (.lda (.imm 0x1234)) s1 = .next s2 ∧ exec (.sep 0x20) s2 = .next s3 ∧ exec (.lda (.imm 0x00AB)) s3 = .next s4 ∧
      exec (.rep 0x20) s4 = .next s5 :=
  ⟨by decide, _, _, _, _, _, rfl, rfl, rfl, rfl, rfl⟩

/-- A native stack across the end of bank 0, and an emulation stack across the end of its page: the four slots are RAM and distinct,
and each of the calls completes. -/
theorem witness_ReturnsUndoCalls :
    let s := start (fun s => { s with SP := 0x0001, e := false }) [] []
    let u := start (fun s => { s with SP := 0x0101 }) [] []
    s.Inv ∧ (∀ k < 4, s.bus.isRam (mkAddr 0 (s.pushSlot k)) = true) ∧
    (∀ j < 4, ∀ k < 4, j ≠ k → s.bus.sameByte (mkAddr 0 (s.pushSlot j)) (mkAddr 0 (s.pushSlot k)) = false) ∧
    u.Inv ∧ (∀ k < 4, u.bus.isRam (mkAddr 0 (u.pushSlot k)) = true) ∧
    (∀ j < 4, ∀ k < 4, j ≠ k → u.bus.sameByte (mkAddr 0 (u.pushSlot j)) (mkAddr 0 (u.pushSlot k)) = false) ∧
    (∃ t, exec (.jsr (.abs 0x9000)) s = .next t) ∧ (∃ t, exec (.jsl 0x019000) s = .next t) ∧
    (∃ t, exec (.brk 0x00) s = .next t) ∧ (∃ t, exec (.cop 0x00) u = .next t) := by
  refine ⟨⟨fun _ => by decide, fun h => absurd h (by decide), rfl⟩, by decide, by decide,
    ⟨fun _ => by decide, fun _ => by decide, rfl⟩, by decide, by decide, ⟨_, rfl⟩, ⟨_, rfl⟩, ⟨_, rfl⟩, ⟨_, rfl⟩⟩

/-- In the reference map, a walk that ends on the last RAM byte below the MMIO window of its bank, from two states whose registers differ. -/
theorem witness_DisassemblerObserves :
    let s := State.reset
    let t := { State.reset with A := 0x1234, e := false }
    let evs : List Event := [.read 0x001FFF (.mapped 0 0x1FFF) 0x00, .read 0x001FFE (.mapped 0 0x1FFE) 0x00]
    (s.disassemble 0x001FFE 1 true true true false).2.bus.events = evs ++ s.bus.events ∧
    (∀ p ∈ readsOf evs, ∃ v, s.bus.byteAt p.1 = some v ∧ t.bus.byteAt p.1 = some v) ∧ s.bus.byteAt 0x002000 = none := by
  intro s t evs
  have h : (readsOf evs).all (fun p => s.bus.byteAt p.1 == some 0x00 && t.bus.byteAt p.1 == some 0x00) = true := by decide +kernel
  refine ⟨by decide +kernel, fun p hp => ⟨0x00, ?_⟩, by decide +kernel⟩
  simpa using List.all_eq_true.mp h p hp

end Sys2Proof.Tests
end

section
/-! The width of the accumulator under REP and SEP, and what an immediate LDA writes at that width (10_state.md R24). -/

namespace Sys2Proof.Machine

/-- The accumulator's width after `P <- v`: bit 5 of `v` decides it in native mode. -/
theorem State.writeP_m8 (v : Byte) (s : State) : (s.writeP v).m8 = (s.e || v.getLsbD 5) := rfl

theorem exec_rep (v : Byte) (s : State) :
    exec (.rep v) s = .next ((s.writeP (s.P &&& ~~~v)).advance (s.lenOf (.rep v))) := rfl

theorem exec_sep (v : Byte) (s : State) :
    exec (.sep v) s = .next ((s.writeP (s.P ||| v)).advance (s.lenOf (.sep v))) := rfl

theorem exec_lda_imm (v : Word) (s : State) :
    exec (.lda (.imm v)) s =
      .next (((s.wrA (s.wm.trunc v)).setNZ (s.wm.trunc v) s.wm).advance (s.lenOf (.lda (.imm v)))) := rfl

/-- REP #$20 makes the accumulator 16 bits wide in native mode and leaves its contents. -/
theorem rep_m_native {s t : State} (he : s.e = false) (h : exec (.rep 0x20) s = .next t) :
    t.e = false ∧ t.m8 = false ∧ t.A = s.A := by
  cases (exec_rep 0x20 s).symm.trans h
  simp [State.writeP_m8, he]

/-- SEP #$20 makes the accumulator 8 bits wide and leaves its contents, the hidden high byte included. -/
theorem sep_m {s t : State} (h : exec (.sep 0x20) s = .next t) :
    t.e = s.e ∧ t.m8 = true ∧ t.A = s.A := by
  cases (exec_sep 0x20 s).symm.trans h
  simp [State.writeP_m8]

/-- At 16 bits an immediate LDA replaces the whole accumulator. -/
theorem lda_imm_wide {s t : State} {v : Word} (hm : s.m8 = false) (h : exec (.lda (.imm v)) s = .next t) :
    t.e = s.e ∧ t.A = v := by
  cases (exec_lda_imm v s).symm.trans h
  simp [State.wm, Width.ofNarrow, Width.trunc, hm]

/-- At 8 bits an immediate LDA replaces the low byte and keeps the high one. -/
theorem lda_imm_narrow {s t : State} {v : Word} (hm : s.m8 = true) (h : exec (.lda (.imm v)) s = .next t) :
    t.e = s.e ∧ t.A = mkWord (hiByte s.A) (loByte v) := by
  cases (exec_lda_imm v s).symm.trans h
  simp [hm]

/-- Settles O58, by following the accumulator through the five steps: the wide load puts `v` there, SEP hides its high byte, the narrow
load replaces the low byte alone, and the last REP exposes both. -/
theorem staleHighByte : Obligations.StaleHighByte := by
  intro s s1 s2 s3 s4 s5 v w he hrep hldaWide hsep hldaNarrow hrep'
  obtain ⟨he1, hm1, -⟩ := rep_m_native he hrep
  obtain ⟨he2, hA2⟩ := lda_imm_wide hm1 hldaWide
  obtain ⟨he3, hm3, hA3⟩ := sep_m hsep
  obtain ⟨he4, hA4⟩ := lda_imm_narrow hm3 hldaNarrow
  have hnative : s4.e = false := by rw [he4, he3, he2, he1]
  obtain ⟨-, hm5, hA5⟩ := rep_m_native hnative hrep'
  refine ⟨?_, hm5⟩
  rw [hA5, hA4, hA3, hA2]

end Sys2Proof.Machine
end

section
/-! What stands at an address after one write and after a stretch of writes, and the accesses of every size put together from it
(20_memory.md R66, R67, R80, R81). -/

namespace Sys2Proof.Bus

/-! ## Which byte an address reaches -/

theorem isRam_of_resolve {b : Bus} {a : Address} {dev off size : Nat} {cells : Memory} (ht : b.resolve a = .mapped dev off)
    (hd : b.devices[dev]? = some (.ram size cells)) : b.isRam a = true :=
  isRam_iff.mpr ⟨dev, off, size, cells, ht, hd⟩

theorem sameByte_of_resolve_ne {b : Bus} {a c : Address} (h : b.resolve a ≠ b.resolve c) : b.sameByte a c = false := by
  simp [sameByte, h]

theorem sameByte_of_offset_ne {b : Bus} {a c : Address} {dev o p : Nat} (ha : b.resolve a = .mapped dev o)
    (hc : b.resolve c = .mapped dev p) (h : o ≠ p) : b.sameByte a c = false :=
  sameByte_of_resolve_ne (by simpa [ha, hc] using h)

theorem byteAt_of_resolve_eq {b : Bus} {a c : Address} (h : b.resolve c = b.resolve a) : b.byteAt c = b.byteAt a := by
  simp only [byteAt, h]

theorem byteAt_ram {b : Bus} {a : Address} {dev off size : Nat} {cells : Memory} (ht : b.resolve a = .mapped dev off)
    (hd : b.devices[dev]? = some (.ram size cells)) : b.byteAt a = some (cells.read off) := by
  simp only [byteAt, ht, hd]

theorem byteAt_rom {b : Bus} {a : Address} {dev off size : Nat} {image : Memory} (ht : b.resolve a = .mapped dev off)
    (hd : b.devices[dev]? = some (.rom size image)) : b.byteAt a = some (image.read off) := by
  simp only [byteAt, ht, hd]

/-! ## A write to an address that is no byte of a RAM -/

theorem storeDevices_of_writeByte_eq {devices : List Device} {dev off : Nat} {v : Byte} {d : Device} (hd : devices[dev]? = some d)
    (hw : d.writeByte off v = d) : storeDevices devices v (.mapped dev off) = devices := by
  obtain ⟨hlt, hg⟩ := List.getElem?_eq_some_iff.mp hd
  simp only [storeDevices, hd, hw]
  rw [← hg, List.set_getElem_self]

/-- A ROM discards the byte, an `Mmio` device keeps none in the block, and an unmapped address has no device. -/
theorem write8_devices_of_not_isRam (a : Address) (v : Byte) {b : Bus} (h : b.isRam a = false) :
    (b.write8 a v).devices = b.devices := by
  change storeDevices b.devices v (b.resolve a) = b.devices
  cases ht : b.resolve a with
  | unmapped => rfl
  | mapped dev off =>
    obtain ⟨d, hd, -⟩ := resolve_mapped ht
    cases d with
    | ram size cells => rw [isRam_of_resolve ht hd] at h; cases h
    | rom size image => exact storeDevices_of_writeByte_eq hd rfl
    | mmio handle => exact storeDevices_of_writeByte_eq hd rfl

/-! ## A stretch of writes to distinct bytes of RAM -/

theorem Stored.byteAt {b b' : Bus} {stores : List (Address × Byte)} (h : b.Stored b' stores)
    (hram : ∀ c ∈ stores, b.isRam c.1 = true) (hdistinct : stores.Pairwise (fun c d => b.sameByte c.1 d.1 = false)) :
    ∀ c ∈ stores, b'.byteAt c.1 = some c.2 := by
  induction stores with
  | nil => simp
  | cons c rest ih =>
    obtain ⟨hfirst, hrest⟩ := h
    obtain ⟨hlater, hdistinct⟩ := List.pairwise_cons.mp hdistinct
    rw [List.forall_mem_cons] at hram ⊢
    exact ⟨hfirst hram.1 hlater, ih hrest hram.2 hdistinct⟩

theorem Frame.write24 (loc : Loc) (v : Address) (b : Bus) :
    Bus.Frame [(loc.byte 0, loByte (offsetOf v)), (loc.byte 1, hiByte (offsetOf v)), (loc.byte 2, bankOf v)] b (b.write24 loc v) :=
  (write16 loc (offsetOf v) b).trans (write8 (loc.byte 2) (bankOf v) _)

theorem readByte_writeByte {b : Bus} {loc : Loc} (h0 : b.isRam (loc.byte 0) = true) (v : Byte) :
    ((b.writeByte loc v).readByte loc).1 = v :=
  read8_of_byteAt (byteAt_write8_same _ v b h0)

theorem read16_write16 {b : Bus} {loc : Loc} (h0 : b.isRam (loc.byte 0) = true) (h1 : b.isRam (loc.byte 1) = true)
    (h01 : b.sameByte (loc.byte 0) (loc.byte 1) = false) (v : Word) : ((b.write16 loc v).read16 loc).1 = v := by
  have hstored := (Frame.write16 loc v b).stored.byteAt (by simp [h0, h1]) (by simp [h01])
  simp only [List.forall_mem_cons] at hstored
  obtain ⟨hlo, hhi, -⟩ := hstored
  rw [read16_of_byteAt hlo hhi, mkWord_hi_lo]

theorem read24_write24 {b : Bus} {loc : Loc} (h0 : b.isRam (loc.byte 0) = true) (h1 : b.isRam (loc.byte 1) = true)
    (h2 : b.isRam (loc.byte 2) = true) (h01 : b.sameByte (loc.byte 0) (loc.byte 1) = false)
    (h02 : b.sameByte (loc.byte 0) (loc.byte 2) = false) (h12 : b.sameByte (loc.byte 1) (loc.byte 2) = false) (v : Address) :
    ((b.write24 loc v).read24 loc).1 = v := by
  have hstored := (Frame.write24 loc v b).stored.byteAt (by simp [h0, h1, h2]) (by simp [h01, h02, h12])
  simp only [List.forall_mem_cons] at hstored
  obtain ⟨hlo, hhi, hbank, -⟩ := hstored
  rw [read24_of_byteAt hlo hhi hbank, mkLong, mkWord_hi_lo, mkAddr_bank_offset]

/-- Settles O1: distinct offsets of one RAM are distinct bytes, so no byte of the write overwrites another and the read finds each. -/
theorem busReadAfterWrite : Obligations.BusReadAfterWrite := by
  intro b loc dev size cells hd o0 h0
  have ram {k o} (h : b.resolve (loc.byte k) = .mapped dev o) : b.isRam (loc.byte k) = true := isRam_of_resolve h hd
  refine ⟨readByte_writeByte (ram h0), fun o1 h1 h01 => ?_⟩
  have d01 := sameByte_of_offset_ne h0 h1 h01
  refine ⟨read16_write16 (ram h0) (ram h1) d01, fun o2 h2 h02 h12 => ?_⟩
  exact read24_write24 (ram h0) (ram h1) (ram h2) d01 (sameByte_of_offset_ne h0 h2 h02) (sameByte_of_offset_ne h1 h2 h12)

/-- Settles O7, clause by clause from what one read and one write do; a mirror of the address written reads as that address does. -/
theorem singleByteAccess : Obligations.SingleByteAccess := by
  intro b a
  refine ⟨fun x => read8_of_byteAt, rfl, fun v => ⟨write8_events a v b, write8_map a v b, fun hram c hc => ?_,
    write8_devices_of_not_isRam a v, fun c hc => byteAt_write8_other a c v b (sameByte_of_resolve_ne hc)⟩⟩
  have hmirror : (b.write8 a v).resolve c = (b.write8 a v).resolve a := by simpa using hc
  rw [byteAt_of_resolve_eq hmirror, byteAt_write8_same a v b hram]

/-- Settles O2: 0x7FFFFF resolves to the RAM's last offset, the two addresses after it to the ROM's offsets 0 and 1. -/
theorem busBoundaryRead : Obligations.BusBoundaryRead := by
  intro cells image events b
  have htargets : b.resolve ((Loc.lin 0x7FFFFF).byte 0) = .mapped 0 0x1FFFF ∧
      b.resolve ((Loc.lin 0x7FFFFF).byte 1) = .mapped 1 0 ∧ b.resolve ((Loc.lin 0x7FFFFF).byte 2) = .mapped 1 1 := by
    simp [b, resolve, resolveIn, Loc.byte, MapRow.covers, MapRow.offset, Xlate.raw, Device.size]
  obtain ⟨h0, h1, h2⟩ := htargets
  exact read24_of_byteAt (byteAt_ram h0 rfl) (byteAt_rom h1 rfl) (byteAt_rom h2 rfl)

end Sys2Proof.Bus
end

section
/-! The addressing forms that read no pointer: 40_addressing_modes.md R142 to R144 and R150 to R154, R160. -/

namespace Sys2Proof.Machine.State

/-- Settles O23: with X and Y read at index width, each clause is the equation of `ea` at its form, which answers the state unchanged. -/
theorem addressesWithoutPointer : Obligations.AddressesWithoutPointer := by
  intro s d a al x y
  have hx : s.rdX = x := s.rdX_eq
  have hy : s.rdY = y := s.rdY_eq
  rw [← hx, ← hy]
  exact ⟨rfl, rfl, rfl, rfl, rfl, rfl, rfl, rfl, rfl⟩

end Sys2Proof.Machine.State
end

section
/-! What an instruction leaves alone, put together from what each of its operations leaves alone: frames compose, each operation has its
frame, and `PC` moves past the instruction once nothing before has moved it (40_addressing_modes.md R131). -/

namespace Sys2Proof.Machine

namespace Frame

variable {regs regs' : List Reg} {flags flags' : List Flag} {stores stores' : List (Address × Byte)} {s t u : State}

theorem refl (s : State) : Frame [] [] [] s s := ⟨fun _ _ => rfl, fun _ _ => rfl, .refl s.bus, rfl⟩

/-- The registers, the flags and the stores of two stretches together. -/
theorem trans (h : Frame regs flags stores s t) (h' : Frame regs' flags' stores' t u) :
    Frame (regs ++ regs') (flags ++ flags') (stores ++ stores') s u where
  regs r hr := by
    rw [List.mem_append, not_or] at hr
    exact (h'.regs r hr.2).trans (h.regs r hr.1)
  flags f hf := by
    rw [List.mem_append, not_or] at hf
    exact (h'.flags f hf.2).trans (h.flags f hf.1)
  bus := h.bus.trans h'.bus
  charOut := h'.charOut.trans h.charOut

/-! ## The frame of each operation -/

theorem withBus {b : Bus} (hb : s.bus.Frame stores b) : Frame [] [] stores s (s.withBus b) where
  regs r _ := by cases r <;> rfl
  flags _ _ := rfl
  bus := hb
  charOut := rfl

theorem operand (o : Src) (w : Width) (s : State) : Frame [] [] [] s (s.operand o w).2 := by
  obtain ⟨b, hs, hb⟩ := State.operand_spec o w s
  rw [hs]
  exact withBus hb

theorem writeMem (m : Mem) (w : Width) (v : Word) (s : State) :
    Frame [] [] (valueBytes (s.ea m).1 w v) s (s.writeMem m w v) := by
  obtain ⟨b, hs, hb⟩ := State.writeMem_spec m w v s
  rw [hs]
  exact withBus hb

/-- A write of one register. -/
theorem of_register {r : Reg} (hreg : ∀ r' ≠ r, t.reg r' = s.reg r') (hP : t.P = s.P) (hbus : t.bus = s.bus)
    (hchar : t.charOut = s.charOut) : Frame [r] [] [] s t where
  regs r' hr := hreg r' (by simpa using hr)
  flags f _ := by simp only [State.flag, hP]
  bus := hbus ▸ .refl s.bus
  charOut := hchar

theorem wrA (v : Word) (s : State) : Frame [.A] [] [] s (s.wrA v) :=
  of_register (fun r hr => by
    cases r with
    | A => contradiction
    | _ => rfl) rfl rfl rfl

theorem wrX (v : Word) (s : State) : Frame [.X] [] [] s (s.wrX v) :=
  of_register (fun r hr => by
    cases r with
    | X => contradiction
    | _ => rfl) rfl rfl rfl

theorem wrY (v : Word) (s : State) : Frame [.Y] [] [] s (s.wrY v) :=
  of_register (fun r hr => by
    cases r with
    | Y => contradiction
    | _ => rfl) rfl rfl rfl

theorem setNZ (v : Word) (w : Width) (s : State) : Frame [] [.n, .z] [] s (s.setNZ v w) where
  regs r _ := by cases r <;> rfl
  flags f hf := by
    simp only [List.mem_cons, List.not_mem_nil, or_false, not_or] at hf
    exact State.setNZ_flag_other v w s f hf.1 hf.2
  bus := .refl s.bus
  charOut := rfl

theorem advance (n : Nat) (s : State) : Frame [.PC] [] [] s (s.advance n) :=
  of_register (fun r hr => by
    cases r with
    | PC => contradiction
    | _ => rfl) rfl rfl rfl

/-! ## What a frame keeps -/

theorem A_eq (h : Frame regs flags stores s t) (hA : .A ∉ regs) : t.A = s.A := BitVec.eq_of_toNat_eq (h.regs .A hA)

theorem PC_eq (h : Frame regs flags stores s t) (hPC : .PC ∉ regs) : t.PC = s.PC := BitVec.eq_of_toNat_eq (h.regs .PC hPC)

theorem e_eq (h : Frame regs flags stores s t) (he : .e ∉ regs) : t.e = s.e := by
  rw [Bool.eq_iff_iff, ← Bool.toNat_eq_one, ← Bool.toNat_eq_one]
  exact iff_of_eq (congrArg (· = 1) (h.regs .e he))

theorem m8_eq (h : Frame regs flags stores s t) (he : .e ∉ regs) (hm : .m ∉ flags) : t.m8 = s.m8 := by
  simp only [State.m8, h.e_eq he, h.flags .m hm]

theorem x8_eq (h : Frame regs flags stores s t) (he : .e ∉ regs) (hx : .x ∉ flags) : t.x8 = s.x8 := by
  simp only [State.x8, h.e_eq he, h.flags .x hx]

/-! ## The end of an instruction -/

theorem fallsThrough (h : Frame regs flags stores s t) (hPC : .PC ∉ regs) (i : Instr) :
    FallsThrough i s (t.advance (s.lenOf i)) := by
  rw [FallsThrough, State.advance_PC, h.PC_eq hPC, State.lenOf]

/-- After an effect that leaves `PC` alone, an instruction that sets `n` and `z` ends with them, past itself. -/
theorem setNZ_advance (h : Frame regs flags stores s u) (hPC : .PC ∉ regs) (v : Word) (w : Width) (i : Instr) :
    HasNZ v w ((u.setNZ v w).advance (s.lenOf i)) ∧ FallsThrough i s ((u.setNZ v w).advance (s.lenOf i)) ∧
      Frame (regs ++ [.PC]) (flags ++ [.n, .z]) stores s ((u.setNZ v w).advance (s.lenOf i)) := by
  have hnz := h.trans (setNZ v w u)
  refine ⟨State.setNZ_hasNZ v w u, hnz.fallsThrough (by simpa using hPC) i, ?_⟩
  simpa using hnz.trans (advance (s.lenOf i) _)

end Frame

end Sys2Proof.Machine
end

section
/-! Loads and stores: 41_load_store.md R171 to R177. -/

namespace Sys2Proof.Machine

/-! ## Loads -/

theorem exec_lda (o : Src) (s : State) :
    exec (.lda o) s = .next ((((s.operand o s.wm).2.wrA (s.operand o s.wm).1).setNZ (s.operand o s.wm).1 s.wm).advance
      (s.lenOf (.lda o))) := rfl

theorem exec_ldx (o : Src) (s : State) :
    exec (.ldx o) s = .next ((((s.operand o s.wx).2.wrX (s.operand o s.wx).1).setNZ (s.operand o s.wx).1 s.wx).advance
      (s.lenOf (.ldx o))) := rfl

theorem exec_ldy (o : Src) (s : State) :
    exec (.ldy o) s = .next ((((s.operand o s.wx).2.wrY (s.operand o s.wx).1).setNZ (s.operand o s.wx).1 s.wx).advance
      (s.lenOf (.ldy o))) := rfl

/-- Settles O27: reading the operand keeps the width and the old accumulator, which the write at that width then goes by. -/
theorem ldaLoadsAccumulator : Obligations.LdaLoadsAccumulator := by
  intro o s v
  have hread := Frame.operand o s.wm s
  have hwritten : WrittenKeep s.m8 v s.A ((s.operand o s.wm).2.wrA v).A := by
    rw [← hread.m8_eq (by simp) (by simp), ← hread.A_eq (by simp)]
    exact State.wrA_written v _
  exact ⟨_, exec_lda o s, hwritten, (hread.trans (.wrA v _)).setNZ_advance (by simp) v s.wm (.lda o)⟩

/-- Settles O28: reading the operand keeps the index width, which the write of either register goes by. -/
theorem ldxLdyLoadIndex : Obligations.LdxLdyLoadIndex := by
  intro o s v
  have hread := Frame.operand o s.wx s
  have hx8 := hread.x8_eq (by simp) (by simp)
  constructor
  · have hwritten : WrittenLow s.x8 v ((s.operand o s.wx).2.wrX v).X := hx8 ▸ State.wrX_written v _
    exact ⟨_, exec_ldx o s, hwritten, (hread.trans (.wrX v _)).setNZ_advance (by simp) v s.wx (.ldx o)⟩
  · have hwritten : WrittenLow s.x8 v ((s.operand o s.wx).2.wrY v).Y := hx8 ▸ State.wrY_written v _
    exact ⟨_, exec_ldy o s, hwritten, (hread.trans (.wrY v _)).setNZ_advance (by simp) v s.wx (.ldy o)⟩

/-! ## Stores -/

/-- An instruction that ends after a write of `u` at width `w` has stored the bytes of any value with the same low `w` bits. -/
theorem finish_writeMem_spec (i : Instr) (m : Mem) {w : Width} {u v : Word} (huv : w.trunc u = w.trunc v) (s : State) :
    ∃ t, finish i s (s.writeMem m w u) = .next t ∧ FallsThrough i s t ∧ Frame [.PC] [] (valueBytes (s.ea m).1 w v) s t := by
  have hwrite := Frame.writeMem m w u s
  rw [valueBytes_congr _ _ _ _ huv] at hwrite
  refine ⟨_, rfl, hwrite.fallsThrough (by simp) i, ?_⟩
  simpa using hwrite.trans (.advance (s.lenOf i) _)

/-- Settles O29: each store is one write at its width, of the register's low `w` bits or of zero. -/
theorem storesWriteMemory : Obligations.StoresWriteMemory := by
  intro m s
  exact ⟨finish_writeMem_spec (.sta m) m (s.wm.trunc_trunc s.A) s, finish_writeMem_spec (.stx m) m (s.wx.trunc_trunc s.X) s,
    finish_writeMem_spec (.sty m) m (s.wx.trunc_trunc s.Y) s, finish_writeMem_spec (.stz m) m rfl s⟩

end Sys2Proof.Machine
end

section
/-! The frame of a flag write, weaker frames, and the end of an instruction that leaves `n` and `z` to itself. -/

namespace Sys2Proof.Machine.Frame

variable {regs regs' : List Reg} {flags flags' : List Flag} {stores : List (Address × Byte)} {s t : State}

/-- What changes nothing but some registers and flags changes nothing but more of them. -/
theorem weaken (h : Frame regs flags stores s t) (hregs : regs ⊆ regs') (hflags : flags ⊆ flags') :
    Frame regs' flags' stores s t where
  regs r hr := h.regs r (fun hmem => hr (hregs hmem))
  flags f hf := h.flags f (fun hmem => hf (hflags hmem))
  bus := h.bus
  charOut := h.charOut

theorem setFlag (f : Flag) (b : Bool) (s : State) : Frame [] [f] [] s (s.setFlag f b) where
  regs r _ := by cases r <;> rfl
  flags g hg := by
    rw [State.setFlag_flag, if_neg (Ne.symm (by simpa using hg))]
  bus := .refl s.bus
  charOut := rfl

theorem trans_setFlag (h : Frame regs flags stores s t) (f : Flag) (b : Bool) :
    Frame regs (flags ++ [f]) stores s (t.setFlag f b) := by
  simpa using h.trans (setFlag f b t)

/-- After an effect that leaves `PC` alone, an instruction ends past itself. -/
theorem trans_advance (h : Frame regs flags stores s t) (hPC : .PC ∉ regs) (i : Instr) :
    FallsThrough i s (t.advance (s.lenOf i)) ∧ Frame (regs ++ [.PC]) flags stores s (t.advance (s.lenOf i)) :=
  ⟨h.fallsThrough hPC i, by simpa using h.trans (advance (s.lenOf i) t)⟩

/-- `WrA` after an effect that keeps the accumulator and its width. -/
theorem wrA_written (h : Frame regs flags stores s t) (hA : .A ∉ regs) (he : .e ∉ regs) (hm : .m ∉ flags) (v : Word) :
    WrittenKeep s.m8 v s.A (t.wrA v).A := by
  rw [← h.m8_eq he hm, ← h.A_eq hA]
  exact State.wrA_written v t

end Sys2Proof.Machine.Frame
end

section
/-! Operations whose low byte is decided by the low byte of their first operand: at a width they may as well be given the whole register. -/

namespace Sys2Proof

/-- The low byte of the result depends on the first operand's low byte alone. -/
def LowByteLocal (f : Word → Word → Word) : Prop := ∀ a a' b, loByte a = loByte a' → loByte (f a b) = loByte (f a' b)

namespace LowByteLocal

theorem and : LowByteLocal (· &&& ·) := fun a a' b h => by simp only [loByte_and, h]

theorem or : LowByteLocal (· ||| ·) := fun a a' b h => by simp only [loByte_or, h]

theorem xor : LowByteLocal (· ^^^ ·) := fun a a' b h => by simp only [loByte_xor, h]

theorem add : LowByteLocal (· + ·) := fun a a' b h => by simp only [loByte_add, h]

theorem sub : LowByteLocal (· - ·) := fun a a' b h => by simp only [loByte_sub, h]

/-- The bits of TSB. -/
theorem setBits : LowByteLocal (fun a b => b ||| a) := fun a a' b h => by simp only [loByte_or, h]

/-- The bits of TRB. -/
theorem clearBits : LowByteLocal (fun a b => b &&& ~~~a) := fun a a' b h => by simp only [loByte_and, loByte_not, h]

theorem trunc_left {f : Word → Word → Word} (hf : LowByteLocal f) (w : Width) (a b : Word) :
    w.trunc (f (w.trunc a) b) = w.trunc (f a b) := w.trunc_left f hf a b

end LowByteLocal

/-- The test of BIT, TSB and TRB: no common bit among the low `w`. -/
theorem Width.trunc_and_beq_zero (w : Width) (a b : Word) : (w.trunc a &&& b == 0) = true ↔ w.trunc (a &&& b) = 0 := by
  rw [beq_iff_eq, w.trunc_and]

end Sys2Proof
end

section
/-! Arithmetic, logic, compare and bit test on an operand: 42_alu.md R191 to R199. Each family has one lemma about its shared operation. -/

namespace Sys2Proof.Machine

/-! ## ADC and SBC -/

/-- What ADC and SBC get from the shared adder: SBC complements the value read, at the width. -/
def State.adderSum (sub : Bool) (o : Src) (s : State) : Sum :=
  let v := (s.operand o s.wm).1
  addCore (s.wm.trunc s.A) (if sub then s.wm.trunc (~~~v) else v) (s.flag .c) s.wm (s.flag .d) sub

theorem State.addA_eq (sub : Bool) (o : Src) (s : State) :
    s.addA sub o = ((((s.operand o s.wm).2.wrA (s.adderSum sub o).r).setFlag .c (s.adderSum sub o).carry).setFlag .v
      (s.adderSum sub o).overflow).setNZ (s.adderSum sub o).r s.wm := rfl

theorem finish_addA_spec (i : Instr) (sub : Bool) (o : Src) (s : State) :
    let sum := s.adderSum sub o
    ∃ t, finish i s (s.addA sub o) = .next t ∧ WrittenKeep s.m8 sum.r s.A t.A ∧ t.flag .c = sum.carry ∧
      t.flag .v = sum.overflow ∧ HasNZ sum.r s.wm t ∧ FallsThrough i s t ∧ Frame [.A, .PC] [.n, .v, .z, .c] [] s t := by
  intro sum
  have hread := Frame.operand o s.wm s
  have hsum := ((hread.trans (.wrA sum.r _)).trans_setFlag .c sum.carry).trans_setFlag .v sum.overflow
  obtain ⟨hnz, hpc, hframe⟩ := hsum.setNZ_advance (by simp) sum.r s.wm i
  rw [State.addA_eq]
  exact ⟨_, rfl, hread.wrA_written (by simp) (by simp) (by simp) sum.r, by simp [sum], by simp [sum], hnz, hpc,
    hframe.weaken (by simp) (by simp)⟩

/-- Settles O30: both instructions are the shared addition, with the operand as read for ADC and complemented for SBC. -/
theorem adcSbcUseAdder : Obligations.AdcSbcUseAdder := by
  intro o s
  exact ⟨finish_addA_spec (.adc o) false o s, finish_addA_spec (.sbc o) true o s⟩

/-! ## AND, ORA and EOR -/

theorem finish_logicA_spec (i : Instr) {f : Word → Word → Word} (hf : LowByteLocal f) (o : Src) (s : State) :
    let r := f s.A (s.operand o s.wm).1
    ∃ t, finish i s (s.logicA f o) = .next t ∧ WrittenKeep s.m8 r s.A t.A ∧ HasNZ r s.wm t ∧ FallsThrough i s t ∧
      Frame [.A, .PC] [.n, .z] [] s t := by
  have hlow := hf.trunc_left s.wm s.A (s.operand o s.wm).1
  have hread := Frame.operand o s.wm s
  obtain ⟨hnz, hpc, hframe⟩ := (hread.trans (.wrA (f s.rdA (s.operand o s.wm).1) _)).setNZ_advance (by simp) _ s.wm i
  exact ⟨_, rfl, (hread.wrA_written (by simp) (by simp) (by simp) _).congr hlow, hnz.congr hlow, hpc, hframe⟩

/-- Settles O34: the bitwise operations are local to the low byte. -/
theorem logicWritesAccumulator : Obligations.LogicWritesAccumulator := by
  intro o s
  exact ⟨finish_logicA_spec (.and o) .and o s, finish_logicA_spec (.ora o) .or o s, finish_logicA_spec (.eor o) .xor o s⟩

/-! ## CMP, CPX and CPY -/

theorem finish_compare_spec (i : Instr) (a : Word) (w : Width) (o : Src) (s : State) :
    let v := (s.operand o w).1
    ∃ t, finish i s (s.compare (w.trunc a) w o) = .next t ∧ (t.flag .c = true ↔ v.toNat ≤ (w.trunc a).toNat) ∧
      HasNZ (a - v) w t ∧ FallsThrough i s t ∧ Frame [.PC] [.n, .z, .c] [] s t := by
  intro v
  have hcarry := (Frame.operand o w s).trans_setFlag .c (decide (v.toNat ≤ (w.trunc a).toNat))
  obtain ⟨hnz, hpc, hframe⟩ := hcarry.setNZ_advance (by simp) (w.trunc a - v) w i
  refine ⟨_, rfl, ?_, hnz.congr (LowByteLocal.sub.trunc_left w a v), hpc, hframe.weaken (by simp) (by simp)⟩
  simp [State.compare, v]

/-- Settles O35: each compare is the shared one, on its register at its width. -/
theorem comparesSetFlags : Obligations.ComparesSetFlags := by
  intro o s
  exact ⟨finish_compare_spec (.cmp o) s.A s.wm o s, finish_compare_spec (.cpx o) s.X s.wx o s,
    finish_compare_spec (.cpy o) s.Y s.wx o s⟩

/-! ## BIT -/

theorem exec_bit_imm (v : Word) (s : State) :
    exec (.bit (.imm v)) s = finish (.bit (.imm v)) s (s.setFlag .z (s.wm.trunc s.A &&& s.wm.trunc v == 0)) := rfl

theorem exec_bit_mem (m : Mem) (s : State) :
    exec (.bit (.mem m)) s = finish (.bit (.mem m)) s
      ((((s.readMem m s.wm).2.setFlag .z (s.wm.trunc s.A &&& (s.readMem m s.wm).1 == 0)).setFlag .n
        (s.wm.msb (s.readMem m s.wm).1)).setFlag .v ((s.readMem m s.wm).1.getLsbD (s.wm.bits - 2))) := rfl

/-- Settles O36: both forms set `z`, and then the memory form sets `n` and `v`. -/
theorem bitTestsOperand : Obligations.BitTestsOperand := by
  intro o s v
  cases o with
  | imm u =>
    obtain ⟨hpc, hframe⟩ := (Frame.setFlag .z (s.wm.trunc s.A &&& v == 0) s).trans_advance (by simp) (.bit (.imm u))
    refine ⟨_, exec_bit_imm u s, ?_, fun _ hm => (nomatch hm), hpc, hframe⟩
    rw [← Width.trunc_and_beq_zero]
    simp [v, State.operand]
  | mem m =>
    have hz := (Frame.operand (.mem m) s.wm s).trans_setFlag .z (s.wm.trunc s.A &&& v == 0)
    have hnv := (hz.trans_setFlag .n (s.wm.msb v)).trans_setFlag .v (v.getLsbD (s.wm.bits - 2))
    obtain ⟨hpc, hframe⟩ := hnv.trans_advance (by simp) (.bit (.mem m))
    refine ⟨_, exec_bit_mem m s, ?_, fun _ _ => ⟨?_, ?_⟩, hpc, hframe⟩
    · rw [← Width.trunc_and_beq_zero]
      simp [v, State.operand]
    · simp [v, State.operand, Width.msb]
    · simp [v, State.operand]

end Sys2Proof.Machine
end

section
/-! Read-modify-write and the index steps: 42_alu.md R200 to R211. -/

namespace Sys2Proof.Machine

/-! ## TSB and TRB -/

/-- The bytes stored are those of any value with the same low `w` bits as the result. -/
theorem Frame.modifyMem {m : Mem} {w : Width} {g : Word → Word} {r : Word} {s : State}
    (hr : w.trunc (g (s.operand (.mem m) w).1) = w.trunc r) :
    Frame [] [] (valueBytes (s.ea m).1 w r) s (s.modifyMem m w g).2 := by
  obtain ⟨b, hs, hb⟩ := State.modifyMem_spec m w g s
  rw [hs, ← valueBytes_congr _ _ _ _ hr]
  exact withBus hb

theorem finish_testAndModify_spec (i : Instr) {g : Word → Word → Word} (hg : LowByteLocal g) (m : Mem) (s : State) :
    let v := (s.operand (.mem m) s.wm).1
    ∃ t, finish i s (s.testAndModify g m) = .next t ∧ (t.flag .z = true ↔ s.wm.trunc (s.A &&& v) = 0) ∧ FallsThrough i s t ∧
      Frame [.PC] [.z] (valueBytes (s.ea m).1 s.wm (g s.A v)) s t := by
  intro v
  have hmodify := Frame.modifyMem (hg.trunc_left s.wm s.A v)
  obtain ⟨hpc, hframe⟩ := (hmodify.trans_setFlag .z (s.rdA &&& v == 0)).trans_advance (by simp) i
  refine ⟨_, rfl, ?_, hpc, hframe⟩
  rw [← Width.trunc_and_beq_zero]
  simp [State.testAndModify, State.modifyMem_fst, State.rdA, v, State.operand]

/-- Settles O37: both are the shared test and modification. -/
theorem tsbTrbModifyMemory : Obligations.TsbTrbModifyMemory := by
  intro m s
  exact ⟨finish_testAndModify_spec (.tsb m) .setBits m s, finish_testAndModify_spec (.trb m) .clearBits m s⟩

/-! ## INC, DEC and the shifts -/

/-- The register a read-modify-write writes before the program counter moves. -/
def rmwResultRegs : Rmw → List Reg
  | .acc => [.A]
  | .mem _ => []

theorem rmwResultRegs_append_PC (o : Rmw) : rmwResultRegs o ++ [.PC] = rmwRegs o := by cases o <;> rfl

theorem PC_notMem_rmwResultRegs (o : Rmw) : .PC ∉ rmwResultRegs o := by cases o <;> simp [rmwResultRegs]

theorem State.rmw_fst (o : Rmw) (g : Word → Word) (s : State) : (s.rmw o g).1 = s.rmwValue o := by cases o <;> rfl

/-- A read-modify-write whose result is cut to the width writes what the uncut result would be at that width. -/
theorem State.rmw_trunc_spec (o : Rmw) (g : Word → Word) (s : State) :
    (o = .acc → WrittenKeep s.m8 (g (s.rmwValue o)) s.A (s.rmw o (fun v => s.wm.trunc (g v))).2.A) ∧
      Frame (rmwResultRegs o) [] (s.rmwStores o (g (s.rmwValue o))) s (s.rmw o (fun v => s.wm.trunc (g v))).2 := by
  have hcut := s.wm.trunc_trunc (g (s.rmwValue o))
  cases o with
  | acc => exact ⟨fun _ => (State.wrA_written _ s).congr hcut, .wrA _ s⟩
  | mem m => exact ⟨fun h => (nomatch h), .modifyMem hcut⟩

theorem finish_modifyNZ_spec (i : Instr) (o : Rmw) (g : Word → Word) (s : State) :
    let r := g (s.rmwValue o)
    ∃ t, finish i s (s.modifyNZ o g) = .next t ∧ (o = .acc → WrittenKeep s.m8 r s.A t.A) ∧ HasNZ r s.wm t ∧
      FallsThrough i s t ∧ Frame (rmwRegs o) [.n, .z] (s.rmwStores o r) s t := by
  obtain ⟨hwritten, hmodify⟩ := s.rmw_trunc_spec o g
  rw [← rmwResultRegs_append_PC, State.modifyNZ, State.rmw_fst]
  exact ⟨_, rfl, hwritten, hmodify.setNZ_advance (PC_notMem_rmwResultRegs o) _ s.wm i⟩

/-- Settles O38: both are a modification by one that sets `n` and `z`. -/
theorem incDecByOne : Obligations.IncDecByOne := by
  intro o s
  exact ⟨finish_modifyNZ_spec (.inc o) o (· + 1) s, finish_modifyNZ_spec (.dec o) o (· - 1) s⟩

theorem finish_shift_spec (i : Instr) (o : Rmw) (g : Word → Word) (out : Word → Bool) (s : State) :
    let r := g (s.rmwValue o)
    ∃ t, finish i s (s.shift o g out) = .next t ∧ (o = .acc → WrittenKeep s.m8 r s.A t.A) ∧ HasNZ r s.wm t ∧
      t.flag .c = out (s.rmwValue o) ∧ FallsThrough i s t ∧ Frame (rmwRegs o) [.n, .z, .c] (s.rmwStores o r) s t := by
  obtain ⟨hwritten, hmodify⟩ := s.rmw_trunc_spec o g
  obtain ⟨hnz, hpc, hframe⟩ := (hmodify.trans_setFlag .c (out (s.rmwValue o))).setNZ_advance (PC_notMem_rmwResultRegs o)
    (g (s.rmwValue o)) s.wm i
  rw [rmwResultRegs_append_PC] at hframe
  rw [State.shift, State.rmw_fst]
  exact ⟨_, rfl, hwritten, hnz, by simp, hpc, hframe.weaken (List.Subset.refl _) (by simp)⟩

/-- Settles O40: each is the shared shift, with its result and the bit that leaves. -/
theorem shiftsByOneBit : Obligations.ShiftsByOneBit := by
  intro o s
  exact ⟨finish_shift_spec (.asl o) o _ _ s, finish_shift_spec (.lsr o) o _ _ s, finish_shift_spec (.rol o) o _ _ s,
    finish_shift_spec (.ror o) o _ _ s⟩

/-! ## INX, INY, DEX and DEY -/

/-- An instruction that writes `u` to `X` and sets `n` and `z` from it, for any value with the same bits at index width. -/
theorem finish_wrX_setNZ_spec (i : Instr) {u v : Word} {s : State} (huv : s.wx.trunc u = s.wx.trunc v) :
    ∃ t, finish i s ((s.wrX u).setNZ u s.wx) = .next t ∧ WrittenLow s.x8 v t.X ∧ HasNZ v s.wx t ∧ FallsThrough i s t ∧
      Frame [.X, .PC] [.n, .z] [] s t := by
  obtain ⟨hnz, hend⟩ := (Frame.wrX u s).setNZ_advance (by simp) u s.wx i
  exact ⟨_, rfl, (State.wrX_written u s).congr huv, hnz.congr huv, hend⟩

/-- The same of `Y`. -/
theorem finish_wrY_setNZ_spec (i : Instr) {u v : Word} {s : State} (huv : s.wx.trunc u = s.wx.trunc v) :
    ∃ t, finish i s ((s.wrY u).setNZ u s.wx) = .next t ∧ WrittenLow s.x8 v t.Y ∧ HasNZ v s.wx t ∧ FallsThrough i s t ∧
      Frame [.Y, .PC] [.n, .z] [] s t := by
  obtain ⟨hnz, hend⟩ := (Frame.wrY u s).setNZ_advance (by simp) u s.wx i
  exact ⟨_, rfl, (State.wrY_written u s).congr huv, hnz.congr huv, hend⟩

/-- Settles O39: a step of the register at index width is a step of the whole register, cut to that width. -/
theorem indexStepByOne : Obligations.IndexStepByOne := by
  intro s
  have hadd (a : Word) := LowByteLocal.add.trunc_left s.wx a 1
  have hsub (a : Word) := LowByteLocal.sub.trunc_left s.wx a 1
  exact ⟨finish_wrX_setNZ_spec .inx (hadd s.X), finish_wrY_setNZ_spec .iny (hadd s.Y), finish_wrX_setNZ_spec .dex (hsub s.X),
    finish_wrY_setNZ_spec .dey (hsub s.Y)⟩

end Sys2Proof.Machine
end

section
/-! The frames of the register writes, the accesses and the stack operations of 43_transfer_stack.md, each with what it leaves in `SP`. -/

namespace Sys2Proof.Machine

namespace Frame

variable {stores : List (Address × Byte)} {s : State}

theorem setA (v : Word) (s : State) : Frame [.A] [] [] s (s.setA v) :=
  of_register (fun r hr => by
    cases r with
    | A => contradiction
    | _ => rfl) rfl rfl rfl

theorem setDR (v : Word) (s : State) : Frame [.DR] [] [] s (s.setDR v) :=
  of_register (fun r hr => by
    cases r with
    | DR => contradiction
    | _ => rfl) rfl rfl rfl

theorem setDBR (v : Byte) (s : State) : Frame [.DBR] [] [] s (s.setDBR v) :=
  of_register (fun r hr => by
    cases r with
    | DBR => contradiction
    | _ => rfl) rfl rfl rfl

theorem setSP (v : Word) (s : State) : Frame [.SP] [] [] s (s.setSP v) :=
  of_register (fun r hr => by
    cases r with
    | SP => contradiction
    | _ => rfl) rfl rfl rfl

/-- A write of `P` may change every flag, and its `Normalize` the registers it narrows. -/
theorem writeP (v : Byte) (s : State) : Frame [.X, .Y, .SP] Flag.all [] s (s.writeP v) where
  regs r hr := by
    cases r with
    | X | Y | SP => simp at hr
    | _ => rfl
  flags f hf := by cases f <;> simp [Flag.all] at hf
  bus := .refl s.bus
  charOut := rfl

theorem readByte (loc : Loc) (s : State) : Frame [] [] [] s (s.readByte loc).2 := withBus (.readByte loc s.bus)

theorem read16 (loc : Loc) (s : State) : Frame [] [] [] s (s.read16 loc).2 := withBus (.read16 loc s.bus)

theorem writeLoc (loc : Loc) (w : Width) (v : Word) (s : State) : Frame [] [] (valueBytes loc w v) s (s.writeLoc loc w v) := by
  obtain ⟨b, hs, hb⟩ := State.writeLoc_spec loc w v s
  rw [hs]
  exact withBus hb

/-! ## The stack -/

theorem withStack (sp : Word) {b : Bus} (hb : s.bus.Frame stores b) : Frame [.SP] [] stores s (s.withStack sp b) where
  regs r hr := by
    cases r with
    | SP => simp at hr
    | _ => rfl
  flags _ _ := rfl
  bus := hb
  charOut := rfl

/-- The frame of a stack operation, from what its specification says of it. -/
theorem of_withStack {sp : Word} {t : State} (h : ∃ b, t = s.withStack sp b ∧ s.bus.Frame stores b) :
    Frame [.SP] [] stores s t := by
  obtain ⟨b, rfl, hb⟩ := h
  exact withStack sp hb

theorem push8 (v : Byte) (s : State) : Frame [.SP] [] (s.pushed 0 [v]) s (s.push8 v) := of_withStack (s.push8_spec v)

theorem push16 (v : Word) (s : State) : Frame [.SP] [] (s.pushed 0 [hiByte v, loByte v]) s (s.push16 v) :=
  of_withStack (s.push16_spec v)

theorem pull8 (s : State) : Frame [.SP] [] [] s s.pull8.2 := of_withStack s.pull8_spec

theorem pull16 (s : State) : Frame [.SP] [] [] s s.pull16.2 := of_withStack s.pull16_spec

theorem pull (w : Width) (s : State) : Frame [.SP] [] [] s (s.pull w).2 := of_withStack (s.pull_spec w)

theorem SP_eq {regs : List Reg} {flags : List Flag} {t : State} (h : Frame regs flags stores s t) (hSP : .SP ∉ regs) : t.SP = s.SP :=
  BitVec.eq_of_toNat_eq (h.regs .SP hSP)

end Frame

namespace State

theorem push8_SP (v : Byte) (s : State) : (s.push8 v).SP = s.pushSlot 1 := rfl

theorem push16_SP (v : Word) (s : State) : (s.push16 v).SP = s.pushSlot 2 := rfl

theorem pull8_SP (s : State) : s.pull8.2.SP = s.pullSlot 1 := rfl

theorem pull16_SP (s : State) : s.pull16.2.SP = s.pullSlot 2 := rfl

theorem pull_SP (w : Width) (s : State) : (s.pull w).2.SP = s.pullSlot w.bytes := by
  cases w
  · exact s.pull8_SP
  · exact s.pull16_SP

end State

end Sys2Proof.Machine
end

section
/-! Register transfers: 43_transfer_stack.md R231 to R243. -/

namespace Sys2Proof.Machine

/-- An instruction that writes `v` to the accumulator at its width and sets `n` and `z` from it. -/
theorem finish_wrA_setNZ_spec (i : Instr) (v : Word) (s : State) :
    ∃ t, finish i s ((s.wrA v).setNZ v s.wm) = .next t ∧ WrittenKeep s.m8 v s.A t.A ∧ HasNZ v s.wm t ∧ FallsThrough i s t ∧
      Frame [.A, .PC] [.n, .z] [] s t :=
  ⟨_, rfl, State.wrA_written v s, (Frame.wrA v s).setNZ_advance (by simp) v s.wm i⟩

/-- Settles O41: a source read at index width is the whole register, once the write has cut it to that width. -/
theorem transfersAtDestinationWidth : Obligations.TransfersAtDestinationWidth := by
  intro s
  exact ⟨finish_wrX_setNZ_spec .tax rfl, finish_wrY_setNZ_spec .tay rfl, finish_wrX_setNZ_spec .tsx rfl,
    finish_wrY_setNZ_spec .txy (s.wx.trunc_trunc s.X), finish_wrX_setNZ_spec .tyx (s.wx.trunc_trunc s.Y),
    finish_wrA_setNZ_spec .txa s.X s, finish_wrA_setNZ_spec .tya s.Y s⟩

theorem finish_setSP_spec (i : Instr) (v : Word) (s : State) :
    ∃ t, finish i s (s.setSP v) = .next t ∧ t.SP = (if s.e then mkWord 0x01 (loByte v) else v) ∧ FallsThrough i s t ∧
      Frame [.SP, .PC] [] [] s t :=
  ⟨_, rfl, rfl, (Frame.setSP v s).trans_advance (by simp) i⟩

/-- Settles O42: the stack pointer is written by its own accessor, the accumulator and `DR` by writes that look at no width. -/
theorem sixteenBitTransfers : Obligations.SixteenBitTransfers := by
  intro s
  exact ⟨finish_setSP_spec .txs s.X s, finish_setSP_spec .tcs s.A s,
    ⟨_, rfl, rfl, (Frame.setDR s.A s).setNZ_advance (by simp) s.A .w16 .tcd⟩,
    ⟨_, rfl, rfl, (Frame.setA s.DR s).setNZ_advance (by simp) s.DR .w16 .tdc⟩,
    ⟨_, rfl, rfl, (Frame.setA s.SP s).setNZ_advance (by simp) s.SP .w16 .tsc⟩,
    ⟨_, rfl, rfl, (Frame.setA (mkWord (loByte s.A) (hiByte s.A)) s).setNZ_advance (by simp) _ .w8 .xba⟩⟩

end Sys2Proof.Machine
end

section
/-! Pushes: 43_transfer_stack.md R245 to R251 and R258 to R260. -/

namespace Sys2Proof.Machine

/-- An instruction that ends after some bytes have been pushed. -/
theorem finish_pushed_spec (i : Instr) {bytes : List Byte} {s u : State} (hsp : u.SP = s.pushSlot bytes.length)
    (h : Frame [.SP] [] (s.pushed 0 bytes) s u) :
    ∃ t, finish i s u = .next t ∧ t.SP = s.pushSlot bytes.length ∧ FallsThrough i s t ∧
      Frame [.SP, .PC] [] (s.pushed 0 bytes) s t :=
  ⟨_, rfl, hsp, h.trans_advance (by simp) i⟩

theorem finish_push8_spec (i : Instr) (v : Byte) (s : State) :
    ∃ t, finish i s (s.push8 v) = .next t ∧ t.SP = s.pushSlot 1 ∧ FallsThrough i s t ∧
      Frame [.SP, .PC] [] (s.pushed 0 [v]) s t :=
  finish_pushed_spec i (s.push8_SP v) (.push8 v s)

theorem finish_push16_spec (i : Instr) (v : Word) (s : State) :
    ∃ t, finish i s (s.push16 v) = .next t ∧ t.SP = s.pushSlot 2 ∧ FallsThrough i s t ∧
      Frame [.SP, .PC] [] (s.pushed 0 [hiByte v, loByte v]) s t :=
  finish_pushed_spec i (s.push16_SP v) (.push16 v s)

theorem finish_push_spec (i : Instr) (narrow : Bool) (v : Word) (s : State) :
    let bytes := if narrow then [loByte v] else [hiByte v, loByte v]
    ∃ t, finish i s (s.push (.ofNarrow narrow) v) = .next t ∧ t.SP = s.pushSlot bytes.length ∧ FallsThrough i s t ∧
      Frame [.SP, .PC] [] (s.pushed 0 bytes) s t := by
  cases narrow with
  | true => exact finish_push8_spec i (loByte v) s
  | false => exact finish_push16_spec i v s

/-- Settles O43: the three width-switched registers are pushed by the push at their width, the others by the push of their size. -/
theorem pushesStoreRegister : Obligations.PushesStoreRegister := by
  intro s
  exact ⟨finish_push_spec .pha s.m8 s.A s, finish_push_spec .phx s.x8 s.X s, finish_push_spec .phy s.x8 s.Y s,
    finish_push8_spec .php s.P s, finish_push8_spec .phb s.DBR s, finish_push16_spec .phd s.DR s,
    finish_push8_spec .phk s.PBR s⟩

/-- The read leaves the stack pointer, and so the slots, where they were. -/
theorem finish_read16_push16_spec (i : Instr) (loc : Loc) (s : State) :
    let r := s.read16 loc
    ∃ t, finish i s (r.2.push16 r.1) = .next t ∧ t.SP = s.pushSlot 2 ∧ FallsThrough i s t ∧
      Frame [.SP, .PC] [] (s.pushed 0 [hiByte r.1, loByte r.1]) s t := by
  intro r
  have hpush : Frame [.SP] [] (s.pushed 0 [hiByte r.1, loByte r.1]) s (r.2.push16 r.1) :=
    (Frame.read16 loc s).trans (.push16 r.1 r.2)
  exact finish_pushed_spec i (r.2.push16_SP r.1) hpush

/-- Settles O44: each is one push of a word, which PEI has read before. -/
theorem peaPeiPerPushWord : Obligations.PeaPeiPerPushWord := by
  intro s v r d
  exact ⟨finish_push16_spec (.pea v) v s, finish_read16_push16_spec (.pei d) (.b0 (s.direct d)) s,
    finish_push16_spec (.per r) (s.rel16Target r) s⟩

end Sys2Proof.Machine
end

section
/-! Pulls: 43_transfer_stack.md R252 to R257. -/

namespace Sys2Proof.Machine

/-- An instruction that writes one register with what it has pulled and sets `n` and `z` ends past itself, `SP` at the last slot pulled. -/
theorem Frame.pulled_setNZ_advance {r : Reg} {n : Nat} {s p u : State} (hsp : p.SP = s.pullSlot n) (hpull : Frame [.SP] [] [] s p)
    (hwrite : Frame [r] [] [] p u) (hSP : r ≠ .SP) (hPC : r ≠ .PC) (v : Word) (w : Width) (i : Instr) :
    HasNZ v w ((u.setNZ v w).advance (s.lenOf i)) ∧ ((u.setNZ v w).advance (s.lenOf i)).SP = s.pullSlot n ∧
      FallsThrough i s ((u.setNZ v w).advance (s.lenOf i)) ∧
      Frame [r, .SP, .PC] [.n, .z] [] s ((u.setNZ v w).advance (s.lenOf i)) := by
  have hslot : u.SP = s.pullSlot n := (hwrite.SP_eq (by simpa using hSP.symm)).trans hsp
  obtain ⟨hnz, hpc, hframe⟩ := (hpull.trans hwrite).setNZ_advance (by simpa using hPC.symm) v w i
  exact ⟨hnz, hslot, hpc, hframe.weaken (by simp) (by simp)⟩

/-- Settles O45: the pull keeps the width and the old accumulator, which the register write then goes by. -/
theorem pullsLoadWidthSwitchedRegister : Obligations.PullsLoadWidthSwitchedRegister := by
  intro s
  simp only [← State.pull_wm, ← State.pull_wx]
  have hm := Frame.pull s.wm s
  have hx := Frame.pull s.wx s
  have hx8 := hx.x8_eq (by simp) (by simp)
  refine ⟨?_, ?_, ?_⟩
  · exact ⟨_, rfl, hm.wrA_written (by simp) (by simp) (by simp) _,
      hm.pulled_setNZ_advance (s.pull_SP _) (.wrA _ _) (by simp) (by simp) _ _ .pla⟩
  · exact ⟨_, rfl, hx8 ▸ State.wrX_written _ _, hx.pulled_setNZ_advance (s.pull_SP _) (.wrX _ _) (by simp) (by simp) _ _ .plx⟩
  · exact ⟨_, rfl, hx8 ▸ State.wrY_written _ _, hx.pulled_setNZ_advance (s.pull_SP _) (.wrY _ _) (by simp) (by simp) _ _ .ply⟩

/-- Settles O46: `Normalize` after PLP pins a stack pointer that the pull has pinned already. -/
theorem pullsOfPlpPlbPld : Obligations.PullsOfPlpPlbPld := by
  intro s
  have hbyte := Frame.pull8 s
  obtain ⟨hpc, hframe⟩ := (hbyte.trans (.writeP s.pull8.1 _)).trans_advance (by simp) .plp
  refine ⟨⟨_, rfl, rfl, rfl, rfl, ?_, hpc, hframe.weaken (by simp) (List.Subset.refl _)⟩, ?_, ?_⟩
  · exact s.pin_pullSlot 0
  · exact ⟨_, rfl, rfl, Frame.pulled_setNZ_advance s.pull8_SP hbyte (.setDBR _ _) (by simp) (by simp) _ _ .plb⟩
  · exact ⟨_, rfl, rfl, Frame.pulled_setNZ_advance s.pull16_SP (.pull16 s) (.setDR _ _) (by simp) (by simp) _ _ .pld⟩

end Sys2Proof.Machine
end

section
/-! Block moves: 43_transfer_stack.md R261 to R263. -/

namespace Sys2Proof.Machine

theorem valueBytes_lin_zext16 (a : Address) (v : Byte) : valueBytes (.lin a) .w8 (zext16 v) = [(a, v)] := by
  simp [valueBytes, Loc.byte]

theorem Frame.blockMove (dst src : Byte) (step : Word) (s : State) :
    Frame [.DBR, .X, .Y, .A] [] [(mkAddr dst s.Y, (s.bus.read8 (mkAddr src s.X)).1)] s (s.blockMove dst src step) := by
  have hbyte : ((s.setDBR dst).readByte (.lin (mkAddr src s.X))).1 = (s.bus.read8 (mkAddr src s.X)).1 :=
    State.readByte_lin _ _
  rw [← hbyte, ← valueBytes_lin_zext16]
  have hcopy := ((Frame.setDBR dst s).trans (.readByte (.lin (mkAddr src s.X)) _)).trans
    (.writeLoc (.lin (mkAddr dst s.Y)) .w8 (zext16 ((s.setDBR dst).readByte (.lin (mkAddr src s.X))).1) _)
  exact ((hcopy.trans (.wrX (s.rdX + step) _)).trans (.wrY (s.rdY + step) _)).trans (.setA (s.A - 1) _)

theorem State.blockMove_X_written (dst src : Byte) (step : Word) (s : State) :
    WrittenLow s.x8 (s.X + step) (s.blockMove dst src step).X :=
  (State.wrX_written (s.rdX + step) s).congr (LowByteLocal.add.trunc_left s.wx s.X step)

theorem State.blockMove_Y_written (dst src : Byte) (step : Word) (s : State) :
    WrittenLow s.x8 (s.Y + step) (s.blockMove dst src step).Y :=
  (State.wrY_written (s.rdY + step) s).congr (LowByteLocal.add.trunc_left s.wx s.Y step)

theorem sub_one_eq_ffff_iff (a : Word) : a - 1 = 0xFFFF ↔ a = 0 := by
  bv_omega

theorem State.blockMove_A_eq_ffff_iff (dst src : Byte) (step : Word) (s : State) :
    (s.blockMove dst src step).A = 0xFFFF ↔ s.A = 0 := sub_one_eq_ffff_iff s.A

theorem finishPass_last {i : Instr} {s t : State} (hA : t.A = 0xFFFF) : finishPass i s t = finish i s t := if_pos hA

theorem finishPass_more {i : Instr} {s t : State} (hA : t.A ≠ 0xFFFF) : finishPass i s t = .next t := if_neg hA

/-- A pass of an instruction of three bytes, with `step` added to both indices: the program counter moves in the last pass alone. -/
theorem finishPass_blockMove_spec (i : Instr) (dst src : Byte) (step : Word) {s : State} (hlen : i.len s.m8 s.x8 = 3) :
    ∃ t, finishPass i s (s.blockMove dst src step) = .next t ∧ t.DBR = dst ∧ WrittenLow s.x8 (s.X + step) t.X ∧
      WrittenLow s.x8 (s.Y + step) t.Y ∧ t.A = s.A - 1 ∧ t.PC = (if s.A = 0 then s.PC + 3 else s.PC) ∧
      Frame [.A, .X, .Y, .DBR, .PC] [] [(mkAddr dst s.Y, (s.bus.read8 (mkAddr src s.X)).1)] s t := by
  have hmove := Frame.blockMove dst src step s
  have hx := s.blockMove_X_written dst src step
  have hy := s.blockMove_Y_written dst src step
  by_cases hA : s.A = 0
  · obtain ⟨hpc, hframe⟩ := hmove.trans_advance (by simp) i
    rw [FallsThrough, hlen] at hpc
    rw [if_pos hA]
    exact ⟨_, finishPass_last ((s.blockMove_A_eq_ffff_iff dst src step).mpr hA), rfl, hx, hy, rfl, hpc,
      hframe.weaken (by simp) (by simp)⟩
  · rw [if_neg hA]
    exact ⟨_, finishPass_more (mt (s.blockMove_A_eq_ffff_iff dst src step).mp hA), rfl, hx, hy, rfl,
      hmove.PC_eq (by simp), hmove.weaken (by simp) (by simp)⟩

/-- Settles O47: a step down is a step up by -1. -/
theorem blockMovePass : Obligations.BlockMovePass := by
  intro dst src s v Pass
  refine ⟨finishPass_blockMove_spec (.mvn dst src) dst src 1 rfl, ?_⟩
  have hdown := finishPass_blockMove_spec (.mvp dst src) dst src (-1) (s := s) rfl
  rw [← sub_eq_add_neg, ← sub_eq_add_neg] at hdown
  exact hdown

end Sys2Proof.Machine
end

section
/-! The frames of the writes of `PC` and `PBR`, and the end of an instruction that assigns `PC` itself (40_addressing_modes.md R131). -/

namespace Sys2Proof.Machine

namespace Frame

variable {s u : State}

theorem setPC (v : Word) (s : State) : Frame [.PC] [] [] s (s.setPC v) :=
  of_register (fun r hr => by
    cases r with
    | PC => contradiction
    | _ => rfl) rfl rfl rfl

theorem setPBR (v : Byte) (s : State) : Frame [.PBR] [] [] s (s.setPBR v) :=
  of_register (fun r hr => by
    cases r with
    | PBR => contradiction
    | _ => rfl) rfl rfl rfl

theorem jumpLong (a : Address) (s : State) : Frame [.PC, .PBR] [] [] s (s.jumpLong a) :=
  ((setPBR (bankOf a) s).trans (.setPC (offsetOf a) _)).weaken (by simp) (by simp)

theorem read24 (loc : Loc) (s : State) : Frame [] [] [] s (s.read24 loc).2 := withBus (.read24 loc s.bus)

/-- An instruction that assigns `PC` after an effect that leaves every register alone. -/
theorem next_setPC (h : Frame [] [] [] s u) (v : Word) :
    ∃ t, Host.Outcome.next (u.setPC v) = (.next t : Result) ∧ t.PC = v ∧ Frame [.PC] [] [] s t :=
  ⟨_, rfl, u.setPC_PC v, h.trans (.setPC v u)⟩

/-- An instruction that jumps to a 24-bit target after an effect that leaves every register alone. -/
theorem next_jumpLong (h : Frame [] [] [] s u) (a : Address) :
    ∃ t, Host.Outcome.next (u.jumpLong a) = (.next t : Result) ∧ t.PBR = bankOf a ∧ t.PC = offsetOf a ∧
      Frame [.PC, .PBR] [] [] s t :=
  ⟨_, rfl, u.jumpLong_PBR a, u.jumpLong_PC a, h.trans (.jumpLong a u)⟩

end Frame

end Sys2Proof.Machine
end

section
/-! Branches, jumps and returns: 44_control_flow.md R281 to R292, R295, R296. -/

namespace Sys2Proof.Machine

/-- A branch goes by the proposition its condition decides. -/
theorem branchIf_spec {cond : Bool} {taken : Prop} [Decidable taken] (h : cond = true ↔ taken) (r : Byte) (s : State) :
    ∃ t, branchIf cond r s = .next t ∧ t.PC = (if taken then s.PC + 2 + r.signExtend 16 else s.PC + 2) ∧
      Frame [.PC] [] [] s t := by
  simp only [← h]
  exact (Frame.refl s).next_setPC (if cond then s.rel8Target r else s.pcPlus 2)

/-- Settles O48: four of the conditional branches test their flag, the other four its negation. -/
theorem branchesAssignPC : Obligations.BranchesAssignPC := by
  intro s r long Goes Branch
  have onSet (f : Flag) := branchIf_spec (Iff.refl (s.flag f = true)) r s
  have onClear (f : Flag) := branchIf_spec (Bool.not_eq_true' (s.flag f)).to_iff r s
  exact ⟨onClear .c, onSet .c, onClear .z, onSet .z, onClear .n, onSet .n, onClear .v, onSet .v,
    (Frame.refl s).next_setPC (s.rel8Target r), (Frame.refl s).next_setPC (s.rel16Target long)⟩

/-- Settles O49: each jump assigns its target after at most the read of a pointer, which leaves every register alone. -/
theorem jumpsAssignPC : Obligations.JumpsAssignPC := by
  intro s a al
  rw [← State.rdX_eq]
  exact ⟨(Frame.refl s).next_setPC a, (Frame.read16 (.b0 a) s).next_setPC _,
    (Frame.read16 (.inBank s.PBR (a + s.rdX)) s).next_setPC _, (Frame.refl s).next_jumpLong al,
    (Frame.read24 (.b0 a) s).next_jumpLong _⟩

/-- Settles O51: RTL assigns `PC` between its two pulls, which keeps the slots, so its last pull ends at the third. -/
theorem returnsPullPC : Obligations.ReturnsPullPC := by
  intro s
  have hword : Frame [.PC, .SP] [] [] s (s.pull16.2.setPC (s.pull16.1 + 1)) :=
    ((Frame.pull16 s).trans (.setPC (s.pull16.1 + 1) _)).weaken (by simp) (by simp)
  refine ⟨⟨_, rfl, rfl, s.pull16_SP, hword⟩, ?_⟩
  have hslot : (s.pull16.2.setPC (s.pull16.1 + 1)).pullSlot 1 = s.pullSlot 3 :=
    s.pullSlot_add _ 2 (hword.e_eq (by simp)) s.pull16_SP 1
  have hlong := (hword.trans (.pull8 _)).trans (.setPBR s.pull16.2.pull8.1 _)
  exact ⟨_, rfl, rfl, rfl, hslot, hlong.weaken (by simp) (by simp)⟩

end Sys2Proof.Machine
end

section
/-! A word read at a location in a bank, from which `PC` is then assigned: what the history ends with, and what the word is where the block
holds its bytes (20_memory.md R75, R77). -/

namespace Sys2Proof.Machine.State

/-- Whatever changes nothing on the bus after a 16-bit read leaves that read the last two accesses. -/
theorem lastWordRead_read16 (loc : Loc) (s : State) {t : State} (hbus : t.bus = (s.read16 loc).2.bus) :
    LastWordRead loc (s.read16 loc).1 t :=
  ⟨_, _, _, _, _, congrArg Bus.events hbus, rfl⟩

/-- The bytes found at the location after the read are those it has read. -/
theorem read16_inBank_of_byteAt {bank lo hi : Byte} {off : Word} {s : State}
    (hlo : (s.read16 (.inBank bank off)).2.bus.byteAt (mkAddr bank off) = some lo)
    (hhi : (s.read16 (.inBank bank off)).2.bus.byteAt (mkAddr bank (off + 1)) = some hi) :
    (s.read16 (.inBank bank off)).1 = mkWord hi lo := by
  have hkeep (a : Address) : (s.read16 (.inBank bank off)).2.bus.byteAt a = s.bus.byteAt a :=
    (Bus.Frame.read16 (.inBank bank off) s.bus).bytes a (by simp)
  rw [hkeep] at hlo hhi
  exact Bus.read16_of_byteAt (by simpa [Loc.byte] using hlo) hhi

/-- A jump through a vector or pointer in a bank goes to the word that the last two accesses have read there. -/
theorem setPC_read16_inBank (bank : Byte) (off : Word) (s : State) :
    let t := (s.read16 (.inBank bank off)).2.setPC (s.read16 (.inBank bank off)).1
    LastWordRead (.inBank bank off) t.PC t ∧
      ∀ lo hi, t.bus.byteAt (mkAddr bank off) = some lo → t.bus.byteAt (mkAddr bank (off + 1)) = some hi → t.PC = mkWord hi lo :=
  ⟨s.lastWordRead_read16 (.inBank bank off) rfl, fun _ _ => read16_inBank_of_byteAt⟩

end Sys2Proof.Machine.State
end

section
/-! Status writes, and the instructions that only end, wait, stop or emit: 45_status_system.md R300 to R308, R310, R311, R317, R318. -/

namespace Sys2Proof.Machine

theorem finish_setFlag_spec (i : Instr) (f : Flag) (b : Bool) (s : State) :
    ∃ t, finish i s (s.setFlag f b) = .next t ∧ t.flag f = b ∧ FallsThrough i s t ∧ Frame [.PC] [f] [] s t :=
  ⟨_, rfl, by simp, (Frame.setFlag f b s).trans_advance (by simp) i⟩

/-- Settles O52: each is one flag write, and the other flags are other bits of `P`. -/
theorem flagInstructionsWriteOneFlag : Obligations.FlagInstructionsWriteOneFlag := by
  intro s
  exact ⟨finish_setFlag_spec .clc .c false s, finish_setFlag_spec .sec .c true s, finish_setFlag_spec .cli .i false s,
    finish_setFlag_spec .sei .i true s, finish_setFlag_spec .cld .d false s, finish_setFlag_spec .sed .d true s,
    finish_setFlag_spec .clv .v false s⟩

/-- An instruction that writes `P` and re-establishes the width invariants (10_state.md R36). -/
theorem finish_writeP_spec (i : Instr) (p : Byte) (s : State) :
    ∃ t, finish i s (s.writeP p) = .next t ∧ t.P = p ∧
      t.X = (if s.e || t.flag .x then zext16 (loByte s.X) else s.X) ∧ t.Y = (if s.e || t.flag .x then zext16 (loByte s.Y) else s.Y) ∧
      t.SP = (if s.e then mkWord 0x01 (loByte s.SP) else s.SP) ∧ FallsThrough i s t ∧
      Frame [.X, .Y, .SP, .PC] Flag.all [] s t :=
  ⟨_, rfl, s.writeP_P p, s.writeP_X p, s.writeP_Y p, s.writeP_SP p, (Frame.writeP p s).trans_advance (by simp) i⟩

/-- Settles O53: REP and SEP are one write of `P`, of the masked and of the united byte. -/
theorem repSepWriteStatus : Obligations.RepSepWriteStatus := by
  intro v s
  exact ⟨finish_writeP_spec (.rep v) (s.P &&& ~~~v) s, finish_writeP_spec (.sep v) (s.P ||| v) s⟩

theorem Frame.setRun (v : RunState) (s : State) : Frame [.run] [] [] s (s.setRun v) :=
  of_register (fun r hr => by
    cases r with
    | run => contradiction
    | _ => rfl) rfl rfl rfl

theorem finish_setRun_spec (i : Instr) (v : RunState) (s : State) :
    ∃ t, finish i s (s.setRun v) = .next t ∧ t.run = v ∧ FallsThrough i s t ∧ Frame [.run, .PC] [] [] s t :=
  ⟨_, rfl, rfl, (Frame.setRun v s).trans_advance (by simp) i⟩

/-- Settles O55: `CHAR_OUT` decides which event, if any, WDM puts on the history before it moves past itself. -/
theorem nopWdmWaiStp : Obligations.NopWdmWaiStp := by
  intro sig s
  refine ⟨⟨_, rfl, (Frame.refl s).trans_advance (by simp) .nop⟩, ?_, finish_setRun_spec .wai .waiting s,
    finish_setRun_spec .stp .stopped s⟩
  obtain ⟨A, X, Y, PC, PBR, DBR, DR, SP, P, e, run, bus, charOut⟩ := s
  cases charOut with
  | none => rfl
  | wdmOperand => rfl
  | wdmAccLow => rfl

end Sys2Proof.Machine
end

section
/-! Software interrupts and the return from them: 45_status_system.md R313 to R315, 60_exceptions.md R333, R338. -/

namespace Sys2Proof.Machine

/-- The bytes the entry of a software interrupt pushes, in order (60_exceptions.md R333, R334). -/
def SoftInt.frameBytes (k : SoftInt) (s : State) : List Byte :=
  (if s.e then [] else [s.PBR]) ++ pushBytes .w16 (s.pcPlus 2) ++ [k.pushedP s]

theorem SoftInt.length_frameBytes (k : SoftInt) (s : State) : (k.frameBytes s).length = if s.e then 3 else 4 := by
  simp only [frameBytes, pushBytes]
  cases s.e <;> rfl

theorem Frame.pushFrame (k : SoftInt) (s : State) : Frame [.SP] [] (s.pushed 0 (k.frameBytes s)) s (s.pushFrame k) :=
  of_withStack (s.pushFrame_spec k)

theorem State.pushFrame_SP (k : SoftInt) (s : State) : (s.pushFrame k).SP = s.pushSlot (k.frameBytes s).length := by
  obtain ⟨b, hb, -⟩ := s.pushFrame_spec k
  rw [hb, k.length_frameBytes]
  rfl

/-- The state in which a software interrupt reads its vector: all of its entry but the jump is done. -/
def State.atVector (k : SoftInt) (s : State) : State := (((s.pushFrame k).setFlag .i true).setFlag .d false).setPBR 0

theorem State.softInt_eq (k : SoftInt) (s : State) :
    s.softInt k = ((s.atVector k).read16 (.b0 (k.vector s.e))).2.setPC ((s.atVector k).read16 (.b0 (k.vector s.e))).1 := rfl

theorem State.atVector_SP (k : SoftInt) (s : State) : (s.atVector k).SP = s.pushSlot (k.frameBytes s).length := s.pushFrame_SP k

theorem State.atVector_flag_i (k : SoftInt) (s : State) : (s.atVector k).flag .i = true := by simp [atVector]

theorem State.atVector_flag_d (k : SoftInt) (s : State) : (s.atVector k).flag .d = false := by simp [atVector]

theorem Frame.atVector (k : SoftInt) (s : State) :
    Frame [.SP, .PBR] [.i, .d] (s.pushed 0 (k.frameBytes s)) s (s.atVector k) := by
  simpa [State.atVector] using (((Frame.pushFrame k s).trans_setFlag .i true).trans_setFlag .d false).trans (.setPBR 0 _)

/-- The vector is read after the pushes, so the jump ends the entry. -/
theorem softInt_enters (k : SoftInt) (s : State) :
    let vec := k.vector s.e
    ∃ t, Host.Outcome.next (s.softInt k) = (.next t : Result) ∧ t.SP = s.pushSlot (k.frameBytes s).length ∧ t.flag .i = true ∧
      t.flag .d = false ∧ t.PBR = 0 ∧ LastWordRead (.inBank 0 vec) t.PC t ∧
      (∀ lo hi, t.bus.byteAt (mkAddr 0 vec) = some lo → t.bus.byteAt (mkAddr 0 (vec + 1)) = some hi → t.PC = mkWord hi lo) ∧
      Frame [.SP, .PBR, .PC] [.i, .d] (s.pushed 0 (k.frameBytes s)) s t := by
  intro vec
  have hjump : Frame [.PC] [] [] (s.atVector k) (((s.atVector k).read16 (.b0 vec)).2.setPC ((s.atVector k).read16 (.b0 vec)).1) :=
    (Frame.read16 (.b0 vec) _).trans (.setPC _ _)
  have hsp := (hjump.SP_eq (by simp)).trans (s.atVector_SP k)
  have hi := (hjump.flags .i (by simp)).trans (s.atVector_flag_i k)
  have hd := (hjump.flags .d (by simp)).trans (s.atVector_flag_d k)
  obtain ⟨hread, hword⟩ := (s.atVector k).setPC_read16_inBank 0 vec
  exact ⟨_, congrArg Host.Outcome.next (s.softInt_eq k), hsp, hi, hd, rfl, hread, hword,
    by simpa using (Frame.atVector k s).trans hjump⟩

/-- Settles O56: the mode decides whether `PBR` is pushed, which copy of `P` is, and the vector. -/
theorem softwareInterruptEntry : Obligations.SoftwareInterruptEntry := by
  intro sig s ra Enters
  have hbrk := softInt_enters .brk s
  have hcop := softInt_enters .cop s
  refine ⟨fun he => ?_, fun he => ?_⟩ <;> simp only [SoftInt.frameBytes, SoftInt.pushedP, he] at hbrk hcop <;> exact ⟨hbrk, hcop⟩

/-- Settles O57: the pulls after `P <- Pull8() ; Normalize()` go on at the slots of the state before, so the whole is one write of `P`,
of the stack pointer, of `PC` and of `PBR`. -/
theorem rtiRestores : Obligations.RtiRestores := by
  intro s
  obtain ⟨b, hs, hb⟩ := s.returnFromInt_spec
  have hstack := (Frame.writeP s.pull8.1 s).trans (.withStack (s.pullSlot (if s.e then 3 else 4)) hb)
  have hframe := (hstack.trans (.setPC s.pull8.2.pull16.1 _)).trans
    (.setPBR (if s.e then s.PBR else s.pull8.2.pull16.2.pull8.1) _)
  exact ⟨_, congrArg Host.Outcome.next hs, rfl, rfl, rfl, rfl, rfl, rfl, hframe.weaken (by simp) (by simp)⟩

end Sys2Proof.Machine
end

section
/-! What every instruction keeps. The operations the meanings are made of come down to a few writes of a register, of a flag or of the bus;
a predicate that each of these keeps is kept by every instruction, and by a step when the reads of the fetch keep it too. -/

namespace Sys2Proof.Machine

/-- A predicate of the state that every elementary write keeps. -/
structure Kept (P : State → Prop) : Prop where
  setA {s : State} (v : Word) : P s → P (s.setA v)
  wrX {s : State} (v : Word) : P s → P (s.wrX v)
  wrY {s : State} (v : Word) : P s → P (s.wrY v)
  setDR {s : State} (v : Word) : P s → P (s.setDR v)
  setDBR {s : State} (v : Byte) : P s → P (s.setDBR v)
  setPBR {s : State} (v : Byte) : P s → P (s.setPBR v)
  setPC {s : State} (v : Word) : P s → P (s.setPC v)
  setSP {s : State} (v : Word) : P s → P (s.setSP v)
  setRun {s : State} (v : RunState) : P s → P (s.setRun v)
  /-- `x` is written through `writeP` and `setE`, which normalize. -/
  setFlag {s : State} (f : Flag) (b : Bool) (hf : f ≠ .x) : P s → P (s.setFlag f b)
  writeP {s : State} (v : Byte) : P s → P (s.writeP v)
  setE {s : State} (b : Bool) : P s → P (s.setE b)
  read8 {s : State} (a : Address) : P s → P (s.withBus (s.bus.read8 a).2)
  write8 {s : State} (a : Address) (v : Byte) : P s → P (s.withBus (s.bus.write8 a v))
  charOutEvent {s : State} (c : Byte) : P s → P (s.charOutEvent c)

namespace Kept

variable {P : State → Prop} (hP : Kept P) {s : State}
include hP

/-! ## The shared operations -/

theorem wrA (v : Word) (h : P s) : P (s.wrA v) := hP.setA _ h

theorem setNZ (v : Word) (w : Width) (h : P s) : P (s.setNZ v w) := hP.setFlag .n _ (by decide) (hP.setFlag .z _ (by decide) h)

theorem readByte (loc : Loc) (h : P s) : P (s.readByte loc).2 := hP.read8 _ h

theorem read16 (loc : Loc) (h : P s) : P (s.read16 loc).2 := hP.read8 _ (hP.read8 (loc.byte 0) h)

theorem read24 (loc : Loc) (h : P s) : P (s.read24 loc).2 := hP.read8 _ (hP.read16 loc h)

theorem readLoc (loc : Loc) (w : Width) (h : P s) : P (s.readLoc loc w).2 := by
  cases w with
  | w8 => exact hP.readByte loc h
  | w16 => exact hP.read16 loc h

theorem writeLoc (loc : Loc) (w : Width) (v : Word) (h : P s) : P (s.writeLoc loc w v) := by
  cases w with
  | w8 => exact hP.write8 _ _ h
  | w16 => exact hP.write8 _ _ (hP.write8 (loc.byte 0) (loByte v) h)

theorem push8 (v : Byte) (h : P s) : P (s.push8 v) := hP.setSP _ (hP.write8 _ v h)

theorem push16 (v : Word) (h : P s) : P (s.push16 v) := hP.push8 _ (hP.push8 _ h)

theorem push (w : Width) (v : Word) (h : P s) : P (s.push w v) := by
  cases w with
  | w8 => exact hP.push8 _ h
  | w16 => exact hP.push16 v h

theorem pull8 (h : P s) : P s.pull8.2 := hP.readByte _ (hP.setSP _ h)

theorem pull16 (h : P s) : P s.pull16.2 := hP.pull8 (hP.pull8 h)

theorem pull (w : Width) (h : P s) : P (s.pull w).2 := by
  cases w with
  | w8 => exact hP.pull8 h
  | w16 => exact hP.pull16 h

theorem ea (m : Mem) (h : P s) : P (s.ea m).2 := by
  cases m with
  | idp d | idpx d | idpy d | isry d => exact hP.read16 _ h
  | idl d | idly d => exact hP.read24 _ h
  | _ => exact h

theorem operand (o : Src) (w : Width) (h : P s) : P (s.operand o w).2 := by
  cases o with
  | imm v => exact h
  | mem m => exact hP.readLoc _ w (hP.ea m h)

theorem writeMem (m : Mem) (w : Width) (v : Word) (h : P s) : P (s.writeMem m w v) := hP.writeLoc _ w v (hP.ea m h)

theorem modifyMem (m : Mem) (w : Width) (g : Word → Word) (h : P s) : P (s.modifyMem m w g).2 :=
  hP.writeLoc _ w _ (hP.readLoc _ w (hP.ea m h))

theorem rmw (o : Rmw) (g : Word → Word) (h : P s) : P (s.rmw o g).2 := by
  cases o with
  | acc => exact hP.wrA _ h
  | mem m => exact hP.modifyMem m s.wm g h

theorem addA (sub : Bool) (o : Src) (h : P s) : P (s.addA sub o) :=
  hP.setNZ _ _ (hP.setFlag .v _ (by decide) (hP.setFlag .c _ (by decide) (hP.wrA _ (hP.operand o s.wm h))))

theorem logicA (f : Word → Word → Word) (o : Src) (h : P s) : P (s.logicA f o) := hP.setNZ _ _ (hP.wrA _ (hP.operand o s.wm h))

theorem compare (a : Word) (w : Width) (o : Src) (h : P s) : P (s.compare a w o) :=
  hP.setNZ _ _ (hP.setFlag .c _ (by decide) (hP.operand o w h))

theorem testAndModify (g : Word → Word → Word) (m : Mem) (h : P s) : P (s.testAndModify g m) :=
  hP.setFlag .z _ (by decide) (hP.modifyMem m s.wm _ h)

theorem modifyNZ (o : Rmw) (g : Word → Word) (h : P s) : P (s.modifyNZ o g) := hP.setNZ _ _ (hP.rmw o _ h)

theorem shift (o : Rmw) (g : Word → Word) (out : Word → Bool) (h : P s) : P (s.shift o g out) :=
  hP.setNZ _ _ (hP.setFlag .c _ (by decide) (hP.rmw o _ h))

theorem blockMove (dst src : Byte) (step : Word) (h : P s) : P (s.blockMove dst src step) :=
  hP.setA _ (hP.wrY _ (hP.wrX _ (hP.writeLoc _ .w8 _ (hP.readByte _ (hP.setDBR dst h)))))

theorem jumpLong (a : Address) (h : P s) : P (s.jumpLong a) := hP.setPC _ (hP.setPBR _ h)

theorem softInt (k : SoftInt) (h : P s) : P (s.softInt k) := by
  have hframe : P (s.pushFrame k) := by
    simp only [State.pushFrame]
    split
    · exact hP.push8 _ (hP.push16 _ h)
    · exact hP.push8 _ (hP.push16 _ (hP.push8 _ h))
  exact hP.setPC _ (hP.read16 _ (hP.setPBR 0 (hP.setFlag .d _ (by decide) (hP.setFlag .i _ (by decide) hframe))))

theorem returnFromInt (h : P s) : P s.returnFromInt := by
  have hpc := hP.setPC (s.pull8.2.writeP s.pull8.1).pull16.1 (hP.pull16 (hP.writeP s.pull8.1 (hP.pull8 h)))
  simp only [State.returnFromInt]
  split
  · exact hpc
  · exact hP.setPBR _ (hP.pull8 hpc)

end Kept

/-! ## The end of an instruction -/

/-- The outcome is a next state, and the predicate holds of it. -/
def CompletesWith (P : State → Prop) (r : Result) : Prop := ∃ t, r = .next t ∧ P t

namespace Kept

variable {P : State → Prop} (hP : Kept P) {s t : State}
include hP

theorem finish (i : Instr) (h : P t) : CompletesWith P (finish i s t) := ⟨_, rfl, hP.setPC _ h⟩

theorem finishPass (i : Instr) (h : P t) : CompletesWith P (finishPass i s t) := by
  simp only [Machine.finishPass]
  split
  · exact hP.finish i h
  · exact ⟨_, rfl, h⟩

theorem branchIf (taken : Bool) (r : Byte) (h : P s) : CompletesWith P (branchIf taken r s) := ⟨_, rfl, hP.setPC _ h⟩

theorem bit (o : Src) (h : P s) : CompletesWith P (exec (.bit o) s) := by
  have hz := hP.setFlag .z (s.rdA &&& (s.operand o s.wm).1 == 0) (by decide) (hP.operand o s.wm h)
  cases o with
  | imm v => exact hP.finish _ hz
  | mem m => exact hP.finish _ (hP.setFlag .v _ (by decide) (hP.setFlag .n _ (by decide) hz))

theorem wdm (sig : Byte) (h : P s) : CompletesWith P (exec (.wdm sig) s) := by
  refine hP.finish _ ?_
  split
  · exact h
  · exact hP.charOutEvent sig h
  · exact hP.charOutEvent _ h

theorem jmp (t : JmpTarget) (h : P s) : CompletesWith P (exec (.jmp t) s) := by
  cases t with
  | abs a => exact ⟨_, rfl, hP.setPC a h⟩
  | ind a | indx a => exact ⟨_, rfl, hP.setPC _ (hP.read16 _ h)⟩

theorem jml (t : JmlTarget) (h : P s) : CompletesWith P (exec (.jml t) s) := by
  cases t with
  | abl al => exact ⟨_, rfl, hP.jumpLong al h⟩
  | indl a => exact ⟨_, rfl, hP.jumpLong _ (hP.read24 _ h)⟩

theorem jsr (t : JsrTarget) (h : P s) : CompletesWith P (exec (.jsr t) s) := by
  have hpush := hP.push16 (s.pcPlus 2) h
  cases t with
  | abs a => exact ⟨_, rfl, hP.setPC a hpush⟩
  | indx a => exact ⟨_, rfl, hP.setPC _ (hP.read16 _ hpush)⟩

/-- Every instruction completes and keeps what every elementary write keeps: its meaning is a composition of the shared operations. -/
theorem exec (i : Instr) (h : P s) : CompletesWith P (exec i s) := by
  cases i with
  | lda o => exact hP.finish _ (hP.setNZ _ _ (hP.wrA _ (hP.operand o s.wm h)))
  | ldx o => exact hP.finish _ (hP.setNZ _ _ (hP.wrX _ (hP.operand o s.wx h)))
  | ldy o => exact hP.finish _ (hP.setNZ _ _ (hP.wrY _ (hP.operand o s.wx h)))
  | sta m | stz m => exact hP.finish _ (hP.writeMem m s.wm _ h)
  | stx m | sty m => exact hP.finish _ (hP.writeMem m s.wx _ h)
  | adc o | sbc o => exact hP.finish _ (hP.addA _ o h)
  | and o | ora o | eor o => exact hP.finish _ (hP.logicA _ o h)
  | cmp o | cpx o | cpy o => exact hP.finish _ (hP.compare _ _ o h)
  | bit o => exact hP.bit o h
  | tsb m | trb m => exact hP.finish _ (hP.testAndModify _ m h)
  | inc o | dec o => exact hP.finish _ (hP.modifyNZ o _ h)
  | asl o | lsr o | rol o | ror o => exact hP.finish _ (hP.shift o _ _ h)
  | inx | dex | tax | tyx | tsx => exact hP.finish _ (hP.setNZ _ _ (hP.wrX _ h))
  | iny | dey | tay | txy => exact hP.finish _ (hP.setNZ _ _ (hP.wrY _ h))
  | txa | tya => exact hP.finish _ (hP.setNZ _ _ (hP.wrA _ h))
  | txs | tcs => exact hP.finish _ (hP.setSP _ h)
  | tcd => exact hP.finish _ (hP.setNZ _ _ (hP.setDR _ h))
  | tdc | tsc | xba => exact hP.finish _ (hP.setNZ _ _ (hP.setA _ h))
  | pha | phx | phy => exact hP.finish _ (hP.push _ _ h)
  | php | phb | phk => exact hP.finish _ (hP.push8 _ h)
  | phd | pea v | per v => exact hP.finish _ (hP.push16 _ h)
  | pei d => exact hP.finish _ (hP.push16 _ (hP.read16 _ h))
  | pla => exact hP.finish _ (hP.setNZ _ _ (hP.wrA _ (hP.pull s.wm h)))
  | plx => exact hP.finish _ (hP.setNZ _ _ (hP.wrX _ (hP.pull s.wx h)))
  | ply => exact hP.finish _ (hP.setNZ _ _ (hP.wrY _ (hP.pull s.wx h)))
  | plp => exact hP.finish _ (hP.writeP _ (hP.pull8 h))
  | plb => exact hP.finish _ (hP.setNZ _ _ (hP.setDBR _ (hP.pull8 h)))
  | pld => exact hP.finish _ (hP.setNZ _ _ (hP.setDR _ (hP.pull16 h)))
  | mvn dst src | mvp dst src => exact hP.finishPass _ (hP.blockMove dst src _ h)
  | bcc r | bcs r | beq r | bne r | bmi r | bpl r | bvc r | bvs r => exact hP.branchIf _ r h
  | bra r | brl r => exact ⟨_, rfl, hP.setPC _ h⟩
  | jmp t => exact hP.jmp t h
  | jml t => exact hP.jml t h
  | jsr t => exact hP.jsr t h
  | jsl al => exact ⟨_, rfl, hP.jumpLong al (hP.push16 _ (hP.push8 _ h))⟩
  | rts => exact ⟨_, rfl, hP.setPC _ (hP.pull16 h)⟩
  | rtl => exact ⟨_, rfl, hP.setPBR _ (hP.pull8 (hP.setPC _ (hP.pull16 h)))⟩
  | clc | cli | cld | clv | sec | sei | sed => exact hP.finish _ (hP.setFlag _ _ (by decide) h)
  | rep v | sep v => exact hP.finish _ (hP.writeP _ h)
  | xce => exact hP.finish _ (hP.setE _ (hP.setFlag .c _ (by decide) h))
  | nop => exact hP.finish _ h
  | wdm sig => exact hP.wdm sig h
  | brk _ | cop _ => exact ⟨_, rfl, hP.softInt _ h⟩
  | rti => exact ⟨_, rfl, hP.returnFromInt h⟩
  | wai | stp => exact hP.finish _ (hP.setRun _ h)

/-! ## The step -/

theorem fetchBytes (n k : Nat) (h : P s) : P (s.fetchBytes n k).2 := by
  induction n generalizing k s with
  | zero => exact h
  | succ n ih => exact ih (k + 1) (hP.read8 (s.codeLoc.byte k) h)

theorem fetch (h : P s) : P s.fetch.2 := hP.fetchBytes _ 1 (hP.read8 (s.codeLoc.byte 0) h)

theorem step (h : P s) : CompletesWith P (step s) := by
  unfold Machine.step
  split
  · exact hP.exec _ (hP.fetch h)
  · exact ⟨s, rfl, h⟩
  · exact ⟨s, rfl, h⟩

theorem of_step (h : P s) (hstep : Machine.step s = .next t) : P t := by
  obtain ⟨t', ht', h'⟩ := hP.step h
  cases ht'.symm.trans hstep
  exact h'

end Kept

end Sys2Proof.Machine
end

section
/-! What a step keeps: the invariant of 10_state.md R23 and R35 with canonical contents, the configuration, and that it completes. -/

namespace Sys2Proof.Machine

/-! ## The invariant -/

theorem hiByte_trunc_wx {s : State} (hx : s.x8 = true) (v : Word) : hiByte (s.wx.trunc v) = 0 := by
  simp [State.wx, hx, Width.ofNarrow, Width.trunc]

theorem State.Inv.setSP {s : State} (v : Word) (h : s.Inv) : (s.setSP v).Inv :=
  ⟨h.index, fun he => by simp [show s.e = true from he], h.devices⟩

theorem State.Inv.setFlag {s : State} {f : Flag} (b : Bool) (hf : f ≠ .x) (h : s.Inv) : (s.setFlag f b).Inv := by
  refine ⟨fun hx => h.index ?_, h.stack, h.devices⟩
  simpa [hf, State.x8] using hx

/-- `Normalize` establishes what an instruction that writes `P` or `e` may have broken. -/
theorem State.normalize_inv {s : State} (h : s.DevicesWf) : s.normalize.Inv := by
  refine ⟨fun hx => ?_, fun he => ?_, h⟩
  · simp [show s.x8 = true from hx]
  · simp [show s.e = true from he]

theorem State.setE_inv {s : State} (b : Bool) (h : s.DevicesWf) : (s.setE b).Inv := by
  cases b with
  | true => exact State.normalize_inv h
  | false => exact State.normalize_inv h

theorem kept_inv : Kept State.Inv where
  setA _ h := ⟨h.index, h.stack, h.devices⟩
  wrX v h := ⟨fun hx => ⟨hiByte_trunc_wx hx v, (h.index hx).2⟩, h.stack, h.devices⟩
  wrY v h := ⟨fun hx => ⟨(h.index hx).1, hiByte_trunc_wx hx v⟩, h.stack, h.devices⟩
  setDR _ h := ⟨h.index, h.stack, h.devices⟩
  setDBR _ h := ⟨h.index, h.stack, h.devices⟩
  setPBR _ h := ⟨h.index, h.stack, h.devices⟩
  setPC _ h := ⟨h.index, h.stack, h.devices⟩
  setSP v h := h.setSP v
  setRun _ h := ⟨h.index, h.stack, h.devices⟩
  setFlag _ b hf h := h.setFlag b hf
  writeP _ h := State.normalize_inv h.devices
  setE b h := State.setE_inv b h.devices
  read8 _ h := ⟨h.index, h.stack, h.devices⟩
  write8 a v h := ⟨h.index, h.stack, Bus.write8_devicesWf a v _ h.devices⟩
  charOutEvent _ h := ⟨h.index, h.stack, h.devices⟩

/-- Settles O12: every elementary write keeps the invariant, those of `P` and `e` because they normalize. -/
theorem stepKeepsInvariant : Obligations.StepKeepsInvariant := fun _ _ hs hstep => kept_inv.of_step hs hstep

/-- Settles O11: no device of the reference configuration has an entry listed, and reset writes the stack pointer's page. -/
theorem resetSatisfiesInvariant : Obligations.ResetSatisfiesInvariant :=
  ⟨fun _ => ⟨rfl, rfl⟩, fun _ => rfl, State.reset_devicesWf (.reference 0x8000 []) rfl⟩

/-! ## The configuration -/

/-- The state `t` has the configuration of `s` and a history that goes on from that of `s`. -/
structure SameConfiguration (s t : State) : Prop where
  map : t.bus.map = s.bus.map
  shapes : t.bus.devices.map Device.shape = s.bus.devices.map Device.shape
  charOut : t.charOut = s.charOut
  history : ∃ evs, t.bus.events = evs ++ s.bus.events

theorem SameConfiguration.refl (s : State) : SameConfiguration s s := ⟨rfl, rfl, rfl, [], rfl⟩

theorem SameConfiguration.emit {s t : State} (ev : Event) (h : SameConfiguration s t) :
    SameConfiguration s (t.withBus (t.bus.emit ev)) := by
  obtain ⟨evs, hevs⟩ := h.history
  exact ⟨h.map, h.shapes, h.charOut, ev :: evs, congrArg (ev :: ·) hevs⟩

theorem SameConfiguration.write8 {s t : State} (a : Address) (v : Byte) (h : SameConfiguration s t) :
    SameConfiguration s (t.withBus (t.bus.write8 a v)) := by
  obtain ⟨evs, hevs⟩ := h.history
  exact ⟨h.map, (Bus.write8_shapes a v t.bus).trans h.shapes, h.charOut, _ :: evs, congrArg (_ :: ·) hevs⟩

/-- A write of registers and flags alone. -/
theorem SameConfiguration.registers {s t u : State} (hbus : u.bus = t.bus) (hchar : u.charOut = t.charOut) (h : SameConfiguration s t) :
    SameConfiguration s u :=
  ⟨hbus ▸ h.map, hbus ▸ h.shapes, hchar ▸ h.charOut, hbus ▸ h.history⟩

theorem kept_sameConfiguration (s : State) : Kept (SameConfiguration s) where
  setA _ := .registers rfl rfl
  wrX _ := .registers rfl rfl
  wrY _ := .registers rfl rfl
  setDR _ := .registers rfl rfl
  setDBR _ := .registers rfl rfl
  setPBR _ := .registers rfl rfl
  setPC _ := .registers rfl rfl
  setSP _ := .registers rfl rfl
  setRun _ := .registers rfl rfl
  setFlag _ _ _ := .registers rfl rfl
  writeP _ := .registers rfl rfl
  setE b := .registers (State.setE_bus b _) (State.setE_charOut b _)
  read8 _ := .emit _
  write8 a v := .write8 a v
  charOutEvent c := .emit (.charOut c)

/-- Settles O14: every elementary write leaves the configuration, and an access or a character only adds its event. -/
theorem stepKeepsConfiguration : Obligations.StepKeepsConfiguration := by
  intro s t hstep
  obtain ⟨hmap, hshapes, hchar, hevs⟩ := (kept_sameConfiguration s).of_step (.refl s) hstep
  exact ⟨hmap, hshapes, hchar, hevs⟩

/-! ## Completion -/

theorem step_of_not_running {s : State} (h : s.run ≠ .running) : step s = .next s := by
  unfold step
  split
  · contradiction
  · rfl
  · rfl

/-- Settles O13: the meaning of every instruction is a composition that ends in a next state, and a halted step takes none. -/
theorem stepCompletes : Obligations.StepCompletes := by
  intro s
  obtain ⟨t, ht, -⟩ := (kept_sameConfiguration s).step (.refl s)
  exact ⟨⟨t, ht⟩, step_of_not_running⟩

end Sys2Proof.Machine
end

section
/-! Decoding and encoding (30_encoding.md R100 to R107). An instruction is its form, which the opcode names, filled with operand bytes:
`Instr.fill` is that second half, so that the two tables have to be compared once, form by form. -/

namespace Sys2Proof

/-! ## Filling a form with operand bytes -/

/-- The operands a list of operand bytes gives the opcode map. -/
def operandsOf (m8 x8 : Bool) (bs : List Byte) : Operands := { m8, x8, b1 := bs.getD 0 0, b2 := bs.getD 1 0, b3 := bs.getD 2 0 }

/-- The operand bytes, as many as an instruction can have. -/
def Operands.bytes (o : Operands) : List Byte := [o.b1, o.b2, o.b3]

/-- The memory form, with these operands. -/
def Mem.fill (o : Operands) : Mem → Mem
  | .dp _ => .dp o.b1
  | .dpx _ => .dpx o.b1
  | .dpy _ => .dpy o.b1
  | .idp _ => .idp o.b1
  | .idpx _ => .idpx o.b1
  | .idpy _ => .idpy o.b1
  | .idl _ => .idl o.b1
  | .idly _ => .idly o.b1
  | .abs _ => .abs o.word
  | .absx _ => .absx o.word
  | .absy _ => .absy o.word
  | .abl _ => .abl o.long
  | .ablx _ => .ablx o.long
  | .sr _ => .sr o.b1
  | .isry _ => .isry o.b1

/-- The read operand, with these operands; `v` is the immediate they hold. -/
def Src.fill (o : Operands) (v : Word) : Src → Src
  | .imm _ => .imm v
  | .mem m => .mem (m.fill o)

def Rmw.fill (o : Operands) : Rmw → Rmw
  | .acc => .acc
  | .mem m => .mem (m.fill o)

def JmpTarget.fill (o : Operands) : JmpTarget → JmpTarget
  | .abs _ => .abs o.word
  | .ind _ => .ind o.word
  | .indx _ => .indx o.word

def JmlTarget.fill (o : Operands) : JmlTarget → JmlTarget
  | .abl _ => .abl o.long
  | .indl _ => .indl o.word

def JsrTarget.fill (o : Operands) : JsrTarget → JsrTarget
  | .abs _ => .abs o.word
  | .indx _ => .indx o.word

/-- The instruction in the same form with these operands. -/
def Instr.fill (o : Operands) : Instr → Instr
  | .lda s => .lda (s.fill o o.immM)
  | .adc s => .adc (s.fill o o.immM)
  | .sbc s => .sbc (s.fill o o.immM)
  | .and s => .and (s.fill o o.immM)
  | .ora s => .ora (s.fill o o.immM)
  | .eor s => .eor (s.fill o o.immM)
  | .cmp s => .cmp (s.fill o o.immM)
  | .bit s => .bit (s.fill o o.immM)
  | .ldx s => .ldx (s.fill o o.immX)
  | .ldy s => .ldy (s.fill o o.immX)
  | .cpx s => .cpx (s.fill o o.immX)
  | .cpy s => .cpy (s.fill o o.immX)
  | .sta m => .sta (m.fill o)
  | .stx m => .stx (m.fill o)
  | .sty m => .sty (m.fill o)
  | .stz m => .stz (m.fill o)
  | .tsb m => .tsb (m.fill o)
  | .trb m => .trb (m.fill o)
  | .inc r => .inc (r.fill o)
  | .dec r => .dec (r.fill o)
  | .asl r => .asl (r.fill o)
  | .lsr r => .lsr (r.fill o)
  | .rol r => .rol (r.fill o)
  | .ror r => .ror (r.fill o)
  | .pea _ => .pea o.word
  | .pei _ => .pei o.b1
  | .per _ => .per o.word
  | .mvn _ _ => .mvn o.b1 o.b2
  | .mvp _ _ => .mvp o.b1 o.b2
  | .bcc _ => .bcc o.b1
  | .bcs _ => .bcs o.b1
  | .beq _ => .beq o.b1
  | .bne _ => .bne o.b1
  | .bmi _ => .bmi o.b1
  | .bpl _ => .bpl o.b1
  | .bvc _ => .bvc o.b1
  | .bvs _ => .bvs o.b1
  | .bra _ => .bra o.b1
  | .brl _ => .brl o.word
  | .jmp t => .jmp (t.fill o)
  | .jml t => .jml (t.fill o)
  | .jsr t => .jsr (t.fill o)
  | .jsl _ => .jsl o.long
  | .rep _ => .rep o.b1
  | .sep _ => .sep o.b1
  | .wdm _ => .wdm o.b1
  | .brk _ => .brk o.b1
  | .cop _ => .cop o.b1
  | i => i

/-! ## What filling keeps -/

@[simp] theorem Mem.fill_format (o : Operands) (m : Mem) : (m.fill o).format = m.format := by cases m <;> rfl

@[simp] theorem Src.fill_format (o : Operands) (v : Word) (f : Format) (s : Src) : (s.fill o v).format f = s.format f := by
  cases s with
  | imm _ => rfl
  | mem m => exact m.fill_format o

@[simp] theorem Rmw.fill_format (o : Operands) (r : Rmw) : (r.fill o).format = r.format := by
  cases r with
  | acc => rfl
  | mem m => exact m.fill_format o

@[simp] theorem Instr.fill_format (o : Operands) (i : Instr) : (i.fill o).format = i.format := by
  cases i with
  | lda s | adc s | sbc s | and s | ora s | eor s | cmp s | bit s | ldx s | ldy s | cpx s | cpy s => exact s.fill_format o _ _
  | sta m | stx m | sty m | stz m | tsb m | trb m => exact m.fill_format o
  | inc r | dec r | asl r | lsr r | rol r | ror r => exact r.fill_format o
  | jmp t => cases t <;> rfl
  | jml t => cases t <;> rfl
  | jsr t => cases t <;> rfl
  | _ => rfl

@[simp] theorem Instr.fill_opcodes (o : Operands) (i : Instr) : (i.fill o).opcodes = i.opcodes := by cases i <;> rfl

@[simp] theorem Instr.fill_forms (o : Operands) (i : Instr) : (i.fill o).forms = i.forms := by cases i <;> rfl

@[simp] theorem Instr.fill_opcode (o : Operands) (i : Instr) : (i.fill o).opcode = i.opcode := by simp [opcode]

@[simp] theorem Instr.fill_formOk (o : Operands) (i : Instr) : (i.fill o).formOk = i.formOk := by simp [formOk]

@[simp] theorem Instr.fill_len (o : Operands) (i : Instr) (m8 x8 : Bool) : (i.fill o).len m8 x8 = i.len m8 x8 := by simp [len]

/-! ## The operand bytes of a filled form -/

theorem Operands.wordBytes_word (o : Operands) : wordBytes o.word = [o.b1, o.b2] := by simp [wordBytes, word]

theorem Operands.longBytes_long (o : Operands) : longBytes o.long = [o.b1, o.b2, o.b3] := by simp [longBytes, wordBytes, long, mkLong]

theorem Operands.immBytes_immM (o : Operands) : immBytes o.m8 o.immM = o.bytes.take (Format.immm.len o.m8 o.x8 - 1) := by
  cases h : o.m8 <;> simp [immBytes, immM, h, Format.len, bytes, wordBytes_word]

theorem Operands.immBytes_immX (o : Operands) : immBytes o.x8 o.immX = o.bytes.take (Format.immx.len o.m8 o.x8 - 1) := by
  cases h : o.x8 <;> simp [immBytes, immX, h, Format.len, bytes, wordBytes_word]

theorem Mem.fill_operandBytes (o : Operands) (m : Mem) :
    (m.fill o).operandBytes = o.bytes.take (m.format.len o.m8 o.x8 - 1) := by
  cases m with
  | abs _ | absx _ | absy _ => exact o.wordBytes_word
  | abl _ | ablx _ => exact o.longBytes_long
  | _ => rfl

theorem Src.fill_operandBytes_immm (o : Operands) (s : Src) :
    (s.fill o o.immM).operandBytes o.m8 = o.bytes.take ((s.format .immm).len o.m8 o.x8 - 1) := by
  cases s with
  | imm _ => exact o.immBytes_immM
  | mem m => exact m.fill_operandBytes o

theorem Src.fill_operandBytes_immx (o : Operands) (s : Src) :
    (s.fill o o.immX).operandBytes o.x8 = o.bytes.take ((s.format .immx).len o.m8 o.x8 - 1) := by
  cases s with
  | imm _ => exact o.immBytes_immX
  | mem m => exact m.fill_operandBytes o

theorem Rmw.fill_operandBytes (o : Operands) (r : Rmw) :
    (r.fill o).operandBytes = o.bytes.take (r.format.len o.m8 o.x8 - 1) := by
  cases r with
  | acc => rfl
  | mem m => exact m.fill_operandBytes o

/-- A filled form is encoded with the operand bytes it was filled with, as many as its length asks for. -/
theorem Instr.fill_operandBytes (o : Operands) (i : Instr) :
    (i.fill o).operandBytes o.m8 o.x8 = o.bytes.take (i.len o.m8 o.x8 - 1) := by
  cases i with
  | lda s | adc s | sbc s | and s | ora s | eor s | cmp s | bit s => exact s.fill_operandBytes_immm o
  | ldx s | ldy s | cpx s | cpy s => exact s.fill_operandBytes_immx o
  | sta m | stx m | sty m | stz m | tsb m | trb m => exact m.fill_operandBytes o
  | inc r | dec r | asl r | lsr r | rol r | ror r => exact r.fill_operandBytes o
  | pea _ | per _ | brl _ => exact o.wordBytes_word
  | jsl _ => exact o.longBytes_long
  | jmp t => cases t <;> exact o.wordBytes_word
  | jsr t => cases t <;> exact o.wordBytes_word
  | jml t =>
    cases t with
    | abl _ => exact o.longBytes_long
    | indl _ => exact o.wordBytes_word
  | _ => rfl

/-! ## The immediate of a filled form -/

theorem Operands.immM_fits (o : Operands) : o.m8 = true → hiByte o.immM = 0 := by
  intro h
  simp [immM, h]

theorem Operands.immX_fits (o : Operands) : o.x8 = true → hiByte o.immX = 0 := by
  intro h
  simp [immX, h]

/-- What `immediateOk` asks of a read operand whose immediate is narrow under the predicate. -/
def Src.Fits (narrow : Bool) (s : Src) : Prop := ∀ v, s = .imm v → narrow = true → hiByte v = 0

theorem Src.fill_fits {o : Operands} {v : Word} {narrow : Bool} (hv : narrow = true → hiByte v = 0) (s : Src) :
    (s.fill o v).Fits narrow := by
  cases s with
  | imm _ =>
    rintro _ ⟨⟩
    exact hv
  | mem m => exact fun _ h => nomatch h

/-- The immediate an instruction has fits the width that decides its length. -/
def Instr.ImmediateFits (m8 x8 : Bool) : Instr → Prop
  | .lda s | .adc s | .sbc s | .and s | .ora s | .eor s | .cmp s | .bit s => s.Fits m8
  | .ldx s | .ldy s | .cpx s | .cpy s => s.Fits x8
  | _ => True

theorem Instr.immediateOk_iff (m8 x8 : Bool) (i : Instr) : i.immediateOk m8 x8 = true ↔ i.ImmediateFits m8 x8 := by
  cases i with
  | lda s | adc s | sbc s | and s | ora s | eor s | cmp s | bit s =>
    cases s <;> cases m8 <;>
      simp [immediateOk, immediate, Src.immediate, ImmediateFits, Src.Fits, len, format, Src.format, Format.len]
  | ldx s | ldy s | cpx s | cpy s =>
    cases s <;> cases x8 <;>
      simp [immediateOk, immediate, Src.immediate, ImmediateFits, Src.Fits, len, format, Src.format, Format.len]
  | _ => exact iff_of_true rfl trivial

theorem Instr.fill_immediateFits (o : Operands) (i : Instr) : (i.fill o).ImmediateFits o.m8 o.x8 := by
  cases i with
  | lda s | adc s | sbc s | and s | ora s | eor s | cmp s | bit s => exact s.fill_fits o.immM_fits
  | ldx s | ldy s | cpx s | cpy s => exact s.fill_fits o.immX_fits
  | _ => trivial

/-! ## Filling a form with its own operand bytes -/

theorem word_operandsOf (m8 x8 : Bool) (v : Word) : (operandsOf m8 x8 (wordBytes v)).word = v := mkWord_hi_lo v

theorem long_operandsOf (m8 x8 : Bool) (a : Address) : (operandsOf m8 x8 (longBytes a)).long = a := by
  simp [operandsOf, longBytes, wordBytes, Operands.long, mkLong]

theorem imm_operandsOf {narrow : Bool} {v : Word} (hv : narrow = true → hiByte v = 0) {o : Operands}
    (h1 : o.b1 = loByte v) (h2 : narrow = false → o.b2 = hiByte v) : (if narrow then zext16 o.b1 else o.word) = v := by
  cases narrow with
  | true => simpa [h1] using zext16_loByte_of_hiByte v (hv rfl)
  | false => simp [Operands.word, h1, h2 rfl]

theorem immM_operandsOf {m8 : Bool} (x8 : Bool) {v : Word} (hv : m8 = true → hiByte v = 0) :
    (operandsOf m8 x8 (immBytes m8 v)).immM = v := by
  refine imm_operandsOf hv ?_ ?_
  · cases m8 <;> rfl
  · rintro rfl
    rfl

theorem immX_operandsOf (m8 : Bool) {x8 : Bool} {v : Word} (hv : x8 = true → hiByte v = 0) :
    (operandsOf m8 x8 (immBytes x8 v)).immX = v := by
  refine imm_operandsOf hv ?_ ?_
  · cases x8 <;> rfl
  · rintro rfl
    rfl

theorem Mem.fill_operandsOf (m8 x8 : Bool) (m : Mem) : m.fill (operandsOf m8 x8 m.operandBytes) = m := by
  cases m with
  | abs a | absx a | absy a => exact congrArg _ (word_operandsOf m8 x8 a)
  | abl a | ablx a => exact congrArg _ (long_operandsOf m8 x8 a)
  | _ => rfl

theorem Src.fill_operandsOf_immM {m8 : Bool} (x8 : Bool) {s : Src} (h : s.Fits m8) :
    s.fill (operandsOf m8 x8 (s.operandBytes m8)) (operandsOf m8 x8 (s.operandBytes m8)).immM = s := by
  cases s with
  | imm v => exact congrArg _ (immM_operandsOf x8 (h v rfl))
  | mem m => exact congrArg _ (m.fill_operandsOf m8 x8)

theorem Src.fill_operandsOf_immX (m8 : Bool) {x8 : Bool} {s : Src} (h : s.Fits x8) :
    s.fill (operandsOf m8 x8 (s.operandBytes x8)) (operandsOf m8 x8 (s.operandBytes x8)).immX = s := by
  cases s with
  | imm v => exact congrArg _ (immX_operandsOf m8 (h v rfl))
  | mem m => exact congrArg _ (m.fill_operandsOf m8 x8)

theorem Rmw.fill_operandsOf (m8 x8 : Bool) (r : Rmw) : r.fill (operandsOf m8 x8 r.operandBytes) = r := by
  cases r with
  | acc => rfl
  | mem m => exact congrArg _ (m.fill_operandsOf m8 x8)

theorem Instr.fill_operandsOf {m8 x8 : Bool} {i : Instr} (h : i.ImmediateFits m8 x8) :
    i.fill (operandsOf m8 x8 (i.operandBytes m8 x8)) = i := by
  cases i with
  | lda s | adc s | sbc s | and s | ora s | eor s | cmp s | bit s => exact congrArg _ (Src.fill_operandsOf_immM x8 h)
  | ldx s | ldy s | cpx s | cpy s => exact congrArg _ (Src.fill_operandsOf_immX m8 h)
  | sta m | stx m | sty m | stz m | tsb m | trb m => exact congrArg _ (m.fill_operandsOf m8 x8)
  | inc r | dec r | asl r | lsr r | rol r | ror r => exact congrArg _ (r.fill_operandsOf m8 x8)
  | pea v | per v | brl v => exact congrArg _ (word_operandsOf m8 x8 v)
  | jsl a => exact congrArg _ (long_operandsOf m8 x8 a)
  | jmp t => cases t <;> exact congrArg Instr.jmp (congrArg _ (word_operandsOf m8 x8 _))
  | jsr t => cases t <;> exact congrArg Instr.jsr (congrArg _ (word_operandsOf m8 x8 _))
  | jml t =>
    cases t with
    | abl a => exact congrArg Instr.jml (congrArg _ (long_operandsOf m8 x8 a))
    | indl a => exact congrArg Instr.jml (congrArg _ (word_operandsOf m8 x8 a))
  | _ => rfl

/-! ## The two tables -/

/-- What the map by mnemonic gives as the opcode of a form, the map by opcode reads as that form. -/
theorem decodeOp_of_opcode {i : Instr} {op : Byte} (h : i.opcode = some op) (o : Operands) : decodeOp op o = i.fill o := by
  cases i with
  | lda s | adc s | sbc s | and s | ora s | eor s | cmp s | bit s | ldx s | ldy s | cpx s | cpy s =>
    cases s with
    | imm v => cases h; rfl
    | mem m => cases m <;> cases h <;> rfl
  | sta m | stx m | sty m | stz m | tsb m | trb m => cases m <;> cases h <;> rfl
  | inc r | dec r | asl r | lsr r | rol r | ror r =>
    cases r with
    | acc => cases h; rfl
    | mem m => cases m <;> cases h <;> rfl
  | jmp t => cases t <;> cases h <;> rfl
  | jml t => cases t <;> cases h <;> rfl
  | jsr t => cases t <;> cases h <;> rfl
  | _ => cases h; rfl

/-- Every opcode is that of an instruction in one of its forms (R106). -/
theorem exists_opcode (op : Byte) : ∃ i : Instr, i.opcode = some op ∧ i.formOk = true := by
  have h : ∀ op : Byte, (decodeOp op (.none true true)).opcode = some op ∧ (decodeOp op (.none true true)).formOk = true := by
    decide +kernel
  exact ⟨_, h op⟩

theorem Format.len_bounds (f : Format) (m8 x8 : Bool) : 1 ≤ f.len m8 x8 ∧ f.len m8 x8 ≤ 4 := by
  cases f <;> cases m8 <;> cases x8 <;> decide

theorem opLen_of_opcode {i : Instr} {op : Byte} (h : i.opcode = some op) (m8 x8 : Bool) : opLen op m8 x8 = i.len m8 x8 := by
  rw [opLen, decodeOp_of_opcode h, Instr.fill_len]

theorem decodeBytes_of_opcode {i : Instr} {op : Byte} (h : i.opcode = some op) (m8 x8 : Bool) (bs : List Byte) :
    decodeBytes m8 x8 op bs = i.fill (operandsOf m8 x8 bs) := decodeOp_of_opcode h _

/-! ## Decoding what is encoded -/

theorem encode_of_opcode {i : Instr} {op : Byte} (h : i.opcode = some op) (m8 x8 : Bool) :
    encode m8 x8 i = op :: i.operandBytes m8 x8 := by
  simp only [encode, h]

theorem Instr.length_operandBytes {m8 x8 : Bool} {i : Instr} (h : i.ImmediateFits m8 x8) :
    (i.operandBytes m8 x8).length = i.len m8 x8 - 1 := by
  have hbytes := i.fill_operandBytes (operandsOf m8 x8 (i.operandBytes m8 x8))
  rw [i.fill_operandsOf h] at hbytes
  have hlen := congrArg List.length hbytes
  have hbounds := i.format.len_bounds m8 x8
  simp only [operandsOf, Operands.bytes, List.length_take, List.length_cons, List.length_nil, len] at hlen hbounds ⊢
  omega

/-- Settles O18: the decoder finds the form by its opcode, and the form's own operand bytes fill it with what it held. -/
theorem decodeInvertsEncode : Obligations.DecodeInvertsEncode := by
  intro m8 x8 i rest hwf
  obtain ⟨hform, himm⟩ : i.formOk = true ∧ i.immediateOk m8 x8 = true := by simpa [Instr.wf] using hwf
  rw [Instr.immediateOk_iff] at himm
  obtain ⟨op, hop⟩ := Option.isSome_iff_exists.mp (i.opcode_isSome hform)
  have hlen : (i.operandBytes m8 x8).length = opLen op m8 x8 - 1 := by
    rw [i.length_operandBytes himm, opLen_of_opcode hop]
  rw [encode_of_opcode hop, decode_cons_append m8 x8 op _ rest hlen, decodeBytes_of_opcode hop, i.fill_operandsOf himm]

/-! ## Encoding what is decoded -/

/-- What the decoder answers, and from which bytes. -/
theorem decode_eq_ok {m8 x8 : Bool} {bytes rest : List Byte} {i : Instr} (h : decode m8 x8 bytes = .ok (i, rest)) :
    ∃ op bs, bytes = op :: (bs ++ rest) ∧ bs.length = opLen op m8 x8 - 1 ∧ i = decodeBytes m8 x8 op bs := by
  cases bytes with
  | nil => simp [decode] at h
  | cons op tail =>
    simp only [decode] at h
    split at h
    · simp at h
    · rename_i hlong
      simp only [Except.ok.injEq, Prod.mk.injEq] at h
      obtain ⟨rfl, rfl⟩ := h
      refine ⟨op, tail.take (opLen op m8 x8 - 1), ?_, ?_, rfl⟩
      · rw [List.take_append_drop]
      · rw [List.length_take]
        omega

/-- The operands read from at most three bytes hold those bytes. -/
theorem operandsOf_bytes_take (m8 x8 : Bool) {bs : List Byte} (h : bs.length ≤ 3) : (operandsOf m8 x8 bs).bytes.take bs.length = bs := by
  match bs, h with
  | [], _ => rfl
  | [_], _ => rfl
  | [_, _], _ => rfl
  | [_, _, _], _ => rfl

/-- Settles O19: the opcode is that of some instruction in one of its forms, and the decoder has filled that form with the bytes. -/
theorem encodeInvertsDecode : Obligations.EncodeInvertsDecode := by
  intro m8 x8 bytes rest i hdecode
  obtain ⟨op, bs, rfl, hlen, rfl⟩ := decode_eq_ok hdecode
  obtain ⟨j, hop, hform⟩ := exists_opcode op
  have hbounds := j.format.len_bounds m8 x8
  rw [opLen_of_opcode hop, Instr.len] at hlen
  rw [decodeBytes_of_opcode hop]
  constructor
  · simp only [Instr.wf, Instr.fill_formOk, hform, Bool.true_and, Instr.immediateOk_iff]
    exact j.fill_immediateFits (operandsOf m8 x8 bs)
  · have hfilled : (j.fill (operandsOf m8 x8 bs)).operandBytes m8 x8 = bs := by
      have htake := operandsOf_bytes_take m8 x8 (bs := bs) (by omega)
      rw [hlen] at htake
      exact (j.fill_operandBytes (operandsOf m8 x8 bs)).trans htake
    rw [encode_of_opcode (by rw [Instr.fill_opcode]; exact hop), hfilled, List.cons_append]

/-! ## Lengths -/

theorem Format.len_m8_ne_iff (f : Format) (x : Bool) : f.len true x ≠ f.len false x ↔ f = .immm := by
  cases f <;> simp [len]

theorem Format.len_x8_ne_iff (f : Format) (m : Bool) : f.len m true ≠ f.len m false ↔ f = .immx := by
  cases f <;> simp [len]

/-- The format of an opcode byte. -/
def opFormat (op : Byte) : Format := (decodeOp op (.none true true)).format

theorem opLen_eq (op : Byte) (m8 x8 : Bool) : opLen op m8 x8 = (opFormat op).len m8 x8 := by
  obtain ⟨i, hop, -⟩ := exists_opcode op
  rw [opLen_of_opcode hop, opFormat, decodeOp_of_opcode hop, Instr.fill_format, Instr.len]

theorem opFormat_eq_immm_iff :
    ∀ op : Byte, opFormat op = .immm ↔ op ∈ ([0x09, 0x29, 0x49, 0x69, 0x89, 0xA9, 0xC9, 0xE9] : List Byte) := by decide +kernel

theorem opFormat_eq_immx_iff : ∀ op : Byte, opFormat op = .immx ↔ op ∈ ([0xA0, 0xA2, 0xC0, 0xE0] : List Byte) := by decide +kernel

theorem opLen_bounds (op : Byte) (m8 x8 : Bool) : 1 ≤ opLen op m8 x8 ∧ opLen op m8 x8 ≤ 4 := by
  rw [opLen_eq]
  exact Format.len_bounds _ m8 x8

/-- Settles O20: the length of an opcode is that of its format, and only `IMMM` and `IMMX` look at a width. -/
theorem opcodeLengths : Obligations.OpcodeLengths := by
  refine ⟨fun op x => ?_, fun op m => ?_, opLen_bounds, fun op b1 b2 b3 m8 x8 => ?_⟩
  · rw [opLen_eq, opLen_eq, Format.len_m8_ne_iff, opFormat_eq_immm_iff]
  · rw [opLen_eq, opLen_eq, Format.len_x8_ne_iff, opFormat_eq_immx_iff]
  · obtain ⟨i, hop, -⟩ := exists_opcode op
    have hbounds := opLen_bounds op m8 x8
    refine ⟨_, _, if_neg ?_, ?_⟩
    · simp only [List.length_cons, List.length_nil]
      omega
    · rw [decodeBytes_of_opcode hop, Instr.fill_len, opLen_of_opcode hop]

/-- Settles O21, word by word. -/
theorem sampleWordsDecode : Obligations.SampleWordsDecode :=
  ⟨rfl, rfl, rfl, rfl, rfl, rfl, rfl, rfl, rfl⟩

end Sys2Proof
end

section
/-! Devices and the mapper: 20_memory.md R62 to R65 and R78. -/

namespace Sys2Proof

/-- Settles O4: a RAM is its list of contents, of which the laws of reading and writing are known. -/
theorem deviceContents : Obligations.DeviceContents :=
  ⟨fun _ cells o v _ => cells.read_write_same o v, fun _ cells o p v _ hp => cells.read_write_other o p v hp,
    fun _ _ _ _ => rfl, fun _ _ _ _ => rfl, fun _ _ _ _ => rfl, fun _ _ => rfl⟩

namespace Bus

/-- Settles O3: there is no device to read from or to store in. -/
theorem unmappedAccess : Obligations.UnmappedAccess := by
  intro b a ha
  have hread : (b.read8 a).1 = b.valueAt .unmapped := congrArg b.valueAt ha
  have hwrite (v : Byte) : (b.write8 a v).devices = storeDevices b.devices v .unmapped := congrArg (storeDevices b.devices v) ha
  exact ⟨hread, rfl, hwrite⟩

/-! ## The first matching row -/

theorem covers_eq_false {r : MapRow} {a : Nat} (h : ¬ (r.first ≤ a ∧ a ≤ r.last)) : r.covers a = false := by
  rwa [← MapRow.covers_iff, Bool.not_eq_true] at h

/-- The first row that covers an address decides what it resolves to. -/
theorem resolveIn_first {ds : List Device} {a : Nat} {before after : List MapRow} {row : MapRow} {d : Device}
    (hbefore : ∀ r ∈ before, r.covers a = false) (hrow : row.covers a = true) (hd : ds[row.dev]? = some d) :
    resolveIn ds a (before ++ row :: after) = .mapped row.dev (row.offset d.size a) := by
  rw [resolveIn_append ds a before _ hbefore]
  simp only [resolveIn, hrow, if_true, hd]

/-- An address that no row covers is unmapped. -/
theorem resolveIn_none {ds : List Device} {a : Nat} {rows : List MapRow} (h : ∀ r ∈ rows, r.covers a = false) :
    resolveIn ds a rows = .unmapped := by
  have happ := resolveIn_append ds a rows [] h
  rwa [List.append_nil] at happ

/-- The offset of the LoROM function: the bank without its top bit and the low fifteen bits of the address. -/
theorem loRom_raw (first : Nat) (a : Address) :
    Xlate.loRom.raw first a.toNat = ((a.extractLsb' 16 7 ++ a.extractLsb' 0 15 : BitVec 22)).toNat := by
  have hlow : a.toNat % 0x8000 < 2 ^ 15 := Nat.mod_lt _ (by decide)
  rw [BitVec.toNat_append, ← Nat.shiftLeft_add_eq_or_of_lt (by simpa using hlow)]
  simp [Xlate.raw, Nat.shiftLeft_eq, Nat.shiftRight_eq_div_pow]

/-- Settles O5: the rows before are passed over, and the row's function of the address is the one named. -/
theorem firstMatchingRow : Obligations.FirstMatchingRow := by
  intro b a
  refine ⟨fun before after row d hmap hbefore hfirst hlast hd => ?_, fun hnone => ?_⟩
  · have hraw := resolveIn_first (after := after) (fun r hr => covers_eq_false (hbefore r hr))
      ((MapRow.covers_iff row a.toNat).mpr ⟨hfirst, hlast⟩) hd
    rw [← hmap] at hraw
    rw [resolve, hraw, MapRow.offset]
    cases row.xlate with
    | rel base => rfl
    | mask k => rfl
    | loRom => rw [loRom_raw]
  · exact resolveIn_none (fun r hr => covers_eq_false (hnone r hr))

end Bus
end Sys2Proof
end

section
/-! The reference map: 20_memory.md R78. Each of its rows lies in one bank but the first, which is two banks long; which row covers an
address is decided by its bank and offset. -/

namespace Sys2Proof

namespace Config

/-! ## The rows -/

def wramRow : MapRow := { first := 0x7E0000, last := 0x7FFFFF, dev := wram, xlate := .rel 0 }

def mirrorRow (b : Nat) : MapRow := { first := b * 0x10000, last := b * 0x10000 + 0x1FFF, dev := wram, xlate := .mask 0x001FFF }

def ioRow (b : Nat) : MapRow :=
  { first := b * 0x10000 + 0x2000, last := b * 0x10000 + 0x5FFF, dev := io, xlate := .mask 0x00FFFF }

def cartRow (b : Nat) : MapRow := { first := b * 0x10000 + 0x8000, last := b * 0x10000 + 0xFFFF, dev := cart, xlate := .loRom }

theorem mem_lowBanks {b : Nat} : b ∈ lowBanks ↔ b < 0x100 ∧ b % 0x80 < 0x40 := by
  simp only [lowBanks, List.mem_append, List.mem_range, List.mem_map]
  constructor
  · rintro (h | ⟨k, hk, rfl⟩) <;> omega
  · rintro ⟨h, hlow⟩
    by_cases hb : b < 0x40
    · exact .inl hb
    · exact .inr ⟨b - 0x80, by omega, by omega⟩

theorem mem_romBanks {b : Nat} : b ∈ romBanks ↔ b < 0x100 ∧ b ≠ 0x7E ∧ b ≠ 0x7F := by
  simp only [romBanks, List.mem_append, List.mem_range, List.mem_map]
  constructor
  · rintro (h | ⟨k, hk, rfl⟩) <;> omega
  · rintro ⟨h, hE, hF⟩
    by_cases hb : b < 0x7E
    · exact .inl hb
    · exact .inr ⟨b - 0x80, by omega, by omega⟩

theorem mem_mapRef {r : MapRow} :
    r ∈ mapRef ↔ r = wramRow ∨ (∃ b ∈ lowBanks, r = mirrorRow b) ∨ (∃ b ∈ lowBanks, r = ioRow b) ∨ ∃ b ∈ romBanks, r = cartRow b := by
  simp only [mapRef, List.mem_cons, List.mem_append, List.mem_map, or_assoc, eq_comm (a := r)]
  rfl

/-! ## Rows of different devices are disjoint -/

theorem disjointRows_iff {r q : MapRow} : Bus.disjointRows r q = true ↔ r.dev = q.dev ∨ r.last < q.first ∨ q.last < r.first := by
  simp [Bus.disjointRows, or_assoc]

theorem mapDisjoint_of_forall {rows : List MapRow} (h : ∀ r ∈ rows, ∀ q ∈ rows, Bus.disjointRows r q = true) :
    Bus.mapDisjoint rows = true := by
  induction rows with
  | nil => rfl
  | cons r rest ih =>
    simp only [Bus.mapDisjoint, Bool.and_eq_true, List.all_eq_true]
    exact ⟨fun q hq => h r (by simp) q (by simp [hq]), ih (fun r hr q hq => h r (by simp [hr]) q (by simp [hq]))⟩

theorem disjointRows_mapRef {r q : MapRow} (hr : r ∈ mapRef) (hq : q ∈ mapRef) : Bus.disjointRows r q = true := by
  rw [mem_mapRef] at hr hq
  simp only [mem_lowBanks, mem_romBanks] at hr hq
  rw [disjointRows_iff]
  obtain rfl | ⟨b, hb, rfl⟩ | ⟨b, hb, rfl⟩ | ⟨b, hb, rfl⟩ := hr <;>
    obtain rfl | ⟨c, hc, rfl⟩ | ⟨c, hc, rfl⟩ | ⟨c, hc, rfl⟩ := hq <;>
    simp only [wramRow, mirrorRow, ioRow, cartRow, wram, io, cart, true_or] <;> omega

/-! ## Which row covers an address -/

/-- The row of the map that covers offset `off` of bank `bank`, if any does. -/
def coveringRow (bank off : Nat) : Option MapRow :=
  if bank = 0x7E ∨ bank = 0x7F then some wramRow
  else if 0x8000 ≤ off then some (cartRow bank)
  else if bank % 0x80 < 0x40 then
    if off < 0x2000 then some (mirrorRow bank) else if off < 0x6000 then some (ioRow bank) else none
  else none

theorem coveringRow_of_covers {bank off : Nat} (hoff : off < 0x10000) {r : MapRow} (hr : r ∈ mapRef)
    (hcov : r.covers (bank * 0x10000 + off) = true) : coveringRow bank off = some r := by
  rw [MapRow.covers_iff] at hcov
  simp only [mem_mapRef, mem_lowBanks, mem_romBanks] at hr
  obtain rfl | ⟨b, hb, rfl⟩ | ⟨b, hb, rfl⟩ | ⟨b, hb, rfl⟩ := hr
  · simp only [wramRow] at hcov
    rw [coveringRow, if_pos (by omega)]
  · simp only [mirrorRow] at hcov
    obtain rfl : b = bank := by omega
    rw [coveringRow, if_neg (by omega), if_neg (by omega), if_pos hb.2, if_pos (by omega)]
  · simp only [ioRow] at hcov
    obtain rfl : b = bank := by omega
    rw [coveringRow, if_neg (by omega), if_neg (by omega), if_pos hb.2, if_neg (by omega), if_pos (by omega)]
  · simp only [cartRow] at hcov
    obtain rfl : b = bank := by omega
    rw [coveringRow, if_neg (by omega), if_pos (by omega)]

theorem covers_of_coveringRow {bank off : Nat} (hbank : bank < 0x100) (hoff : off < 0x10000) {r : MapRow}
    (h : coveringRow bank off = some r) : r ∈ mapRef ∧ r.covers (bank * 0x10000 + off) = true := by
  simp only [mem_mapRef, mem_lowBanks, mem_romBanks, MapRow.covers_iff]
  unfold coveringRow at h
  split at h
  · cases h
    exact ⟨.inl rfl, by simp only [wramRow]; omega⟩
  split at h
  · cases h
    exact ⟨.inr (.inr (.inr ⟨bank, by omega, rfl⟩)), by simp only [cartRow]; omega⟩
  split at h
  · split at h
    · cases h
      exact ⟨.inr (.inl ⟨bank, by omega, rfl⟩), by simp only [mirrorRow]; omega⟩
    split at h
    · cases h
      exact ⟨.inr (.inr (.inl ⟨bank, by omega, rfl⟩)), by simp only [ioRow]; omega⟩
    · cases h
  · cases h

end Config

namespace Bus

/-- Where one row of the list alone covers an address, the address resolves by that row. -/
theorem resolveIn_only {ds : List Device} {a : Nat} {rows : List MapRow} {row : MapRow} {d : Device} (hrow : row ∈ rows)
    (hcov : row.covers a = true) (honly : ∀ r ∈ rows, r.covers a = true → r = row) (hd : ds[row.dev]? = some d) :
    resolveIn ds a rows = .mapped row.dev (row.offset d.size a) := by
  induction rows with
  | nil => simp at hrow
  | cons r rest ih =>
    by_cases hr : r.covers a = true
    · obtain rfl := honly r (by simp) hr
      exact resolveIn_first (before := []) (by simp) hr hd
    · have hrest : row ∈ rest := by
        rcases List.mem_cons.mp hrow with rfl | h
        · contradiction
        · exact h
      simp only [resolveIn, hr]
      exact ih hrest (fun q hq => honly q (by simp [hq]))

theorem toNat_eq_bank_offset (a : Address) : a.toNat = (bankOf a).toNat * 0x10000 + (offsetOf a).toNat := by
  have h := congrArg BitVec.toNat (mkAddr_bank_offset a)
  rw [mkAddr, BitVec.toNat_append, ← Nat.shiftLeft_add_eq_or_of_lt (offsetOf a).isLt, Nat.shiftLeft_eq] at h
  exact h.symm

/-- An address of the reference map that a row covers. -/
theorem reference_resolve {size : Nat} {image : Memory} {a : Address} {row : MapRow} {d : Device}
    (h : Config.coveringRow (bankOf a).toNat (offsetOf a).toNat = some row)
    (hd : (Config.devicesRef size image)[row.dev]? = some d) :
    (reference size image).resolve a = .mapped row.dev (row.offset d.size ((bankOf a).toNat * 0x10000 + (offsetOf a).toNat)) := by
  obtain ⟨hmem, hcov⟩ := Config.covers_of_coveringRow (bankOf a).isLt (offsetOf a).isLt h
  rw [resolve, toNat_eq_bank_offset]
  refine resolveIn_only hmem hcov (fun r hr hr' => ?_) hd
  exact Option.some.inj ((Config.coveringRow_of_covers (offsetOf a).isLt hr hr').symm.trans h)

/-- An address of the reference map that no row covers. -/
theorem reference_resolve_none {size : Nat} {image : Memory} {a : Address}
    (h : Config.coveringRow (bankOf a).toNat (offsetOf a).toNat = none) : (reference size image).resolve a = .unmapped := by
  rw [resolve, toNat_eq_bank_offset]
  refine resolveIn_none (fun r hr => ?_)
  rw [← Bool.not_eq_true]
  intro hr'
  cases h.symm.trans (Config.coveringRow_of_covers (offsetOf a).isLt hr hr')

/-! ## The offset each row gives -/

theorem offset_wramRow {a : Nat} (ha : a < 0x800000) : Config.wramRow.offset 0x20000 a = a - 0x7E0000 := by
  simp only [MapRow.offset, Config.wramRow, Xlate.raw]
  omega

theorem offset_mirrorRow {b bank off : Nat} (hoff : off < 0x2000) :
    (Config.mirrorRow b).offset 0x20000 (bank * 0x10000 + off) = off := by
  simp only [MapRow.offset, Config.mirrorRow, Xlate.raw, show 0x1FFF = 2 ^ 13 - 1 from rfl, Nat.and_two_pow_sub_one_eq_mod]
  omega

theorem offset_ioRow {b bank off : Nat} (hoff : off < 0x10000) :
    (Config.ioRow b).offset (2 ^ 24) (bank * 0x10000 + off) = off := by
  simp only [MapRow.offset, Config.ioRow, Xlate.raw, show 0xFFFF = 2 ^ 16 - 1 from rfl, Nat.and_two_pow_sub_one_eq_mod]
  omega

theorem offset_cartRow {b bank off size : Nat} (hoff : 0x8000 ≤ off) (hoff' : off < 0x10000) :
    (Config.cartRow b).offset size (bank * 0x10000 + off) = (bank % 0x80 * 0x8000 + (off - 0x8000)) % size := by
  have hbank : (bank * 0x10000 + off) / 0x10000 = bank := by omega
  have hlow : (bank * 0x10000 + off) % 0x8000 = off - 0x8000 := by omega
  simp only [MapRow.offset, Config.cartRow, Xlate.raw, hbank, hlow]

/-- Settles O6: bank and offset decide which row covers the address, and the row its offset in the device. -/
theorem referenceMapResolves : Obligations.ReferenceMapResolves := by
  intro size image a b bank off
  have hoff : off < 0x10000 := (offsetOf a).isLt
  refine ⟨Config.mapDisjoint_of_forall fun r hr q hq => Config.disjointRows_mapRef hr hq, fun hbank => ?_, fun hlow h => ?_,
    fun hlow h h' => ?_, fun hE hF h => ?_, fun hlow h h' => ?_, fun hhigh hE hF h => ?_⟩
  · have hrow : Config.coveringRow bank off = some Config.wramRow := if_pos hbank
    rw [toNat_eq_bank_offset]
    exact (reference_resolve hrow rfl).trans (congrArg _ (offset_wramRow (by omega)))
  · have hrow : Config.coveringRow bank off = some (Config.mirrorRow bank) := by
      rw [Config.coveringRow, if_neg (by omega), if_neg (by omega), if_pos hlow, if_pos h]
    exact (reference_resolve hrow rfl).trans (congrArg _ (offset_mirrorRow h))
  · have hrow : Config.coveringRow bank off = some (Config.ioRow bank) := by
      rw [Config.coveringRow, if_neg (by omega), if_neg (by omega), if_pos hlow, if_neg (by omega), if_pos h']
    exact (reference_resolve hrow rfl).trans (congrArg _ (offset_ioRow hoff))
  · have hrow : Config.coveringRow bank off = some (Config.cartRow bank) := by
      rw [Config.coveringRow, if_neg (by omega), if_pos h]
    exact (reference_resolve hrow rfl).trans (congrArg _ (offset_cartRow h hoff))
  · refine reference_resolve_none ?_
    rw [Config.coveringRow, if_neg (by omega), if_neg (by omega), if_pos hlow, if_neg (by omega), if_neg (by omega)]
  · refine reference_resolve_none ?_
    rw [Config.coveringRow, if_neg (by omega), if_neg (by omega), if_neg (by omega)]

end Bus
end Sys2Proof
end

section
/-! What a stretch of reads leaves: the bus with a longer history and nothing else (20_memory.md R66, R68, R77). -/

namespace Sys2Proof

/-! ## Stretches of history, the newest event first -/

@[simp] theorem readsOf_append (evs evs' : List Event) : readsOf (evs ++ evs') = readsOf evs' ++ readsOf evs := by
  simp only [readsOf, List.reverse_append, List.filterMap_append]

@[simp] theorem writesOf_append (evs evs' : List Event) : writesOf (evs ++ evs') = writesOf evs' ++ writesOf evs := by
  simp only [writesOf, List.reverse_append, List.filterMap_append]

@[simp] theorem charsOf_append (evs evs' : List Event) : charsOf (evs ++ evs') = charsOf evs' ++ charsOf evs := by
  simp only [charsOf, List.reverse_append, List.filterMap_append]

namespace Bus

/-- From `b` to `b'` the bytes `reads` are read, in that order, and nothing else happens; each is the byte that the block itself holds at
the address, if it holds one. -/
structure ReadsOnly (reads : List (Address × Byte)) (b b' : Bus) : Prop where
  bus : ∃ evs, b' = { b with events := evs ++ b.events } ∧ writesOf evs = [] ∧ charsOf evs = [] ∧ readsOf evs = reads
  values : ∀ p ∈ reads, ∀ v, b.byteAt p.1 = some v → p.2 = v

namespace ReadsOnly

variable {reads reads' : List (Address × Byte)} {b b1 b2 : Bus}

theorem refl (b : Bus) : b.ReadsOnly [] b := ⟨⟨[], rfl, rfl, rfl, rfl⟩, by simp⟩

theorem read8 (a : Address) (b : Bus) : b.ReadsOnly [(a, (b.read8 a).1)] (b.read8 a).2 :=
  ⟨⟨[_], rfl, rfl, rfl, rfl⟩, by simpa using fun v => read8_of_byteAt⟩

theorem byteAt (h : b.ReadsOnly reads b1) (a : Address) : b1.byteAt a = b.byteAt a := by
  obtain ⟨evs, rfl, -⟩ := h.bus
  rfl

theorem trans (h : b.ReadsOnly reads b1) (h' : b1.ReadsOnly reads' b2) : b.ReadsOnly (reads ++ reads') b2 where
  bus := by
    obtain ⟨evs, rfl, hw, hc, hr⟩ := h.bus
    obtain ⟨evs', rfl, hw', hc', hr'⟩ := h'.bus
    exact ⟨evs' ++ evs, by simp, by simp [hw, hw'], by simp [hc, hc'], by simp [hr, hr']⟩
  values p hp v hv := by
    rcases List.mem_append.mp hp with hp | hp
    · exact h.values p hp v hv
    · exact h'.values p hp v (by rw [h.byteAt, hv])

theorem read16 (loc : Loc) (b : Bus) : ∃ v0 v1, b.ReadsOnly [(loc.byte 0, v0), (loc.byte 1, v1)] (b.read16 loc).2 :=
  ⟨_, _, (read8 (loc.byte 0) b).trans (read8 (loc.byte 1) _)⟩

theorem read24 (loc : Loc) (b : Bus) :
    ∃ v0 v1 v2, b.ReadsOnly [(loc.byte 0, v0), (loc.byte 1, v1), (loc.byte 2, v2)] (b.read24 loc).2 :=
  ⟨_, _, _, ((read8 (loc.byte 0) b).trans (read8 (loc.byte 1) _)).trans (read8 (loc.byte 2) _)⟩

end ReadsOnly

/-! ## Accesses of several bytes -/

theorem loByte_offsetOf (v : Address) : loByte (offsetOf v) = v.extractLsb' 0 8 := by
  apply BitVec.eq_of_getLsbD_eq
  intro i hi
  simp [loByte, offsetOf, hi]

theorem hiByte_offsetOf (v : Address) : hiByte (offsetOf v) = v.extractLsb' 8 8 := by
  apply BitVec.eq_of_getLsbD_eq
  intro i hi
  simp [hiByte, offsetOf, hi]

/-- Settles O8: the wider accesses are their single-byte accesses one after the other, and what each does composes. -/
theorem multiByteAccess : Obligations.MultiByteAccess := by
  refine ⟨fun a k => rfl, fun bank off k => rfl, fun b loc => ⟨fun v0 v1 h0 h1 => ?_, ?_, ?_, fun v => Frame.write16 loc v b, fun v => ?_⟩⟩
  · exact ⟨read16_of_byteAt h0 h1, fun v2 h2 => read24_of_byteAt h0 h1 h2⟩
  · obtain ⟨v0, v1, hreads⟩ := ReadsOnly.read16 loc b
    obtain ⟨evs, hbus, hw, -, hr⟩ := hreads.bus
    exact ⟨evs, hbus, hw, congrArg (List.map Prod.fst) hr⟩
  · obtain ⟨v0, v1, v2, hreads⟩ := ReadsOnly.read24 loc b
    obtain ⟨evs, hbus, hw, -, hr⟩ := hreads.bus
    exact ⟨evs, hbus, hw, congrArg (List.map Prod.fst) hr⟩
  · rw [← loByte_offsetOf, ← hiByte_offsetOf]
    exact Frame.write24 loc v b

end Bus

/-! ## Reset -/

namespace Bus

theorem resetEvents_eq (dev : Nat) (ds : List Device) (h : List Event) :
    ∃ evs, resetEvents dev ds h = evs ++ h ∧ readsOf evs = [] ∧ writesOf evs = [] ∧ charsOf evs = [] := by
  induction ds generalizing dev h with
  | nil => exact ⟨[], rfl, rfl, rfl, rfl⟩
  | cons d rest ih =>
    obtain ⟨evs, hevs, hr, hw, hc⟩ := ih (dev + 1) (.deviceReset dev :: h)
    refine ⟨evs ++ [.deviceReset dev], by simp [resetEvents, hevs], ?_, ?_, ?_⟩
    · rw [readsOf_append, hr]
      rfl
    · rw [writesOf_append, hw]
      rfl
    · rw [charsOf_append, hc]
      rfl

theorem byteAt_reset_of_isRam {b : Bus} {a : Address} (h : b.reset.isRam a = true) : b.reset.byteAt a = some 0x00 := by
  obtain ⟨dev, off, size, cells, ht, hd⟩ := isRam_iff.mp h
  rw [byteAt_ram ht hd]
  obtain ⟨d, -, hreset⟩ := List.mem_map.mp (List.mem_of_getElem? (show (b.devices.map Device.reset)[dev]? = _ from hd))
  cases d <;> cases hreset
  rfl

end Bus

namespace Machine

/-- Settles O10: the vector is read after the devices have been reset, and the reads change no byte. -/
theorem resetState : Obligations.ResetState := by
  intro charOut bus t
  obtain ⟨lo, hi, hreads⟩ := Bus.ReadsOnly.read16 (.b0 Config.vecReset) bus.reset
  have hframe : bus.reset.Frame [] t.bus := .read16 (.b0 Config.vecReset) bus.reset
  have hbyte (a : Address) : t.bus.byteAt a = bus.reset.byteAt a := hreads.byteAt a
  refine ⟨rfl, rfl, rfl, rfl, rfl, rfl, rfl, rfl, rfl, rfl, rfl, rfl, rfl, fun lo hi hlo hhi => ?_, fun a ha => ?_, ?_⟩
  · rw [hbyte] at hlo hhi
    exact Bus.read16_of_byteAt hlo hhi
  · rw [hbyte]
    rw [hframe.isRam] at ha
    exact Bus.byteAt_reset_of_isRam ha
  · obtain ⟨evs, hbus, hw, hc, hr⟩ := hreads.bus
    obtain ⟨evs', hevs', hr', hw', hc'⟩ := Bus.resetEvents_eq 0 bus.devices bus.events
    refine ⟨evs ++ evs', ?_, by simp [hr, hr', Loc.b0, Loc.byte, mkAddr, Config.vecReset], by simp [hw, hw'], by simp [hc, hc']⟩
    rw [List.append_assoc, ← hevs']
    exact congrArg Bus.events hbus

/-! ## The stack -/

namespace State

theorem pull8_of_byteAt {s : State} {v : Byte} (h : s.bus.byteAt (mkAddr 0 (s.pullSlot 1)) = some v) : s.pull8.1 = v :=
  Bus.read8_of_byteAt (by simpa [Loc.b0, Loc.byte, pullSlot] using h)

theorem pull16_of_byteAt {s : State} {lo hi : Byte} (hlo : s.bus.byteAt (mkAddr 0 (s.pullSlot 1)) = some lo)
    (hhi : s.bus.byteAt (mkAddr 0 (s.pullSlot 2)) = some hi) : s.pull16.1 = mkWord hi lo := by
  obtain ⟨b, hs, hb⟩ := s.pull8_spec
  have hslot : s.pull8.2.pullSlot 1 = s.pullSlot 2 := pullSlot_add s s.pull8.2 1 rfl s.pull8_SP 1
  have hhi' : s.pull8.2.pull8.1 = hi := by
    refine pull8_of_byteAt ?_
    rw [hslot, hs, withStack_bus, hb.bytes _ (by simp), hhi]
  show mkWord s.pull8.2.pull8.1 s.pull8.1 = _
  rw [hhi', pull8_of_byteAt hlo]

theorem pushSlot_native {s : State} (he : s.e = false) (k : Nat) : s.pushSlot k = s.SP - BitVec.ofNat 16 k := by
  induction k with
  | zero => simp
  | succ k ih =>
    simp only [pushSlot, he, ih, Bool.false_eq_true, if_false, BitVec.ofNat_add]
    bv_omega

theorem pullSlot_native {s : State} (he : s.e = false) (k : Nat) : s.pullSlot k = s.SP + BitVec.ofNat 16 k := by
  induction k with
  | zero => simp
  | succ k ih =>
    simp only [pullSlot, he, ih, Bool.false_eq_true, if_false, BitVec.ofNat_add]
    bv_omega

end State

/-- Settles O9: the slots are those a push or pull finds at the stack pointer it starts from. -/
theorem stackPrimitives : Obligations.StackPrimitives := by
  intro s
  refine ⟨fun v => ⟨.push8 v s, s.push8_SP v⟩, fun v => ⟨.push16 v s, s.push16_SP v⟩,
    ⟨.pull8 s, s.pull8_SP, fun v => State.pull8_of_byteAt⟩, ⟨.pull16 s, s.pull16_SP, fun lo hi => State.pull16_of_byteAt⟩,
    fun he k => ?_, fun he k => ⟨State.pushSlot_native he k, State.pullSlot_native he k⟩⟩
  simp [State.pushSlot, State.pullSlot, he, Config.spEmuHigh]

end Machine
end Sys2Proof
end

section
/-! Fetching an instruction: 40_addressing_modes.md R130. -/

namespace Sys2Proof.Machine

namespace State

/-- The addresses and values of instruction bytes from byte `k` on. -/
def codeReads (bank : Byte) (pc : Word) : Nat → List Byte → List (Address × Byte)
  | _, [] => []
  | k, v :: vs => (mkAddr bank (pc + BitVec.ofNat 16 k), v) :: codeReads bank pc (k + 1) vs

theorem codeReads_eq_zipWith (bank : Byte) (pc : Word) (k : Nat) (vs : List Byte) :
    codeReads bank pc k vs = (List.range' k vs.length).zipWith (fun j v => (mkAddr bank (pc + BitVec.ofNat 16 j), v)) vs := by
  induction vs generalizing k with
  | nil => rfl
  | cons v vs ih => simp only [codeReads, List.length_cons, List.range'_succ, List.zipWith_cons_cons, ih]

/-- Fetching reads the bytes it answers and changes nothing else. -/
theorem fetchBytes_reads (n k : Nat) (s : State) :
    ∃ b, (s.fetchBytes n k).2 = s.withBus b ∧ s.bus.ReadsOnly (codeReads s.PBR s.PC k (s.fetchBytes n k).1) b := by
  induction n generalizing k s with
  | zero => exact ⟨s.bus, rfl, .refl s.bus⟩
  | succ n ih =>
    obtain ⟨b, hs, hb⟩ := ih (k + 1) (s.fetchByte k).2
    exact ⟨b, hs, (Bus.ReadsOnly.read8 (s.codeLoc.byte k) s.bus).trans hb⟩

theorem getElem?_codeReads (bank : Byte) (pc : Word) (k : Nat) {j : Nat} {vs : List Byte} (h : j < vs.length) :
    ∃ v, vs[j]? = some v ∧ (mkAddr bank (pc + BitVec.ofNat 16 (k + j)), v) ∈ codeReads bank pc k vs := by
  induction vs generalizing k j with
  | nil => simp at h
  | cons v vs ih =>
    cases j with
    | zero => exact ⟨v, rfl, by simp [codeReads]⟩
    | succ j =>
      obtain ⟨w, hw, hmem⟩ := ih (k + 1) (by simpa using h)
      exact ⟨w, hw, by rw [show k + (j + 1) = k + 1 + j by omega]; exact List.mem_cons_of_mem _ hmem⟩

/-- The fetch takes as many bytes as the opcode asks for, so it is the instruction those bytes decode to. -/
theorem fetch_of_decode {s : State} {n : Nat} {i : Instr} (h : decode s.m8 s.x8 (s.fetchBytes n 0).1 = .ok (i, [])) :
    s.fetch = (i, (s.fetchBytes n 0).2) := by
  obtain ⟨op, bs, hbytes, hlen, rfl⟩ := decode_eq_ok h
  cases n with
  | zero => cases hbytes
  | succ n =>
    simp only [fetchBytes_succ, List.append_nil, List.cons.injEq] at hbytes
    obtain ⟨rfl, rfl⟩ := hbytes
    rw [fetchBytes_length] at hlen
    rw [fetchBytes_succ, fetch, ← hlen]

end State

/-- Settles O22: the bytes fetched are those read, and a step in a running state is the instruction they decode to. -/
theorem stepRunsDecodedInstruction : Obligations.StepRunsDecodedInstruction := by
  intro s n i hrun
  obtain ⟨b, hs, hreads⟩ := s.fetchBytes_reads n 0
  refine ⟨⟨⟨State.fetchBytes_length n 0 s, ?_⟩, fun k hk v hv => ?_⟩, fun hdecode => ?_⟩
  · obtain ⟨evs, hbus, hw, hc, hr⟩ := hreads.bus
    refine ⟨evs, by rw [hs, hbus]; rfl, hw, hc, ?_⟩
    rw [hr, State.codeReads_eq_zipWith, State.fetchBytes_length, List.range_eq_range']
  · obtain ⟨w, hw, hmem⟩ := State.getElem?_codeReads s.PBR s.PC 0 (vs := (s.fetchBytes n 0).1) (by simpa using hk)
    exact hw.trans (congrArg some (hreads.values _ hmem v (by simpa using hv)))
  · simp only [step, hrun, State.fetch_of_decode hdecode]

end Sys2Proof.Machine
end

section
/-! Locations read through a pointer, operands and read-modify-write: 40_addressing_modes.md R132, R145 to R149, R161, R163, and
20_memory.md R77. -/

namespace Sys2Proof.Machine

/-- Settles O17: `e` is read by the index values alone. -/
theorem emulationChangesNoAddress : Obligations.EmulationChangesNoAddress := by
  intro m s b hx hy
  cases m with
  | absx a | ablx a => simp only [State.ea, hx]
  | absy a => simp only [State.ea, hy]
  | dpx d | idpx d =>
    simp only [State.ea, hx]
    rfl
  | dpy d | idpy d | idly d | isry d =>
    simp only [State.ea, hy]
    rfl
  | _ => rfl

theorem Frame.ea (m : Mem) (s : State) : Frame [] [] [] s (s.ea m).2 := by
  obtain ⟨b, hs, hb⟩ := s.ea_spec m
  rw [hs]
  exact .withBus hb

/-- Settles O24: a pointer of bytes that the block holds is read as their little-endian value, and the location is made from it. -/
theorem addressesThroughPointer : Obligations.AddressesThroughPointer := by
  intro s d x y at0
  have hx : s.rdX = x := s.rdX_eq
  have hy : s.rdY = y := s.rdY_eq
  have word {off : Word} {lo hi : Byte} (h0 : at0 off 0 = some lo) (h1 : at0 off 1 = some hi) :
      (s.read16 (.b0 off)).1 = hi ++ lo := Bus.read16_of_byteAt h0 h1
  have long {off : Word} {lo hi bank : Byte} (h0 : at0 off 0 = some lo) (h1 : at0 off 1 = some hi) (h2 : at0 off 2 = some bank) :
      (s.read24 (.b0 off)).1 = bank ++ (hi ++ lo) := Bus.read24_of_byteAt h0 h1 h2
  rw [← hx, ← hy]
  refine ⟨fun lo hi h0 h1 => ⟨?_, ?_, fun bank h2 => ⟨?_, ?_⟩⟩, fun lo hi h0 h1 => ?_, fun lo hi h0 h1 => ?_, fun m => .ea m s⟩
  · exact congrArg (fun p => Loc.lin (mkAddr s.DBR p)) (word h0 h1)
  · exact congrArg (fun p => Loc.lin (State.indexed (mkAddr s.DBR p) s.rdY)) (word h0 h1)
  · exact congrArg Loc.lin (long h0 h1 h2)
  · exact congrArg (fun p => Loc.lin (State.indexed p s.rdY)) (long h0 h1 h2)
  · exact congrArg (fun p => Loc.lin (mkAddr s.DBR p)) (word h0 h1)
  · exact congrArg (fun p => Loc.lin (State.indexed (mkAddr s.DBR p) s.rdY)) (word h0 h1)

/-- Settles O25: the pointer reads of the form leave every byte as it was, so the operand is what stands at the location before them. -/
theorem operandValue : Obligations.OperandValue := by
  intro s w
  refine ⟨fun v => rfl, fun m lo hlo => ?_, fun o => .operand o w s⟩
  have hbyte (a : Address) : (s.ea m).2.bus.byteAt a = s.bus.byteAt a := (Frame.ea m s).bus.bytes a (by simp)
  rw [← hbyte] at hlo
  refine ⟨congrArg zext16 (Bus.read8_of_byteAt hlo), fun hi hhi => ?_⟩
  rw [← hbyte] at hhi
  exact Bus.read16_of_byteAt hlo hhi

/-! ## Read-modify-write -/

theorem State.readLoc_reads (loc : Loc) (w : Width) (s : State) :
    ∃ reads, s.bus.ReadsOnly reads (s.readLoc loc w).2.bus ∧ reads.map Prod.fst = loc.bytes w.bytes := by
  cases w with
  | w8 => exact ⟨_, .read8 (loc.byte 0) s.bus, rfl⟩
  | w16 =>
    obtain ⟨v0, v1, h⟩ := Bus.ReadsOnly.read16 loc s.bus
    exact ⟨_, h, rfl⟩

theorem State.writeLoc_writes (loc : Loc) (w : Width) (v : Word) (s : State) :
    ∃ writes, (s.writeLoc loc w v).bus.events = writes ++ s.bus.events ∧ readsOf writes = [] ∧
      (writesOf writes).map Prod.fst = loc.bytes w.bytes := by
  cases w with
  | w8 => exact ⟨[_], rfl, rfl, rfl⟩
  | w16 => exact ⟨[_, _], rfl, rfl, rfl⟩

theorem State.modifyMem_accesses (m : Mem) (w : Width) (g : Word → Word) (s : State) :
    ∃ reads writes, (s.modifyMem m w g).2.bus.events = writes ++ reads ++ (s.ea m).2.bus.events ∧
      writesOf reads = [] ∧ readsOf writes = [] ∧
      (readsOf reads).map Prod.fst = (s.ea m).1.bytes w.bytes ∧ (writesOf writes).map Prod.fst = (s.ea m).1.bytes w.bytes := by
  obtain ⟨_, hreads, haddr⟩ := (s.ea m).2.readLoc_reads (s.ea m).1 w
  obtain ⟨evs, hbus, hw, -, rfl⟩ := hreads.bus
  obtain ⟨writes, hwrites, hr, haddr'⟩ := ((s.ea m).2.readLoc (s.ea m).1 w).2.writeLoc_writes (s.ea m).1 w
    (g ((s.ea m).2.readLoc (s.ea m).1 w).1)
  exact ⟨evs, writes, by rw [State.modifyMem, hwrites, hbus, List.append_assoc], hw, hr, haddr, haddr'⟩

/-- The bus is as after one modification of the location. -/
def ModifiedOnce (m : Mem) (s t : State) : Prop := ∃ g, t.bus = (s.modifyMem m s.wm g).2.bus

theorem modifiedOnce_modifyNZ (m : Mem) (g : Word → Word) (s : State) : ModifiedOnce m s (s.modifyNZ (.mem m) g) :=
  ⟨fun v => s.wm.trunc (g v), rfl⟩

theorem modifiedOnce_shift (m : Mem) (g : Word → Word) (out : Word → Bool) (s : State) :
    ModifiedOnce m s (s.shift (.mem m) g out) := ⟨fun v => s.wm.trunc (g v), rfl⟩

theorem modifiedOnce_testAndModify (m : Mem) (g : Word → Word → Word) (s : State) :
    ModifiedOnce m s (s.testAndModify g m) := ⟨g s.rdA, rfl⟩

theorem ModifiedOnce.of_finish {m : Mem} {i : Instr} {s t u : State} (hu : ModifiedOnce m s u) (h : finish i s u = .next t) :
    ModifiedOnce m s t := by
  cases h
  exact hu

/-- Each of the read-modify-write instructions on memory modifies its location once. -/
theorem modifiedOnce_of_exec {m : Mem} {i : Instr} {s t : State}
    (hi : i ∈ [.inc (.mem m), .dec (.mem m), .asl (.mem m), .lsr (.mem m), .rol (.mem m), .ror (.mem m), .tsb m, .trb m])
    (h : exec i s = .next t) : ModifiedOnce m s t := by
  simp only [List.mem_cons, List.not_mem_nil, or_false] at hi
  obtain rfl | rfl | rfl | rfl | rfl | rfl | rfl | rfl := hi
  · exact (modifiedOnce_modifyNZ m _ s).of_finish h
  · exact (modifiedOnce_modifyNZ m _ s).of_finish h
  · exact (modifiedOnce_shift m _ _ s).of_finish h
  · exact (modifiedOnce_shift m _ _ s).of_finish h
  · exact (modifiedOnce_shift m _ _ s).of_finish h
  · exact (modifiedOnce_shift m _ _ s).of_finish h
  · exact (modifiedOnce_testAndModify m _ s).of_finish h
  · exact (modifiedOnce_testAndModify m _ s).of_finish h

/-- Settles O26: the accesses of such an instruction are those of one modification of the location. -/
theorem readModifyWriteOrder : Obligations.ReadModifyWriteOrder := by
  intro m i s t hi h
  obtain ⟨g, hbus⟩ := modifiedOnce_of_exec hi h
  rw [hbus]
  exact s.modifyMem_accesses m s.wm g

end Sys2Proof.Machine
end

section
/-! Calls and XCE: 44_control_flow.md R293, R294 and 45_status_system.md R309. -/

namespace Sys2Proof.Machine

theorem exec_jsr_abs (a : Word) (s : State) : exec (.jsr (.abs a)) s = .next ((s.push16 (s.pcPlus 2)).setPC a) := rfl

theorem exec_jsr_indx (a : Word) (s : State) :
    exec (.jsr (.indx a)) s =
      .next (((s.push16 (s.pcPlus 2)).read16 (.inBank s.PBR (a + s.rdX))).2.setPC
        ((s.push16 (s.pcPlus 2)).read16 (.inBank s.PBR (a + s.rdX))).1) := rfl

theorem exec_jsl (al : Address) (s : State) :
    exec (.jsl al) s = .next (((s.push8 s.PBR).push16 (s.pcPlus 3)).jumpLong al) := rfl

/-- A call within the bank: the return address is pushed, and then `PC` assigned after an effect that leaves every register alone. -/
theorem Frame.push16_setPC {ra : Word} {s u : State} (h : Frame [] [] [] (s.push16 ra) u) (v : Word) :
    (u.setPC v).SP = s.pushSlot 2 ∧ Frame [.PC, .SP] [] (s.pushed 0 [hiByte ra, loByte ra]) s (u.setPC v) := by
  have hjump : Frame [.PC] [] [] (s.push16 ra) (u.setPC v) := h.trans (.setPC v u)
  have hcall := (Frame.push16 ra s).trans hjump
  rw [List.append_nil] at hcall
  exact ⟨(hjump.SP_eq (by simp)).trans (s.push16_SP ra), hcall.weaken (by simp) (by simp)⟩

/-- The pushes of JSL. -/
theorem Frame.push8_push16 (v : Byte) (ra : Word) (s : State) :
    ((s.push8 v).push16 ra).SP = s.pushSlot 3 ∧
      Frame [.SP] [] (s.pushed 0 [v, hiByte ra, loByte ra]) s ((s.push8 v).push16 ra) := by
  refine ⟨((s.push8 v).push16_SP ra).trans (s.pushSlot_add (s.push8 v) 1 rfl (s.push8_SP v) 2), ?_⟩
  have hpush := (Frame.push8 v s).trans (.push16 ra _)
  rw [s.pushed_add (s.push8 v) 1 rfl (s.push8_SP v)] at hpush
  exact hpush.weaken (by simp) (by simp)

/-- Settles O50: a call is its pushes and then a jump; the pointer of JSR (abs,X) is read in between. -/
theorem callsPushReturnAddress : Obligations.CallsPushReturnAddress := by
  intro s a al x ra
  have hx : s.rdX = x := s.rdX_eq
  rw [← hx]
  refine ⟨⟨_, exec_jsr_abs a s, rfl, (Frame.refl _).push16_setPC a⟩, ?_, ?_⟩
  · obtain ⟨hlast, hword⟩ := (s.push16 (s.pcPlus 2)).setPC_read16_inBank s.PBR (a + s.rdX)
    obtain ⟨hsp, hframe⟩ := (Frame.read16 (.inBank s.PBR (a + s.rdX)) (s.push16 (s.pcPlus 2))).push16_setPC
      ((s.push16 (s.pcPlus 2)).read16 (.inBank s.PBR (a + s.rdX))).1
    exact ⟨_, exec_jsr_indx a s, hsp, hlast, hword, hframe⟩
  · obtain ⟨hsp, hpush⟩ := Frame.push8_push16 s.PBR (s.pcPlus 3) s
    have hjump := hpush.trans (.jumpLong al _)
    rw [List.append_nil] at hjump
    exact ⟨_, exec_jsl al s, rfl, rfl, hsp, hjump.weaken (by simp) (by simp)⟩

theorem Frame.setE (b : Bool) (s : State) : Frame [.X, .Y, .SP, .e] [.m, .x] [] s (s.setE b) where
  regs r hr := by
    cases r with
    | X | Y | SP | e => simp at hr
    | _ => simp [State.reg]
  flags f hf := by
    simp only [List.mem_cons, List.not_mem_nil, or_false] at hf
    rw [State.setE_flag, if_neg (fun h => hf h.2)]
  bus := (State.setE_bus b s).symm ▸ .refl s.bus
  charOut := State.setE_charOut b s

/-- Settles O54: XCE is a write of `c` and then of `e`, with what the write of `e` brings along. -/
theorem xceExchangesCarryAndEmulation : Obligations.XceExchangesCarryAndEmulation := by
  intro s
  have hframe := (Frame.setFlag .c s.e s).trans (.setE (s.flag .c) _)
  obtain ⟨hpc, hframe⟩ := hframe.trans_advance (by simp) .xce
  refine ⟨_, rfl, ?_, ?_, ?_, ?_, ?_, ?_, ?_, hpc, hframe.weaken (by simp) (by simp)⟩ <;>
    simp [Config.spEmuHigh]

end Sys2Proof.Machine
end

section
/-! The shared adder in binary mode as arithmetic on numbers: 42_alu.md R190, R192. -/

namespace Sys2Proof

/-! ## A value at a width as a number -/

theorem toNat_zext16 (b : Byte) : (zext16 b).toNat = b.toNat := by
  have hb := b.isLt
  simp only [zext16, BitVec.toNat_setWidth]
  omega

theorem Width.toNat_trunc_lt (w : Width) (v : Word) : (w.trunc v).toNat < 2 ^ w.bits := by
  cases w with
  | w8 =>
    rw [trunc, toNat_zext16]
    exact (loByte v).isLt
  | w16 => exact v.isLt

theorem Width.toNat_trunc (w : Width) (v : Word) : (w.trunc v).toNat = v.toNat % 2 ^ w.bits := by
  cases w with
  | w8 => rw [trunc, toNat_zext16, loByte_eq_setWidth, BitVec.toNat_setWidth, bits]
  | w16 => exact (Nat.mod_eq_of_lt v.isLt).symm

theorem Width.trunc_ofNat_mod (w : Width) (n : Nat) : (BitVec.ofNat 16 (n % 2 ^ w.bits)).toNat = n % 2 ^ w.bits := by
  rw [BitVec.toNat_ofNat]
  cases w <;> simp only [bits] <;> omega

/-- The complement of a value within the width. -/
theorem Width.toNat_trunc_not (w : Width) (v : Word) :
    (w.trunc (~~~(w.trunc v))).toNat = 2 ^ w.bits - 1 - (w.trunc v).toNat := by
  cases w with
  | w8 => simp only [trunc, toNat_zext16, loByte_not, loByte_zext16, BitVec.toNat_not, bits]
  | w16 => simp only [trunc, BitVec.toNat_not, bits]

/-- The top bit says that the value is in the upper half. -/
theorem Width.msb_iff (w : Width) (v : Word) : w.msb v = true ↔ 2 ^ (w.bits - 1) ≤ (w.trunc v).toNat := by
  cases w with
  | w8 =>
    have hmsb : Width.w8.msb v = (loByte v).msb := by simp [loByte_eq_setWidth, BitVec.msb_eq_getLsbD_last, msb, bits]
    rw [hmsb, trunc, toNat_zext16, BitVec.msb_eq_decide, decide_eq_true_eq, bits]
  | w16 =>
    have hmsb : Width.w16.msb v = v.msb := (BitVec.msb_eq_getLsbD_last v).symm
    rw [hmsb, trunc, BitVec.msb_eq_decide, decide_eq_true_eq, bits]

theorem Width.msb_and (w : Width) (u v : Word) : w.msb (u &&& v) = (w.msb u && w.msb v) := BitVec.getLsbD_and

theorem Width.msb_xor (w : Width) (u v : Word) : w.msb (u ^^^ v) = (w.msb u ^^ w.msb v) := BitVec.getLsbD_xor

theorem Width.msb_not (w : Width) (v : Word) : w.msb (~~~v) = !w.msb v := by
  cases w <;> simp [msb, bits]

namespace Machine

/-- The two's-complement reading of a value in the upper half lies `2 ^ w` below it. -/
theorem signedValue_eq (w : Width) (v : Word) :
    signedValue w v = (w.trunc v).toNat - if 2 ^ (w.bits - 1) ≤ (w.trunc v).toNat then (2 ^ w.bits : Int) else 0 := by
  cases w with
  | w8 =>
    rw [signedValue, Width.trunc, toNat_zext16, BitVec.toInt_eq_toNat_cond]
    norm_num [Width.bits]
    omega
  | w16 =>
    rw [signedValue, Width.trunc, BitVec.toInt_eq_toNat_cond]
    norm_num [Width.bits]
    omega

/-! ## The binary branch -/

section
variable (w : Width) (a b : Word) (cin : Bool)

theorem addBinary_r : (addBinary a b cin w).r.toNat = ((w.trunc a).toNat + (w.trunc b).toNat + cin.toNat) % 2 ^ w.bits :=
  w.trunc_ofNat_mod _

theorem addBinary_carry :
    (addBinary a b cin w).carry = true ↔ 2 ^ w.bits ≤ (w.trunc a).toNat + (w.trunc b).toNat + cin.toNat := by
  simp only [addBinary, decide_eq_true_eq]

/-- The operands' top bits agree, and the result's is another. -/
theorem addBinary_overflow_iff_msb :
    (addBinary a b cin w).overflow = true ↔
      (w.msb a = true ↔ w.msb b = true) ∧ ¬ (w.msb a = true ↔ w.msb (addBinary a b cin w).r = true) := by
  simp only [addBinary, Width.msb_and, Width.msb_xor, Width.msb_not, ← Bool.eq_iff_iff]
  cases w.msb a <;> cases w.msb b <;> simp

/-- The top bits of the operands and of the result tell whether the signed sum fits. -/
theorem addBinary_overflow_iff :
    let exact := signedValue w a + signedValue w b + cin.toNat
    (addBinary a b cin w).overflow = true ↔ exact < -(2 ^ (w.bits - 1) : Int) ∨ (2 ^ (w.bits - 1) : Int) ≤ exact := by
  have ha := w.toNat_trunc_lt a
  have hb := w.toNat_trunc_lt b
  have hc := cin.toNat_le
  simp only [addBinary_overflow_iff_msb, Width.msb_iff, signedValue_eq, Width.toNat_trunc w (addBinary a b cin w).r, addBinary_r]
  generalize (w.trunc a).toNat = ua at ha
  generalize (w.trunc b).toNat = ub at hb
  cases w with
  | w8 =>
    norm_num [Width.bits] at ha hb ⊢
    omega
  | w16 =>
    norm_num [Width.bits] at ha hb ⊢
    omega

end

/-- The complement of a value reads as the negated value less one. -/
theorem signedValue_not (w : Width) (v : Word) : signedValue w (~~~(w.trunc v)) = -signedValue w v - 1 := by
  have hv := w.toNat_trunc_lt v
  rw [signedValue_eq, signedValue_eq, w.toNat_trunc_not]
  generalize (w.trunc v).toNat = u at hv
  cases w with
  | w8 =>
    norm_num [Width.bits] at hv ⊢
    omega
  | w16 =>
    norm_num [Width.bits] at hv ⊢
    omega

theorem signedValue_trunc (w : Width) (v : Word) : signedValue w (w.trunc v) = signedValue w v := by
  rw [signedValue_eq, signedValue_eq, w.trunc_trunc]

/-- Settles O31: a difference is the sum with the complement, which is the width's largest value less the operand. -/
theorem binaryAddition : Obligations.BinaryAddition := by
  intro w a b cin sub m half ua ub
  have hm : (0 : Int) < m := by
    exact_mod_cast Nat.two_pow_pos w.bits
  have hub : ub < m := w.toNat_trunc_lt b
  have hcin : cin.toNat + (!cin).toNat = 1 := by cases cin <;> rfl
  refine ⟨⟨?_, ?_, ?_⟩, ?_, ?_, ?_⟩
  · have hr := addBinary_r w (w.trunc a) (w.trunc b) cin
    rwa [w.trunc_trunc, w.trunc_trunc] at hr
  · have hc := addBinary_carry w (w.trunc a) (w.trunc b) cin
    rwa [w.trunc_trunc, w.trunc_trunc] at hc
  · have ho := addBinary_overflow_iff w (w.trunc a) (w.trunc b) cin
    rwa [signedValue_trunc, signedValue_trunc] at ho
  · have hr := addBinary_r w (w.trunc a) (w.trunc (~~~(w.trunc b))) cin
    rw [w.trunc_trunc, w.trunc_trunc, w.toNat_trunc_not] at hr
    have hsum : ((ua + (m - 1 - ub) + cin.toNat : Nat) : Int) = (ua - ub - (!cin).toNat) + m := by omega
    rw [← Int.add_emod_right, ← hsum]
    exact_mod_cast hr
  · have hc := addBinary_carry w (w.trunc a) (w.trunc (~~~(w.trunc b))) cin
    rw [w.trunc_trunc, w.trunc_trunc, w.toNat_trunc_not] at hc
    exact hc.trans (show m ≤ ua + (m - 1 - ub) + cin.toNat ↔ ub + (!cin).toNat ≤ ua by omega)
  · have ho := addBinary_overflow_iff w (w.trunc a) (w.trunc (~~~(w.trunc b))) cin
    rw [signedValue_trunc, signedValue_trunc, signedValue_not] at ho
    have hexact : signedValue w a + (-signedValue w b - 1) + cin.toNat = signedValue w a - signedValue w b - (!cin).toNat := by
      omega
    rwa [hexact] at ho

end Machine
end Sys2Proof
end

section
/-! The shared adder in decimal mode, digit by digit: 42_alu.md R190. -/

namespace Sys2Proof.Machine

/-! ## The chain of digit carries -/

/-- The carry into digit `i`. -/
def digitCarry (sub : Bool) (a b : Word) (cin : Bool) : Nat → Bool
  | 0 => cin
  | i + 1 => (decimalDigit sub (digit a i + digit b i + (digitCarry sub a b cin i).toNat)).2

/-- The raw sum of digit `i`, before its correction. -/
def rawDigit (sub : Bool) (a b : Word) (cin : Bool) (i : Nat) : Nat := digit a i + digit b i + (digitCarry sub a b cin i).toNat

theorem decimalDigit_lt (sub : Bool) (t : Nat) : (decimalDigit sub t).1 < 16 := by
  unfold decimalDigit
  split
  · split <;> exact Nat.mod_lt _ (by decide)
  · exact Nat.mod_lt _ (by decide)

/-- What the digit loop answers from digit `i` on: its first digit, and then what it answers from the next one on. -/
theorem decimalDigits_succ (sub : Bool) (a b : Word) (k i : Nat) (c : Bool) :
    let t := digit a i + digit b i + c.toNat
    let d := decimalDigit sub t
    let rest := decimalDigits sub a b k (i + 1) d.2
    decimalDigits sub a b (k + 1) i c = (d.1 + 16 * rest.1, rest.2.1, if k = 0 then t.testBit 3 else rest.2.2) := by
  cases k <;> rfl

section
variable (sub : Bool) (a b : Word) (cin : Bool)

/-- What the loop is to answer for the `k` digits from digit `i` on: the chain's digits, its last carry, and bit 3 of its last raw sum. -/
structure IsChain (k i : Nat) (r : Nat × Bool × Bool) : Prop where
  lt : r.1 < 16 ^ k
  digits : ∀ j < k, r.1 / 16 ^ j % 16 = (decimalDigit sub (rawDigit sub a b cin (i + j))).1
  carry : r.2.1 = digitCarry sub a b cin (i + k)
  top : k ≠ 0 → r.2.2 = (rawDigit sub a b cin (i + (k - 1))).testBit 3

variable {sub a b cin} in
theorem IsChain.cons {k i : Nat} {rest : Nat × Bool × Bool} (h : IsChain sub a b cin k (i + 1) rest) :
    IsChain sub a b cin (k + 1) i
      ((decimalDigit sub (rawDigit sub a b cin i)).1 + 16 * rest.1, rest.2.1,
        if k = 0 then (rawDigit sub a b cin i).testBit 3 else rest.2.2) where
  lt := by
    have hd := decimalDigit_lt sub (rawDigit sub a b cin i)
    have hrest := h.lt
    rw [Nat.pow_succ]
    omega
  digits j hj := by
    have hd := decimalDigit_lt sub (rawDigit sub a b cin i)
    cases j with
    | zero =>
      simp only [Nat.pow_zero, Nat.div_one, Nat.add_zero]
      omega
    | succ j =>
      rw [Nat.pow_succ', ← Nat.div_div_eq_div_mul, show i + (j + 1) = i + 1 + j by omega, ← h.digits j (by omega)]
      congr 2
      omega
  carry := h.carry.trans (congrArg _ (by omega))
  top _ := by
    by_cases hk : k = 0
    · simp [hk]
    · rw [if_neg hk, h.top hk]
      congr 2
      omega

theorem isChain_decimalDigits (k i : Nat) : IsChain sub a b cin k i (decimalDigits sub a b k i (digitCarry sub a b cin i)) := by
  induction k generalizing i with
  | zero => exact ⟨by simp [decimalDigits], by simp, rfl, by simp⟩
  | succ k ih =>
    rw [decimalDigits_succ]
    exact (ih (i + 1)).cons

/-- The number of digits of a width, and what they hold. -/
theorem sixteen_pow_digits (w : Width) : 16 ^ (w.bits / 4) = 2 ^ w.bits := by cases w <;> rfl

theorem addDecimal_isChain (w : Width) :
    IsChain sub a b cin (w.bits / 4) 0 (decimalDigits sub a b (w.bits / 4) 0 cin) := isChain_decimalDigits sub a b cin (w.bits / 4) 0

theorem addDecimal_r (w : Width) :
    (addDecimal a b cin w sub).r.toNat = (decimalDigits sub a b (w.bits / 4) 0 cin).1 := by
  have hlt := (addDecimal_isChain sub a b cin w).lt
  rw [sixteen_pow_digits] at hlt
  refine Nat.mod_eq_of_lt (hlt.trans_le ?_)
  cases w <;> decide

theorem addDecimal_digit (w : Width) {i : Nat} (hi : i < w.bits / 4) :
    digit (addDecimal a b cin w sub).r i = (decimalDigit sub (rawDigit sub a b cin i)).1 := by
  rw [digit, addDecimal_r, (addDecimal_isChain sub a b cin w).digits i hi, Nat.zero_add]

theorem addDecimal_carry (w : Width) : (addDecimal a b cin w sub).carry = digitCarry sub a b cin (w.bits / 4) := by
  have h := (addDecimal_isChain sub a b cin w).carry
  rwa [Nat.zero_add] at h

theorem addDecimal_overflow (w : Width) :
    (addDecimal a b cin w sub).overflow =
      (!(w.msb a ^^ w.msb b) && (w.msb a ^^ (rawDigit sub a b cin (w.bits / 4 - 1)).testBit 3)) := by
  have h := (addDecimal_isChain sub a b cin w).top (by cases w <;> decide)
  rw [Nat.zero_add] at h
  rw [← h]
  rfl

end

theorem decimalDigit_add (t : Nat) :
    decimalDigit false t = ((if 9 < t then t + 6 else t) % 16, decide (15 < if 9 < t then t + 6 else t)) := rfl

/-- A subtraction's digit without a carry is 6 less, modulo 16. -/
theorem decimalDigit_sub (t : Nat) :
    decimalDigit true t = ((if t ≤ 15 then (t + 16 - 6) % 16 else t % 16), decide (15 < t)) := by
  by_cases h : 15 < t
  · simp [decimalDigit, h]
  · simp [decimalDigit, h, Nat.not_lt.mp h]

/-- Settles O32: the loop of the digits is the chain of their carries. -/
theorem decimalDigitChain : Obligations.DecimalDigitChain := by
  intro w a b cin sub k sum
  have hsum : sum = addDecimal a b cin w sub := rfl
  rw [hsum]
  refine ⟨digitCarry sub a b cin, rfl, (addDecimal_carry sub a b cin w).symm, ?_, fun i hi => ?_, addDecimal_overflow sub a b cin w⟩
  · rw [addDecimal_r, ← sixteen_pow_digits]
    exact (addDecimal_isChain sub a b cin w).lt
  · intro t
    have hdigit : digit (addDecimal a b cin w sub).r i = (decimalDigit sub t).1 := addDecimal_digit sub a b cin w hi
    have hcarry : digitCarry sub a b cin (i + 1) = (decimalDigit sub t).2 := rfl
    rw [hdigit, hcarry]
    cases sub with
    | true => simp only [decimalDigit_sub, if_true, and_self]
    | false => simp only [decimalDigit_add, Bool.false_eq_true, if_false, and_self]

/-! ## Valid decimal operands -/

theorem digit_trunc (w : Width) (v : Word) {i : Nat} (hi : i < w.bits / 4) : digit (w.trunc v) i = digit v i := by
  simp only [digit, w.toNat_trunc]
  cases w <;> simp only [Width.bits] at hi ⊢ <;> interval_cases i <;> omega

/-- The complement of a digit is what it lacks of 15. -/
theorem digit_trunc_not (w : Width) (v : Word) {i : Nat} (hi : i < w.bits / 4) : digit (w.trunc (~~~v)) i = 15 - digit v i := by
  have hv := v.isLt
  simp only [digit, w.toNat_trunc, BitVec.toNat_not]
  cases w <;> simp only [Width.bits] at hi ⊢ <;> interval_cases i <;> omega

/-- A decimal digit of a sum, with the carry out of it. -/
theorem decimalDigit_add_of_valid {p q : Nat} {c : Bool} (hp : p ≤ 9) (hq : q ≤ 9) :
    let d := decimalDigit false (p + q + c.toNat)
    d.1 ≤ 9 ∧ d.1 + 10 * d.2.toNat = p + q + c.toNat := by
  have hc := c.toNat_le
  rw [decimalDigit_add]
  by_cases h : 9 < p + q + c.toNat
  · have hcarry : 15 < p + q + c.toNat + 6 := by omega
    simp only [h, if_true, hcarry, decide_true, Bool.toNat_true]
    omega
  · have hcarry : ¬ 15 < p + q + c.toNat := by omega
    simp only [h, if_false, hcarry, decide_false, Bool.toNat_false]
    omega

/-- A decimal digit of a difference, with the borrow out of it. -/
theorem decimalDigit_sub_of_valid {p q : Nat} {c : Bool} (hp : p ≤ 9) (hq : q ≤ 9) :
    let d := decimalDigit true (p + (15 - q) + c.toNat)
    d.1 ≤ 9 ∧ d.1 + q + (!c).toNat = p + 10 * (!d.2).toNat := by
  have hc : c.toNat + (!c).toNat = 1 := by cases c <;> rfl
  rw [decimalDigit_sub]
  by_cases h : 15 < p + (15 - q) + c.toNat
  · simp only [h, Nat.not_le.mpr h, if_false, decide_true, Bool.not_true, Bool.toNat_false]
    omega
  · simp only [h, Nat.not_lt.mp h, if_true, decide_false, Bool.not_false, Bool.toNat_true]
    omega

/-- Digits that add up with carries in and out add up as numbers. -/
theorem bcdValue_add {r a b : Word} {c : Nat → Bool} {k : Nat}
    (h : ∀ i < k, digit r i + 10 * (c (i + 1)).toNat = digit a i + digit b i + (c i).toNat) :
    bcdValue r k + 10 ^ k * (c k).toNat = bcdValue a k + bcdValue b k + (c 0).toNat := by
  induction k with
  | zero => simp [bcdValue]
  | succ k ih =>
    have hk := congrArg (10 ^ k * ·) (h k (by omega))
    have ih' := ih (fun i hi => h i (by omega))
    simp only [bcdValue, Nat.pow_succ] at hk ⊢
    linarith

/-- The same of a difference, with borrows. -/
theorem bcdValue_sub {r a b : Word} {c : Nat → Bool} {k : Nat}
    (h : ∀ i < k, digit r i + digit b i + (!c i).toNat = digit a i + 10 * (!c (i + 1)).toNat) :
    bcdValue r k + bcdValue b k + (!c 0).toNat = bcdValue a k + 10 ^ k * (!c k).toNat := by
  induction k with
  | zero => simp [bcdValue]
  | succ k ih =>
    have hk := congrArg (10 ^ k * ·) (h k (by omega))
    have ih' := ih (fun i hi => h i (by omega))
    simp only [bcdValue, Nat.pow_succ] at hk ⊢
    linarith

/-- The digits of a decimal sum of valid operands. -/
theorem addDecimal_digit_of_valid {w : Width} {a b : Word} (cin : Bool) {i : Nat} (hi : i < w.bits / 4) (ha : digit a i ≤ 9)
    (hb : digit b i ≤ 9) :
    let c := digitCarry false (w.trunc a) (w.trunc b) cin
    let r := (addDecimal (w.trunc a) (w.trunc b) cin w false).r
    digit r i ≤ 9 ∧ digit r i + 10 * (c (i + 1)).toNat = digit a i + digit b i + (c i).toNat := by
  intro c r
  have hd := decimalDigit_add_of_valid (c := c i) ha hb
  rw [← digit_trunc w a hi, ← digit_trunc w b hi] at hd ⊢
  rw [show digit r i = _ from addDecimal_digit false (w.trunc a) (w.trunc b) cin w hi]
  exact hd

/-- The digits of a decimal difference of valid operands. -/
theorem subDecimal_digit_of_valid {w : Width} {a b : Word} (cin : Bool) {i : Nat} (hi : i < w.bits / 4) (ha : digit a i ≤ 9)
    (hb : digit b i ≤ 9) :
    let c := digitCarry true (w.trunc a) (w.trunc (~~~b)) cin
    let r := (addDecimal (w.trunc a) (w.trunc (~~~b)) cin w true).r
    digit r i ≤ 9 ∧ digit r i + digit b i + (!c i).toNat = digit a i + 10 * (!c (i + 1)).toNat := by
  intro c r
  have hd := decimalDigit_sub_of_valid (c := c i) ha hb
  rw [← digit_trunc_not w b hi, ← digit_trunc w a hi] at hd
  rw [show digit r i = _ from addDecimal_digit true (w.trunc a) (w.trunc (~~~b)) cin w hi, ← digit_trunc w a hi]
  exact hd

/-- Settles O33: each digit of a valid operation is a decimal digit, and its carry is worth ten. -/
theorem decimalArithmetic : Obligations.DecimalArithmetic := by
  intro w a b cin k ha hb
  constructor
  · intro sum
    have hdigit {i : Nat} (hi : i < k) := addDecimal_digit_of_valid cin hi (ha i hi) (hb i hi)
    refine ⟨fun i hi => (hdigit hi).1, ?_⟩
    rw [show sum.carry = _ from addDecimal_carry false (w.trunc a) (w.trunc b) cin w]
    exact bcdValue_add fun i hi => (hdigit hi).2
  · intro sum
    have hdigit {i : Nat} (hi : i < k) := subDecimal_digit_of_valid cin hi (ha i hi) (hb i hi)
    refine ⟨fun i hi => (hdigit hi).1, ?_⟩
    rw [show sum.carry = _ from addDecimal_carry true (w.trunc a) (w.trunc (~~~b)) cin w]
    exact bcdValue_sub fun i hi => (hdigit hi).2

end Sys2Proof.Machine
end

section
/-! The disassembler (30_encoding.md R122 to R124): a computation on the bus that only reads, and whose answer its reads decide. -/

namespace Sys2Proof

/-- Two buses hold the same byte at each of the addresses read, and it is the block's own. -/
def Bus.AgreeOn (reads : List (Address × Byte)) (b b' : Bus) : Prop :=
  ∀ p ∈ reads, ∃ v, b.byteAt p.1 = some v ∧ b'.byteAt p.1 = some v

/-- A computation on the bus that only reads, and answers the same on every bus that agrees on what it has read. -/
def DecidedByReads {α : Type} (f : Bus → α × Bus) : Prop :=
  ∀ b, ∃ reads, b.ReadsOnly reads (f b).2 ∧ ∀ b', b.AgreeOn reads b' → (f b').1 = (f b).1 ∧ ∃ reads', b'.ReadsOnly reads' (f b').2

namespace DecidedByReads

theorem pure {α : Type} (x : α) : DecidedByReads (fun b => (x, b)) := fun b =>
  ⟨[], .refl b, fun b' _ => ⟨rfl, [], .refl b'⟩⟩

theorem read8 (a : Address) : DecidedByReads (Bus.read8 a) := by
  refine fun b => ⟨_, .read8 a b, fun b' h => ⟨?_, _, .read8 a b'⟩⟩
  obtain ⟨v, hb, hb'⟩ := h _ (List.mem_singleton_self _)
  rw [Bus.read8_of_byteAt hb, Bus.read8_of_byteAt hb']

/-- One computation and then another that goes on from its answer. -/
theorem bind {α β γ : Type} {f : Bus → α × Bus} {g : α → Bus → β × Bus} (hf : DecidedByReads f) (hg : ∀ x, DecidedByReads (g x))
    (combine : α → β → γ) :
    DecidedByReads (fun b => (combine (f b).1 (g (f b).1 (f b).2).1, (g (f b).1 (f b).2).2)) := by
  intro b
  obtain ⟨reads, hreads, hdecide⟩ := hf b
  obtain ⟨reads', hreads', hdecide'⟩ := hg (f b).1 (f b).2
  refine ⟨_, hreads.trans hreads', fun b' h => ?_⟩
  obtain ⟨heq, more, hmore⟩ := hdecide b' (fun p hp => h p (List.mem_append_left _ hp))
  have hagree : (f b).2.AgreeOn reads' (f b').2 := by
    intro p hp
    rw [hreads.byteAt, hmore.byteAt]
    exact h p (List.mem_append_right _ hp)
  obtain ⟨heq', more', hmore'⟩ := hdecide' (f b').2 hagree
  dsimp only
  rw [heq, heq']
  exact ⟨rfl, _, hmore.trans hmore'⟩

end DecidedByReads

theorem decidedByReads_readBytes (loc : Loc) (n k : Nat) : DecidedByReads (Bus.readBytes loc n k) := by
  induction n generalizing k with
  | zero => exact .pure []
  | succ n ih => exact (DecidedByReads.read8 (loc.byte k)).bind (fun _ => ih (k + 1)) List.cons

/-- One record with the length to advance by, as one answer. -/
def disassembleRecord (m8 x8 : Bool) (bank : Byte) (off : Word) (b : Bus) : (Line × Nat) × Bus :=
  let r := disassembleOne m8 x8 bank off b
  ((r.1, r.2.1), r.2.2)

/-- The record that an opcode and its operand bytes make. -/
def recordOf (m8 x8 : Bool) (bank : Byte) (off : Word) (op : Byte) (bs : List Byte) : Line × Nat :=
  ({ address := String.ofList (hexDigits 6 (mkAddr bank off).toNat), code := (decodeBytes m8 x8 op bs).text m8 x8 off },
    opLen op m8 x8)

theorem decidedByReads_disassembleRecord (m8 x8 : Bool) (bank : Byte) (off : Word) :
    DecidedByReads (disassembleRecord m8 x8 bank off) :=
  (DecidedByReads.read8 ((Loc.inBank bank off).byte 0)).bind
    (fun op => decidedByReads_readBytes (.inBank bank off) (opLen op m8 x8 - 1) 1)
    (recordOf m8 x8 bank off)

theorem decidedByReads_disassembleFrom (m8 x8 : Bool) (bank : Byte) (n : Nat) (off : Word) :
    DecidedByReads (disassembleFrom m8 x8 bank n off) := by
  induction n generalizing off with
  | zero => exact .pure []
  | succ n ih =>
    exact (decidedByReads_disassembleRecord m8 x8 bank off).bind (fun r => ih (off + BitVec.ofNat 16 r.2)) (fun r rs => r.1 :: rs)

theorem length_disassembleFrom (m8 x8 : Bool) (bank : Byte) (n : Nat) (off : Word) (b : Bus) :
    (disassembleFrom m8 x8 bank n off b).1.length = n := by
  induction n generalizing off b with
  | zero => rfl
  | succ n ih => exact congrArg (· + 1) (ih _ _)

theorem decidedByReads_disassemble (start : Address) (n : Nat) (m x e c : Bool) : DecidedByReads (Bus.disassemble start n m x e c) :=
  decidedByReads_disassembleFrom _ _ _ n _

namespace Machine

/-- Settles O60: the walk is made of single reads, each of which decides how it goes on, and it does not look at the carry input. -/
theorem disassemblerObserves : Obligations.DisassemblerObserves := by
  refine ⟨fun s start n m x e c => ?_, fun s t start n m x e c c' evs hevs hbytes => ?_⟩
  · obtain ⟨reads, hreads, -⟩ := decidedByReads_disassemble start n m x e c s.bus
    obtain ⟨evs, hbus, hw, hc, -⟩ := hreads.bus
    exact ⟨evs, congrArg (fun b => s.withBus b) hbus, hw, hc, length_disassembleFrom _ _ _ n _ s.bus⟩
  · obtain ⟨reads, hreads, hdecide⟩ := decidedByReads_disassemble start n m x e c s.bus
    obtain ⟨evs', hbus, -, -, rfl⟩ := hreads.bus
    have hsame : evs' = evs := List.append_cancel_right ((congrArg Bus.events hbus).symm.trans hevs)
    rw [hsame] at hdecide
    exact (hdecide t.bus hbytes).1.symm

end Machine

end Sys2Proof
end

section
/-! Which registers and flags each instruction can change: the writers that 10_state.md names for each register (R26 to R37 and the access
summary) and for each flag (R32, R33). -/

namespace Sys2Proof

open Machine

/-- The registers an instruction can change. -/
def Instr.regsWritten : Instr → List Reg
  | .lda _ | .adc _ | .sbc _ | .and _ | .ora _ | .eor _ | .txa | .tya | .tdc | .tsc | .xba => [.A, .PC]
  | .ldx _ | .inx | .dex | .tax | .tyx | .tsx => [.X, .PC]
  | .ldy _ | .iny | .dey | .tay | .txy => [.Y, .PC]
  | .inc o | .dec o | .asl o | .lsr o | .rol o | .ror o => rmwRegs o
  | .tcd => [.DR, .PC]
  | .txs | .tcs | .pha | .phx | .phy | .php | .phb | .phd | .phk | .pea _ | .pei _ | .per _ => [.SP, .PC]
  | .pla => [.A, .SP, .PC]
  | .plx => [.X, .SP, .PC]
  | .ply => [.Y, .SP, .PC]
  | .plb => [.DBR, .SP, .PC]
  | .pld => [.DR, .SP, .PC]
  | .mvn _ _ | .mvp _ _ => [.A, .X, .Y, .DBR, .PC]
  | .jml _ => [.PC, .PBR]
  | .jsr _ | .rts => [.PC, .SP]
  | .jsl _ | .rtl | .brk _ | .cop _ => [.PC, .PBR, .SP]
  | .rep _ | .sep _ | .plp => [.X, .Y, .SP, .PC]
  | .rti => [.X, .Y, .SP, .PC, .PBR]
  | .xce => [.X, .Y, .SP, .e, .PC]
  | .wai | .stp => [.run, .PC]
  | .sta _ | .stx _ | .sty _ | .stz _ | .cmp _ | .cpx _ | .cpy _ | .bit _ | .tsb _ | .trb _ => [.PC]
  | .bcc _ | .bcs _ | .beq _ | .bne _ | .bmi _ | .bpl _ | .bvc _ | .bvs _ | .bra _ | .brl _ | .jmp _ => [.PC]
  | .clc | .sec | .cli | .sei | .cld | .sed | .clv | .nop | .wdm _ => [.PC]

/-- The flags BIT can change. -/
def bitFlags : Src → List Flag
  | .imm _ => [.z]
  | .mem _ => [.z, .n, .v]

/-- The flags an instruction can change. -/
def Instr.flagsWritten : Instr → List Flag
  | .adc _ | .sbc _ => [.n, .v, .z, .c]
  | .cmp _ | .cpx _ | .cpy _ | .asl _ | .lsr _ | .rol _ | .ror _ => [.n, .z, .c]
  | .bit o => bitFlags o
  | .tsb _ | .trb _ => [.z]
  | .lda _ | .ldx _ | .ldy _ | .and _ | .ora _ | .eor _ | .inc _ | .dec _ | .inx | .iny | .dex | .dey => [.n, .z]
  | .tax | .tay | .txa | .tya | .txy | .tyx | .tsx | .tcd | .tdc | .tsc | .xba | .pla | .plx | .ply | .plb | .pld => [.n, .z]
  | .clc | .sec => [.c]
  | .cli | .sei => [.i]
  | .cld | .sed => [.d]
  | .clv => [.v]
  | .brk _ | .cop _ => [.i, .d]
  | .xce => [.c, .m, .x]
  | .rep _ | .sep _ | .plp | .rti => Flag.all
  | .sta _ | .stx _ | .sty _ | .stz _ | .txs | .tcs | .pha | .phx | .phy | .php | .phb | .phd | .phk => []
  | .pea _ | .pei _ | .per _ | .mvn _ _ | .mvp _ _ => []
  | .bcc _ | .bcs _ | .beq _ | .bne _ | .bmi _ | .bpl _ | .bvc _ | .bvs _ | .bra _ | .brl _ => []
  | .jmp _ | .jml _ | .jsr _ | .jsl _ | .rts | .rtl | .nop | .wdm _ | .wai | .stp => []

namespace Machine

/-- From `s` to `t` no other register and no other flag changes. -/
structure Writes (regs : List Reg) (flags : List Flag) (s t : State) : Prop where
  regs : ∀ r, r ∉ regs → t.reg r = s.reg r
  flags : ∀ f, f ∉ flags → t.flag f = s.flag f

/-! ## The frames of the shared operations -/

namespace Frame

variable {regs regs' : List Reg} {flags flags' : List Flag} {stores : List (Address × Byte)} {s t u : State}

theorem trans_setNZ (h : Frame regs flags stores s t) (v : Word) (w : Width) : Frame regs (flags ++ [.n, .z]) stores s (t.setNZ v w) := by
  simpa using h.trans (setNZ v w t)

theorem addA (sub : Bool) (o : Src) (s : State) : Frame [.A] [.c, .v, .n, .z] [] s (s.addA sub o) :=
  ((((operand o s.wm s).trans (.wrA _ _)).trans_setFlag .c _).trans_setFlag .v _).trans_setNZ _ _

theorem logicA (f : Word → Word → Word) (o : Src) (s : State) : Frame [.A] [.n, .z] [] s (s.logicA f o) :=
  ((operand o s.wm s).trans (.wrA _ _)).trans_setNZ _ _

theorem compare (a : Word) (w : Width) (o : Src) (s : State) : Frame [] [.c, .n, .z] [] s (s.compare a w o) :=
  ((operand o w s).trans_setFlag .c _).trans_setNZ _ _

theorem testAndModify (g : Word → Word → Word) (m : Mem) (s : State) :
    Frame [] [.z] (valueBytes (s.ea m).1 s.wm (g s.rdA (s.operand (.mem m) s.wm).1)) s (s.testAndModify g m) :=
  (modifyMem rfl).trans_setFlag .z _

theorem modifyNZ (o : Rmw) (g : Word → Word) (s : State) :
    Frame (rmwResultRegs o) [.n, .z] (s.rmwStores o (g (s.rmwValue o))) s (s.modifyNZ o g) := by
  obtain ⟨-, h⟩ := s.rmw_trunc_spec o g
  exact h.trans_setNZ _ _

theorem shift (o : Rmw) (g : Word → Word) (out : Word → Bool) (s : State) :
    Frame (rmwResultRegs o) [.c, .n, .z] (s.rmwStores o (g (s.rmwValue o))) s (s.shift o g out) := by
  obtain ⟨-, h⟩ := s.rmw_trunc_spec o g
  exact (h.trans_setFlag .c _).trans_setNZ _ _

theorem push (w : Width) (v : Word) (s : State) : Frame [.SP] [] (s.pushed 0 (pushBytes w v)) s (s.push w v) := of_withStack (s.push_spec w v)

/-! ## The end of an instruction -/

theorem writes (h : Frame regs flags stores s t) (hregs : regs ⊆ regs') (hflags : flags ⊆ flags') : Writes regs' flags' s t where
  regs r hr := h.regs r (fun hmem => hr (hregs hmem))
  flags f hf := h.flags f (fun hmem => hf (hflags hmem))

theorem next_writes (h : Frame regs flags stores s t) (hregs : regs ⊆ regs' := by simp [Instr.regsWritten])
    (hflags : flags ⊆ flags' := by simp [Instr.flagsWritten]) : CompletesWith (Writes regs' flags' s) (.next t) :=
  ⟨t, rfl, h.writes hregs hflags⟩

theorem finish_writes (h : Frame regs flags stores s t) (i : Instr) (hregs : regs ++ [.PC] ⊆ regs' := by simp [Instr.regsWritten])
    (hflags : flags ⊆ flags' := by simp [Instr.flagsWritten]) : CompletesWith (Writes regs' flags' s) (finish i s t) :=
  (h.trans (.advance (s.lenOf i) t)).next_writes hregs (by simpa using hflags)

theorem finishPass_writes (h : Frame regs flags stores s t) (i : Instr)
    (hregs : regs ++ [.PC] ⊆ regs' := by simp [Instr.regsWritten]) (hflags : flags ⊆ flags' := by simp [Instr.flagsWritten]) :
    CompletesWith (Writes regs' flags' s) (finishPass i s t) := by
  unfold finishPass
  split
  · exact h.finish_writes i hregs hflags
  · exact h.next_writes (fun r hr => hregs (List.mem_append_left _ hr)) hflags

end Frame

theorem bit_writes (o : Src) (s : State) :
    CompletesWith (Writes (Instr.bit o).regsWritten (Instr.bit o).flagsWritten s) (exec (.bit o) s) := by
  have hz := (Frame.operand o s.wm s).trans_setFlag .z (s.rdA &&& (s.operand o s.wm).1 == 0)
  cases o with
  | imm v => exact hz.finish_writes _ (by simp [Instr.regsWritten]) (by simp [Instr.flagsWritten, bitFlags])
  | mem m =>
    exact ((hz.trans_setFlag .n _).trans_setFlag .v _).finish_writes _ (by simp [Instr.regsWritten])
      (by simp [Instr.flagsWritten, bitFlags])

theorem wdm_writes (sig : Byte) (s : State) : CompletesWith (Writes [.PC] [] s) (exec (.wdm sig) s) := by
  obtain ⟨-, hnext, -, -⟩ := nopWdmWaiStp sig s
  refine ⟨_, hnext, fun r hr => ?_, fun f _ => rfl⟩
  cases r with
  | PC => simp at hr
  | _ => rfl

theorem jmp_writes (t : JmpTarget) (s : State) : CompletesWith (Writes [.PC] [] s) (exec (.jmp t) s) := by
  cases t with
  | abs a => exact (Frame.setPC a s).next_writes
  | ind a | indx a => exact ((Frame.read16 _ s).trans (.setPC _ _)).next_writes

theorem jml_writes (t : JmlTarget) (s : State) : CompletesWith (Writes [.PC, .PBR] [] s) (exec (.jml t) s) := by
  cases t with
  | abl al => exact (Frame.jumpLong al s).next_writes
  | indl a => exact ((Frame.read24 _ s).trans (.jumpLong _ _)).next_writes

theorem jsr_writes (t : JsrTarget) (s : State) : CompletesWith (Writes [.PC, .SP] [] s) (exec (.jsr t) s) := by
  have hpush := Frame.push16 (s.pcPlus 2) s
  cases t with
  | abs a => exact (hpush.trans (.setPC a _)).next_writes
  | indx a => exact ((hpush.trans (.read16 (.inBank s.PBR (a + s.rdX)) _)).trans (.setPC _ _)).next_writes

theorem softInt_writes (k : SoftInt) (s : State) : CompletesWith (Writes [.PC, .PBR, .SP] [.i, .d] s) (.next (s.softInt k)) := by
  rw [State.softInt_eq]
  exact (((Frame.atVector k s).trans (.read16 _ _)).trans (.setPC _ _)).next_writes

theorem rti_writes (s : State) : CompletesWith (Writes [.X, .Y, .SP, .PC, .PBR] Flag.all s) (exec .rti s) := by
  obtain ⟨t, ht, -, -, -, -, -, -, hframe⟩ := rtiRestores s
  exact ⟨t, ht, hframe.writes (List.Subset.refl _) (List.Subset.refl _)⟩

/-- Every instruction changes no other register and flag than those listed for it. -/
theorem exec_writes (i : Instr) (s : State) : CompletesWith (Writes i.regsWritten i.flagsWritten s) (exec i s) := by
  cases i with
  | lda o => exact (((Frame.operand o s.wm s).trans (.wrA _ _)).trans_setNZ _ _).finish_writes _
  | ldx o => exact (((Frame.operand o s.wx s).trans (.wrX _ _)).trans_setNZ _ _).finish_writes _
  | ldy o => exact (((Frame.operand o s.wx s).trans (.wrY _ _)).trans_setNZ _ _).finish_writes _
  | sta m | stz m => exact (Frame.writeMem m s.wm _ s).finish_writes _
  | stx m | sty m => exact (Frame.writeMem m s.wx _ s).finish_writes _
  | adc o | sbc o => exact (Frame.addA _ o s).finish_writes _
  | and o | ora o | eor o => exact (Frame.logicA _ o s).finish_writes _
  | cmp o | cpx o | cpy o => exact (Frame.compare _ _ o s).finish_writes _
  | bit o => exact bit_writes o s
  | tsb m | trb m => exact (Frame.testAndModify _ m s).finish_writes _
  | inc o | dec o => exact (Frame.modifyNZ o _ s).finish_writes _ (by rw [rmwResultRegs_append_PC]; exact List.Subset.refl _)
  | asl o | lsr o | rol o | ror o =>
    exact (Frame.shift o _ _ s).finish_writes _ (by rw [rmwResultRegs_append_PC]; exact List.Subset.refl _)
  | inx | dex | tax | tyx | tsx => exact ((Frame.wrX _ s).trans_setNZ _ _).finish_writes _
  | iny | dey | tay | txy => exact ((Frame.wrY _ s).trans_setNZ _ _).finish_writes _
  | txa | tya => exact ((Frame.wrA _ s).trans_setNZ _ _).finish_writes _
  | txs | tcs => exact (Frame.setSP _ s).finish_writes _
  | tcd => exact ((Frame.setDR _ s).trans_setNZ _ _).finish_writes _
  | tdc | tsc | xba => exact ((Frame.setA _ s).trans_setNZ _ _).finish_writes _
  | pha | phx | phy => exact (Frame.push _ _ s).finish_writes _
  | php | phb | phk => exact (Frame.push8 _ s).finish_writes _
  | phd | pea v | per v => exact (Frame.push16 _ s).finish_writes _
  | pei d => exact ((Frame.read16 _ s).trans (.push16 _ _)).finish_writes _
  | pla => exact (((Frame.pull s.wm s).trans (.wrA _ _)).trans_setNZ _ _).finish_writes _
  | plx => exact (((Frame.pull s.wx s).trans (.wrX _ _)).trans_setNZ _ _).finish_writes _
  | ply => exact (((Frame.pull s.wx s).trans (.wrY _ _)).trans_setNZ _ _).finish_writes _
  | plp => exact ((Frame.pull8 s).trans (.writeP _ _)).finish_writes _
  | plb => exact (((Frame.pull8 s).trans (.setDBR _ _)).trans_setNZ _ _).finish_writes _
  | pld => exact (((Frame.pull16 s).trans (.setDR _ _)).trans_setNZ _ _).finish_writes _
  | mvn dst src | mvp dst src => exact (Frame.blockMove dst src _ s).finishPass_writes _
  | bcc r | bcs r | beq r | bne r | bmi r | bpl r | bvc r | bvs r | bra r | brl r => exact (Frame.setPC _ s).next_writes
  | jmp t => exact jmp_writes t s
  | jml t => exact jml_writes t s
  | jsr t => exact jsr_writes t s
  | jsl al => exact (((Frame.push8 s.PBR s).trans (.push16 _ _)).trans (.jumpLong al _)).next_writes
  | rts => exact ((Frame.pull16 s).trans (.setPC _ _)).next_writes
  | rtl => exact ((((Frame.pull16 s).trans (.setPC _ _)).trans (.pull8 _)).trans (.setPBR _ _)).next_writes
  | clc | cli | cld | clv | sec | sei | sed => exact (Frame.setFlag _ _ s).finish_writes _
  | rep v | sep v => exact (Frame.writeP _ s).finish_writes _
  | xce => exact ((Frame.setFlag .c s.e s).trans (.setE _ _)).finish_writes _
  | nop => exact (Frame.refl s).finish_writes _
  | wdm sig => exact wdm_writes sig s
  | brk _ | cop _ => exact softInt_writes _ s
  | rti => exact rti_writes s
  | wai | stp => exact (Frame.setRun _ s).finish_writes _

end Machine
end Sys2Proof
end

section
/-! From a change of a register or a flag to the instruction that made it (10_state.md sections 2 to 6). -/

namespace Sys2Proof.Machine

theorem exec_writes_of_next {i : Instr} {s t : State} (h : exec i s = .next t) : Writes i.regsWritten i.flagsWritten s t := by
  obtain ⟨u, hu, hw⟩ := exec_writes i s
  cases hu.symm.trans h
  exact hw

namespace Writes

variable {regs : List Reg} {flags : List Flag} {s t : State}

theorem mem_regs (h : Writes regs flags s t) {r : Reg} (hne : t.reg r ≠ s.reg r) : r ∈ regs :=
  Decidable.byContradiction fun hr => hne (h.regs r hr)

theorem mem_flags (h : Writes regs flags s t) {f : Flag} (hne : t.flag f ≠ s.flag f) : f ∈ flags :=
  Decidable.byContradiction fun hf => hne (h.flags f hf)

end Writes

theorem toNat_ne {n : Nat} {u v : BitVec n} (h : u ≠ v) : u.toNat ≠ v.toNat := mt BitVec.eq_of_toNat_eq h

theorem bool_toNat_ne {u v : Bool} (h : u ≠ v) : u.toNat ≠ v.toNat := by
  cases u <;> cases v <;> simp_all

theorem RunState.code_injective : Function.Injective RunState.code := by
  intro u v h
  cases u <;> cases v <;> simp_all [RunState.code]

/-! ## The writers of each register -/

@[simp] theorem mem_rmwRegs {r : Reg} {o : Rmw} : r ∈ rmwRegs o ↔ r = .PC ∨ r = .A ∧ o = .acc := by
  cases o <;> simp [rmwRegs, or_comm]

theorem writers_PBR {i : Instr} (h : .PBR ∈ i.regsWritten) :
    (∃ j, i = .jml j) ∨ (∃ a, i = .jsl a) ∨ i = .rtl ∨ i = .rti ∨ (∃ g, i = .brk g) ∨ (∃ g, i = .cop g) := by
  cases i <;> simp_all [Instr.regsWritten]

theorem writers_DBR {i : Instr} (h : .DBR ∈ i.regsWritten) : i = .plb ∨ (∃ d c, i = .mvn d c) ∨ (∃ d c, i = .mvp d c) := by
  cases i <;> simp_all [Instr.regsWritten]

theorem writers_DR {i : Instr} (h : .DR ∈ i.regsWritten) : i = .tcd ∨ i = .pld := by
  cases i <;> simp_all [Instr.regsWritten]

theorem writers_e {i : Instr} (h : .e ∈ i.regsWritten) : i = .xce := by
  cases i <;> simp_all [Instr.regsWritten]

theorem writers_run {i : Instr} (h : .run ∈ i.regsWritten) : i = .wai ∨ i = .stp := by
  cases i <;> simp_all [Instr.regsWritten]

theorem writers_A {i : Instr} (h : .A ∈ i.regsWritten) :
    (∃ o, i = .lda o ∨ i = .adc o ∨ i = .sbc o ∨ i = .and o ∨ i = .ora o ∨ i = .eor o) ∨
      i = .asl .acc ∨ i = .lsr .acc ∨ i = .rol .acc ∨ i = .ror .acc ∨ i = .inc .acc ∨ i = .dec .acc ∨
      i = .pla ∨ i = .txa ∨ i = .tya ∨ i = .tdc ∨ i = .tsc ∨ i = .xba ∨ (∃ d c, i = .mvn d c) ∨ (∃ d c, i = .mvp d c) := by
  cases i <;> simp_all [Instr.regsWritten]

theorem writers_X {i : Instr} (h : .X ∈ i.regsWritten) :
    (∃ v, i = .rep v) ∨ (∃ o, i = .ldx o) ∨ i = .inx ∨ i = .dex ∨ i = .plx ∨ i = .tax ∨ i = .tyx ∨ i = .tsx ∨
      (∃ d c, i = .mvn d c) ∨ (∃ d c, i = .mvp d c) ∨ (∃ v, i = .sep v) ∨ i = .plp ∨ i = .rti ∨ i = .xce := by
  cases i <;> simp_all [Instr.regsWritten]

theorem writers_Y {i : Instr} (h : .Y ∈ i.regsWritten) :
    (∃ v, i = .rep v) ∨ (∃ o, i = .ldy o) ∨ i = .iny ∨ i = .dey ∨ i = .ply ∨ i = .tay ∨ i = .txy ∨
      (∃ d c, i = .mvn d c) ∨ (∃ d c, i = .mvp d c) ∨ (∃ v, i = .sep v) ∨ i = .plp ∨ i = .rti ∨ i = .xce := by
  cases i <;> simp_all [Instr.regsWritten]

/-! ## The two that write a register only in some states -/

/-- RTI leaves `PBR` in emulation mode. -/
theorem rti_PBR_native {s t : State} (h : exec .rti s = .next t) (hne : t.PBR ≠ s.PBR) : s.e = false := by
  obtain ⟨u, hu, -, -, hpbr, -⟩ := rtiRestores s
  cases hu.symm.trans h
  rw [← Bool.not_eq_true]
  exact fun he => hne (hpbr.trans (if_pos he))

/-- An index register whose high byte is zero where it is narrow keeps its value when it is narrowed only where it was narrow before. -/
theorem narrowed_eq {narrow narrow' : Bool} {v : Word} (hv : narrow = true → hiByte v = 0) (himp : narrow' = true → narrow = true) :
    (if narrow' then zext16 (loByte v) else v) = v := by
  split
  · rename_i h
    exact zext16_loByte_of_hiByte v (hv (himp h))
  · rfl

/-- REP clears bits of `P`, so an index register that is narrow after it was narrow before. -/
theorem rep_keeps_index {v : Byte} {s t : State} (hs : s.IndexHighZero) (h : exec (.rep v) s = .next t) : t.X = s.X ∧ t.Y = s.Y := by
  obtain ⟨⟨u, hu, hp, hx, hy, -⟩, -⟩ := repSepWriteStatus v s
  cases hu.symm.trans h
  have himp : (s.e || t.flag .x) = true → s.x8 = true := by
    simp only [State.x8, State.flag, hp, Bool.or_eq_true, BitVec.getLsbD_and, Bool.and_eq_true]
    exact Or.imp_right And.left
  exact ⟨hx.trans (narrowed_eq (fun h8 => (hs h8).1) himp), hy.trans (narrowed_eq (fun h8 => (hs h8).2) himp)⟩

/-- Settles O15: a register that has changed is one the instruction writes. -/
theorem registerWriters : Obligations.RegisterWriters := by
  intro i s t h
  have hw := exec_writes_of_next h
  refine ⟨fun hne => ?_, fun hne => writers_DBR (hw.mem_regs (toNat_ne hne)), fun hne => writers_DR (hw.mem_regs (toNat_ne hne)),
    fun hne => ?_, fun hne => writers_run (hw.mem_regs (RunState.code_injective.ne hne)),
    fun hne => writers_A (hw.mem_regs (toNat_ne hne)), fun hs hne => ?_, fun hs hne => ?_⟩
  · have hwriter := writers_PBR (hw.mem_regs (r := .PBR) (toNat_ne hne))
    have hrti : i = .rti → i = .rti ∧ s.e = false := by
      rintro rfl
      exact ⟨rfl, rti_PBR_native h hne⟩
    exact hwriter.imp_right (Or.imp_right (Or.imp_right (Or.imp_left hrti)))
  · exact writers_e (hw.mem_regs (r := .e) (bool_toNat_ne hne))
  · obtain ⟨v, rfl⟩ | hwriter := writers_X (hw.mem_regs (r := .X) (toNat_ne hne))
    · exact absurd (rep_keeps_index hs h).1 hne
    · exact hwriter
  · obtain ⟨v, rfl⟩ | hwriter := writers_Y (hw.mem_regs (r := .Y) (toNat_ne hne))
    · exact absurd (rep_keeps_index hs h).2 hne
    · exact hwriter

/-! ## The writers of each flag -/

/-- The instructions that write the whole of `P`. -/
def WritesStatus (i : Instr) : Prop := (∃ v, i = .rep v) ∨ (∃ v, i = .sep v) ∨ i = .plp ∨ i = .rti

@[simp] theorem mem_bitFlags {f : Flag} {o : Src} : f ∈ bitFlags o ↔ f = .z ∨ (∃ m, o = .mem m) ∧ (f = .n ∨ f = .v) := by
  cases o <;> simp [bitFlags]

theorem writers_v {i : Instr} (h : .v ∈ i.flagsWritten) :
    WritesStatus i ∨ (∃ o, i = .adc o ∨ i = .sbc o) ∨ (∃ m, i = .bit (.mem m)) ∨ i = .clv := by
  cases i <;> simp_all [Instr.flagsWritten, WritesStatus]

theorem writers_c {i : Instr} (h : .c ∈ i.flagsWritten) :
    WritesStatus i ∨ (∃ o, i = .adc o ∨ i = .sbc o ∨ i = .cmp o ∨ i = .cpx o ∨ i = .cpy o) ∨
      (∃ o, i = .asl o ∨ i = .lsr o ∨ i = .rol o ∨ i = .ror o) ∨ i = .clc ∨ i = .sec ∨ i = .xce := by
  cases i <;> simp_all [Instr.flagsWritten, WritesStatus]

theorem writers_d {i : Instr} (h : .d ∈ i.flagsWritten) :
    WritesStatus i ∨ i = .sed ∨ i = .cld ∨ (∃ g, i = .brk g) ∨ (∃ g, i = .cop g) := by
  cases i <;> simp_all [Instr.flagsWritten, WritesStatus]

theorem writers_i {i : Instr} (h : .i ∈ i.flagsWritten) :
    WritesStatus i ∨ i = .sei ∨ i = .cli ∨ (∃ g, i = .brk g) ∨ (∃ g, i = .cop g) := by
  cases i <;> simp_all [Instr.flagsWritten, WritesStatus]

theorem writers_m {i : Instr} (h : .m ∈ i.flagsWritten) : WritesStatus i ∨ i = .xce := by
  cases i <;> simp_all [Instr.flagsWritten, WritesStatus]

theorem writers_x {i : Instr} (h : .x ∈ i.flagsWritten) : WritesStatus i ∨ i = .xce := by
  cases i <;> simp_all [Instr.flagsWritten, WritesStatus]

/-- Settles O16: a flag that has changed is one the instruction writes. -/
theorem flagWriters : Obligations.FlagWriters := by
  intro i s t h
  have hw := exec_writes_of_next h
  exact ⟨fun hne => writers_v (hw.mem_flags hne), fun hne => writers_c (hw.mem_flags hne), fun hne => writers_d (hw.mem_flags hne),
    fun hne => writers_i (hw.mem_flags hne), fun hne => writers_m (hw.mem_flags hne), fun hne => writers_x (hw.mem_flags hne)⟩

end Sys2Proof.Machine
end

section
/-! Returns after calls: 44_control_flow.md R293 to R296, 60_exceptions.md R333, R338. Where the slots in use are distinct bytes of RAM, the
pulls find the bytes pushed, the last one first. -/

namespace Sys2Proof.Machine

namespace State

/-! ## Pulls go back over the slots of the pushes -/

/-- Up from a slot below, pinned where the stack pointer is: the slot itself. -/
theorem pin_add_one_pushSlot_succ {s : State} (hs : s.StackPinned) (k : Nat) :
    (if s.e then mkWord Config.spEmuHigh (loByte (s.pushSlot (k + 1) + 1)) else s.pushSlot (k + 1) + 1) = s.pushSlot k := by
  by_cases he : s.e = true
  · have hpage : hiByte (s.pushSlot k) = Config.spEmuHigh := by
      cases k with
      | zero => exact hs he
      | succ k => simp [pushSlot, he]
    have hlow : loByte (s.pushSlot (k + 1) + 1) = loByte (s.pushSlot k) := by
      simp only [pushSlot, he, if_true, loByte_add, loByte_mkWord, loByte_sub]
      exact BitVec.sub_add_cancel _ _
    rw [if_pos he, hlow, ← hpage, mkWord_hi_lo]
  · rw [if_neg he, pushSlot, if_neg he]
    exact BitVec.sub_add_cancel _ _

theorem pullSlot_eq_pushSlot {s t : State} (hs : s.StackPinned) (he : t.e = s.e) {n : Nat} (hsp : t.SP = s.pushSlot n) {k : Nat}
    (hk : k ≤ n) : t.pullSlot k = s.pushSlot (n - k) := by
  induction k with
  | zero => exact hsp
  | succ k ih =>
    rw [pullSlot, ih (by omega), he, show n - k = n - (k + 1) + 1 by omega]
    exact pin_add_one_pushSlot_succ hs _

/-! ## The bytes pushed -/

/-- The first four slots below the stack pointer are bytes of RAM, and no two of them are the same. -/
structure StackUsable (s : State) : Prop where
  ram : ∀ k < 4, s.bus.isRam (mkAddr 0 (s.pushSlot k)) = true
  distinct : ∀ j < 4, ∀ k < 4, j ≠ k → s.bus.sameByte (mkAddr 0 (s.pushSlot j)) (mkAddr 0 (s.pushSlot k)) = false

theorem mem_pushed {s : State} {j : Nat} {vs : List Byte} {c : Address × Byte} (h : c ∈ s.pushed j vs) :
    ∃ k, j ≤ k ∧ k < j + vs.length ∧ c.1 = mkAddr 0 (s.pushSlot k) := by
  induction vs generalizing j with
  | nil => simp [pushed] at h
  | cons v vs ih =>
    rcases List.mem_cons.mp h with rfl | h
    · exact ⟨j, Nat.le_refl j, by simp, rfl⟩
    · obtain ⟨k, hj, hk, hc⟩ := ih h
      exact ⟨k, by omega, by simp only [List.length_cons]; omega, hc⟩

theorem getElem?_pushed (s : State) (j k : Nat) (vs : List Byte) :
    (s.pushed j vs)[k]? = (vs[k]?).map (fun v => (mkAddr 0 (s.pushSlot (j + k)), v)) := by
  induction vs generalizing j k with
  | nil => simp [pushed]
  | cons v vs ih =>
    cases k with
    | zero => rfl
    | succ k => simpa [pushed, Nat.add_assoc, Nat.add_comm 1 k] using ih (j + 1) k

namespace StackUsable

variable {s : State} (hs : s.StackUsable)
include hs

theorem pushed_isRam {vs : List Byte} (hlen : vs.length ≤ 4) : ∀ c ∈ s.pushed 0 vs, s.bus.isRam c.1 = true := by
  intro c hc
  obtain ⟨k, -, hk, hck⟩ := mem_pushed hc
  rw [hck]
  exact hs.ram k (by omega)

theorem pushed_pairwise {vs : List Byte} {j : Nat} (hlen : j + vs.length ≤ 4) :
    (s.pushed j vs).Pairwise (fun c d => s.bus.sameByte c.1 d.1 = false) := by
  induction vs generalizing j with
  | nil => exact .nil
  | cons v vs ih =>
    simp only [List.length_cons] at hlen
    refine .cons (fun d hd => ?_) (ih (by omega))
    obtain ⟨k, hj, hk, hdk⟩ := mem_pushed hd
    rw [hdk]
    exact hs.distinct j (by omega) k (by omega) (by omega)

/-- After at most four pushes each byte stands in its slot. -/
theorem byteAt_pushed {b : Bus} {vs : List Byte} (hlen : vs.length ≤ 4) (hb : s.bus.Frame (s.pushed 0 vs) b) {k : Nat} {v : Byte}
    (hv : vs[k]? = some v) : b.byteAt (mkAddr 0 (s.pushSlot k)) = some v := by
  have hk : (s.pushed 0 vs)[k]? = some (mkAddr 0 (s.pushSlot k), v) := by
    rw [getElem?_pushed, hv, Nat.zero_add]
    rfl
  exact hb.stored.byteAt (hs.pushed_isRam hlen) (hs.pushed_pairwise (by omega)) _ (List.mem_of_getElem? hk)

end StackUsable

/-- The bytes a state is to pull are these, in this order. -/
def Holds (t : State) (vs : List Byte) : Prop := ∀ k v, vs[k]? = some v → t.bus.byteAt (mkAddr 0 (t.pullSlot (k + 1))) = some v

/-- After pushes the state pulls the same bytes, in the other order. -/
theorem holds_of_pushed {s t : State} {regs : List Reg} {flags : List Flag} {vs : List Byte} (hs : s.StackUsable) (hpin : s.StackPinned)
    (hlen : vs.length ≤ 4) (h : Frame regs flags (s.pushed 0 vs) s t) (he : .e ∉ regs) (hsp : t.SP = s.pushSlot vs.length) :
    t.Holds vs.reverse := by
  intro k v hv
  have hk : k < vs.length := by simpa using (List.getElem?_eq_some_iff.mp hv).1
  rw [List.getElem?_reverse hk] at hv
  rw [pullSlot_eq_pushSlot hpin (h.e_eq he) hsp (by omega), show vs.length - (k + 1) = vs.length - 1 - k by omega]
  exact hs.byteAt_pushed hlen h.bus hv

/-! ## Pulls in succession -/

theorem pull8_of_holds {t : State} {v : Byte} {vs : List Byte} (h : t.Holds (v :: vs)) : t.pull8.1 = v := pull8_of_byteAt (h 0 v rfl)

theorem holds_pull8 {t : State} {v : Byte} {vs : List Byte} (h : t.Holds (v :: vs)) : t.pull8.2.Holds vs := by
  intro k w hw
  have hslot : t.pull8.2.pullSlot (k + 1) = t.pullSlot (k + 1 + 1) := by
    rw [pullSlot_add t t.pull8.2 1 rfl t.pull8_SP (k + 1), Nat.add_comm 1]
  rw [hslot, (Frame.pull8 t).bus.bytes _ (by simp)]
  exact h (k + 1) w hw

theorem pull16_of_holds {t : State} {lo hi : Byte} {vs : List Byte} (h : t.Holds (lo :: hi :: vs)) :
    t.pull16.1 = mkWord hi lo ∧ t.pull16.2.Holds vs := by
  have h1 := holds_pull8 h
  refine ⟨?_, holds_pull8 h1⟩
  show mkWord t.pull8.2.pull8.1 t.pull8.1 = _
  rw [pull8_of_holds h, pull8_of_holds h1]

end State

/-! ## What a call leaves for its return -/

theorem Frame.X_eq {regs : List Reg} {flags : List Flag} {stores : List (Address × Byte)} {s t : State}
    (h : Frame regs flags stores s t) (hX : .X ∉ regs) : t.X = s.X := BitVec.eq_of_toNat_eq (h.regs .X hX)

theorem Frame.Y_eq {regs : List Reg} {flags : List Flag} {stores : List (Address × Byte)} {s t : State}
    (h : Frame regs flags stores s t) (hY : .Y ∉ regs) : t.Y = s.Y := BitVec.eq_of_toNat_eq (h.regs .Y hY)

/-- A state whose stack is as after pushes from `s`: it pulls the bytes pushed, and then the stack pointer is where it was. -/
theorem State.pulls_after_pushed {s t : State} {regs : List Reg} {flags : List Flag} {vs : List Byte} (hinv : s.Inv)
    (hs : s.StackUsable) (hlen : vs.length ≤ 4) (h : Frame regs flags (s.pushed 0 vs) s t) (he : .e ∉ regs)
    (hsp : t.SP = s.pushSlot vs.length) : t.Holds vs.reverse ∧ t.pullSlot vs.length = s.SP := by
  refine ⟨State.holds_of_pushed hs hinv.stack hlen h he hsp, ?_⟩
  rw [State.pullSlot_eq_pushSlot hinv.stack (h.e_eq he) hsp (Nat.le_refl _), Nat.sub_self, State.pushSlot_zero]

theorem jsr_pushes {s t : State} {j : JsrTarget} (h : exec (.jsr j) s = .next t) :
    t.SP = s.pushSlot 2 ∧ Frame [.PC, .SP] [] (s.pushed 0 [hiByte (s.PC + 2), loByte (s.PC + 2)]) s t := by
  cases j with
  | abs a =>
    obtain ⟨⟨u, hu, -, hsp, hframe⟩, -⟩ := callsPushReturnAddress s a 0
    cases hu.symm.trans h
    exact ⟨hsp, hframe⟩
  | indx a =>
    obtain ⟨-, ⟨u, hu, hsp, -, -, hframe⟩, -⟩ := callsPushReturnAddress s a 0
    cases hu.symm.trans h
    exact ⟨hsp, hframe⟩

/-- The bytes of an interrupt's frame in the order they are pulled: `P`, the return address, and in native mode `PBR`. -/
theorem SoftInt.reverse_frameBytes (k : SoftInt) (s : State) :
    (k.frameBytes s).reverse =
      k.pushedP s :: loByte (s.PC + 2) :: hiByte (s.PC + 2) :: if s.e then [] else [s.PBR] := by
  simp only [frameBytes, pushBytes]
  split <;> rfl

/-- The copy of `P` pushed has `x` set in native mode only where `P` has. -/
theorem SoftInt.x8_of_pushedP {k : SoftInt} {s : State} (hx : (s.e || (k.pushedP s).getLsbD Flag.x.bit) = true) : s.x8 = true := by
  cases he : s.e with
  | true => simp [State.x8, he]
  | false => cases k <;> simpa [pushedP, he, State.x8, State.flag] using hx

section
variable {s t : State} (hinv : s.Inv) (hs : s.StackUsable)
include hinv hs

theorem rts_undoes_jsr {j : JsrTarget} (h : exec (.jsr j) s = .next t) :
    ∃ u, exec .rts t = .next u ∧ u.PC = s.PC + 3 ∧ u.SP = s.SP := by
  obtain ⟨hsp, hframe⟩ := jsr_pushes h
  obtain ⟨hholds, hback⟩ := State.pulls_after_pushed hinv hs (by simp) hframe (by simp) hsp
  obtain ⟨hword, -⟩ := State.pull16_of_holds hholds
  obtain ⟨⟨u, hu, hpc, husp, -⟩, -⟩ := returnsPullPC t
  refine ⟨u, hu, ?_, husp.trans hback⟩
  rw [hpc, hword, mkWord_hi_lo, BitVec.add_assoc]
  rfl

theorem rtl_undoes_jsl {al : Address} (h : exec (.jsl al) s = .next t) :
    ∃ u, exec .rtl t = .next u ∧ u.PC = s.PC + 4 ∧ u.PBR = s.PBR ∧ u.SP = s.SP := by
  obtain ⟨-, -, ⟨t', ht', -, -, hsp, hframe⟩⟩ := callsPushReturnAddress s 0 al
  cases ht'.symm.trans h
  obtain ⟨hholds, hback⟩ := State.pulls_after_pushed hinv hs (by simp) hframe (by simp) hsp
  obtain ⟨hword, hrest⟩ := State.pull16_of_holds hholds
  obtain ⟨-, u, hu, hpc, hpbr, husp, -⟩ := returnsPullPC t
  refine ⟨u, hu, ?_, hpbr.trans (State.pull8_of_holds hrest), husp.trans hback⟩
  rw [hpc, hword, mkWord_hi_lo, BitVec.add_assoc]
  rfl

theorem rti_undoes_softInt (k : SoftInt) (h : .next (s.softInt k) = (.next t : Result)) :
    ∃ u, exec .rti t = .next u ∧ u.PC = s.PC + 2 ∧ (s.e = false → u.PBR = s.PBR) ∧ u.SP = s.SP ∧ u.X = s.X ∧ u.Y = s.Y ∧
      u.P = k.pushedP s := by
  obtain ⟨t', ht', hsp, -, -, -, -, -, hframe⟩ := softInt_enters k s
  cases ht'.symm.trans h
  have hlen := k.length_frameBytes s
  obtain ⟨hholds, hback⟩ := State.pulls_after_pushed hinv hs (by rw [hlen]; split <;> decide) hframe (by simp) hsp
  rw [k.reverse_frameBytes] at hholds
  obtain ⟨hword, hrest⟩ := State.pull16_of_holds (State.holds_pull8 hholds)
  obtain ⟨u, hu, hp, hpc, hpbr, husp, hx, hy, -⟩ := rtiRestores t
  have he : t.e = s.e := hframe.e_eq (by simp)
  have hpushed : u.P = k.pushedP s := hp.trans (State.pull8_of_holds hholds)
  have hnarrow : (t.e || u.flag .x) = true → s.x8 = true := by
    rw [he, State.flag, hpushed]
    exact SoftInt.x8_of_pushedP
  refine ⟨u, hu, ?_, fun hnative => ?_, ?_, ?_, ?_, hpushed⟩
  · rw [hpc, hword, mkWord_hi_lo]
  · rw [hnative] at hrest
    rw [hpbr, he, hnative]
    exact State.pull8_of_holds hrest
  · rw [husp, he, ← hlen, hback]
  · rw [hx, hframe.X_eq (by simp)]
    exact narrowed_eq (fun h8 => (hinv.index h8).1) hnarrow
  · rw [hy, hframe.Y_eq (by simp)]
    exact narrowed_eq (fun h8 => (hinv.index h8).2) hnarrow

end

/-- Settles O59: each return pulls what its call has pushed, which nothing has overwritten since. -/
theorem returnsUndoCalls : Obligations.ReturnsUndoCalls := by
  intro s t i hinv hram hdistinct h Restores
  have hs : s.StackUsable := ⟨hram, hdistinct⟩
  refine ⟨?_, ?_, ?_, ?_⟩
  · rintro ⟨j, rfl⟩
    exact rts_undoes_jsr hinv hs h
  · rintro ⟨a, rfl⟩
    exact rtl_undoes_jsl hinv hs h
  · rintro ⟨g, rfl⟩
    exact rti_undoes_softInt hinv hs .brk h
  · rintro ⟨g, rfl⟩
    exact rti_undoes_softInt hinv hs .cop h

end Sys2Proof.Machine
end
